-- ==== Sys2Proof/Word.lean ====
section
/-! DEFINITION. The word and address types of the host port, and the bit fields of R9. -/

namespace Sys2Proof

/-- One 32-bit word: a command word (R151) or the data of a host access (R100). -/
abbrev Word := BitVec 32

/-- A 16-bit word address of the host register space (R101). -/
abbrev Addr := BitVec 16

/-- The index of a register, 0..7 (R51, R152). -/
abbrev Idx := Fin 8

/-- A Bool as the bit it is in a register word. -/
def bit (b : Bool) : BitVec 1 := BitVec.ofBool b

end Sys2Proof
end

