-- ==== Sys2Proof/Syntax.lean ====
section
/-! DEFINITION. The commands of spec/opcode_table.json, one constructor a row (R156), operands as R155 names them. -/

namespace Sys2Proof

/-- The four rounding modes (R158, R255, R256). -/
inductive RoundingMode where
  | nearestTiesToEven
  | towardZero
  | towardPositive
  | towardNegative
  deriving DecidableEq, Repr

/-- The rm field of NORM (R158): a mode by its code 0..3, or code 7, the mode in CFG.RM. -/
inductive RmSel where
  | fixed (mode : RoundingMode)
  | dyn
  deriving DecidableEq, Repr

/-- A command. `rd`, `ra`, `rb` are register indexes; which file each names is R155. -/
inductive Instr where
  | wadd (rd ra rb : Idx)
  | wsub (rd ra rb : Idx)
  | wmul (rd ra rb : Idx)
  | wshl (rd ra rb : Idx)
  | wshr (rd ra rb : Idx)
  | wshli (rd ra : Idx) (imm : BitVec 16)
  | wshri (rd ra : Idx) (imm : BitVec 16)
  | wcmp (ra rb : Idx)
  | wclz (rd ra : Idx)
  | wldi (rd : Idx) (imm : BitVec 16)
  | wmov (rd ra : Idx)
  | eadd (rd ra rb : Idx)
  | esub (rd ra rb : Idx)
  | eaddi (rd ra : Idx) (imm : BitVec 16)
  | ecmp (ra rb : Idx)
  | eldi (rd : Idx) (imm : BitVec 16)
  | norm (rd ra : Idx) (rm : RmSel) (useLoss : Bool)
  | align (rd ra rb : Idx)
  | unpack (rd ra : Idx)
  | pack (rd ra : Idx)
  | fmov (rd ra : Idx)
  deriving DecidableEq, Repr

end Sys2Proof
end

