-- ==== Sys2Proof/WellFormed.lean ====
section
/-! DEFINITION. Which commands have an encoding. The types of Syntax.lean already bound every field but one: the destination
of WMUL names an even/odd pair (R157 (c), R203). -/

namespace Sys2Proof

/-- The destination of WMUL is the even register of its pair (R203). -/
def evenPair (rd : Idx) : Bool := rd.val % 2 == 0

/-- A command that some command word encodes. -/
def Instr.wellFormed : Instr → Bool
  | .wmul rd _ _ => evenPair rd
  | .wadd _ _ _ => true
  | .wsub _ _ _ => true
  | .wshl _ _ _ => true
  | .wshr _ _ _ => true
  | .wshli _ _ _ => true
  | .wshri _ _ _ => true
  | .wcmp _ _ => true
  | .wclz _ _ => true
  | .wldi _ _ => true
  | .wmov _ _ => true
  | .eadd _ _ _ => true
  | .esub _ _ _ => true
  | .eaddi _ _ _ => true
  | .ecmp _ _ => true
  | .eldi _ _ => true
  | .norm _ _ _ _ => true
  | .align _ _ _ => true
  | .unpack _ _ => true
  | .pack _ _ => true
  | .fmov _ _ => true

end Sys2Proof
end

