-- ==== Sys2Proof/Decode.lean ====
section
/-! DEFINITION. From a command word to a command and back (30_encoding R151 to R162). -/

namespace Sys2Proof

/-! ### Fields -/

/-- `w[lo+len-1 : lo]` as an unsigned number (R9). -/
def field (w : Word) (lo len : Nat) : Nat := (w.toNat / 2 ^ lo) % 2 ^ len

/-- A 3-bit register field (R152, R153). -/
def regField (w : Word) (lo : Nat) : Idx := ⟨field w lo 3, Nat.mod_lt _ (by decide)⟩

/-- The destination field, bits [10:8]. -/
def rdField (w : Word) : Idx := regField w 8

/-- The first source field, bits [13:11]. -/
def raField (w : Word) : Idx := regField w 11

/-- The second source field, bits [16:14] of the R format. -/
def rbField (w : Word) : Idx := regField w 14

/-- The immediate of the I format, bits [31:16] (R153). -/
def immField (w : Word) : BitVec 16 := BitVec.ofNat 16 (field w 16 16)

/-! ### Decoding -/

/-- Why a word is ILLEGAL: the four cases of R157. -/
inductive DecodeError where
  /-- (a) the opcode is not in the table of R156 -/
  | reservedOpcode
  /-- (b) a must-be-zero field or a reserved bit is nonzero -/
  | reservedField
  /-- (c) a WMUL with odd rd -/
  | oddPair
  /-- (d) a NORM whose rm field is 4, 5 or 6 -/
  | reservedRounding
  deriving DecidableEq, Repr

/-- The rounding-mode selector of R158. -/
def rmSel : Nat → Option RmSel
  | 0 => some (.fixed .nearestTiesToEven)
  | 1 => some (.fixed .towardZero)
  | 2 => some (.fixed .towardPositive)
  | 3 => some (.fixed .towardNegative)
  | 7 => some .dyn
  | _ => none

/-- `i`, if the fields that must be zero are (R157 (b)). -/
def requireZero (zero : Bool) (i : Instr) : Except DecodeError Instr :=
  if zero then .ok i else .error .reservedField

/-- R format with all three register fields: the rm, f and reserved bits, [31:17], are 0. -/
def zeroAboveRb (w : Word) : Bool := field w 17 15 == 0

/-- R format with rb reserved too: bits [31:14] are 0. -/
def zeroFromRb (w : Word) : Bool := field w 14 18 == 0

/-- R format of the compares: rd and bits [31:17] are 0. -/
def zeroRdAndAboveRb (w : Word) : Bool := field w 8 3 == 0 && zeroAboveRb w

/-- I format: bits [15:14] are 0 (R153). -/
def zeroIReserved (w : Word) : Bool := field w 14 2 == 0

/-- I format with ra reserved too: bits [15:11] are 0. -/
def zeroIReservedAndRa (w : Word) : Bool := field w 11 5 == 0

/-- WMUL: reserved bits first, then the parity of rd (R157 (c)). -/
def decodeWmul (w : Word) : Except DecodeError Instr :=
  if zeroAboveRb w then
    if evenPair (rdField w) then .ok (.wmul (rdField w) (raField w) (rbField w)) else .error .oddPair
  else .error .reservedField

/-- NORM: rb and bits [31:21] are 0, the rm field selects a mode, bit 20 is L (R152, R158, R159). -/
def decodeNorm (w : Word) : Except DecodeError Instr :=
  if field w 14 3 == 0 && field w 21 11 == 0 then
    match rmSel (field w 17 3) with
    | some rm => .ok (.norm (rdField w) (raField w) rm (field w 20 1 == 1))
    | none => .error .reservedRounding
  else .error .reservedField

/-- The decoder: total on every word; the opcode in bits [7:0] selects the command (R156), R157 rejects the rest. -/
def decode (w : Word) : Except DecodeError Instr :=
  match field w 0 8 with
  | 0x01 => requireZero (zeroAboveRb w) (.wadd (rdField w) (raField w) (rbField w))
  | 0x02 => requireZero (zeroAboveRb w) (.wsub (rdField w) (raField w) (rbField w))
  | 0x03 => decodeWmul w
  | 0x04 => requireZero (zeroAboveRb w) (.wshl (rdField w) (raField w) (rbField w))
  | 0x05 => requireZero (zeroAboveRb w) (.wshr (rdField w) (raField w) (rbField w))
  | 0x06 => requireZero (zeroIReserved w) (.wshli (rdField w) (raField w) (immField w))
  | 0x07 => requireZero (zeroIReserved w) (.wshri (rdField w) (raField w) (immField w))
  | 0x08 => requireZero (zeroRdAndAboveRb w) (.wcmp (raField w) (rbField w))
  | 0x09 => requireZero (zeroFromRb w) (.wclz (rdField w) (raField w))
  | 0x0A => requireZero (zeroIReservedAndRa w) (.wldi (rdField w) (immField w))
  | 0x0B => requireZero (zeroFromRb w) (.wmov (rdField w) (raField w))
  | 0x10 => requireZero (zeroAboveRb w) (.eadd (rdField w) (raField w) (rbField w))
  | 0x11 => requireZero (zeroAboveRb w) (.esub (rdField w) (raField w) (rbField w))
  | 0x12 => requireZero (zeroIReserved w) (.eaddi (rdField w) (raField w) (immField w))
  | 0x13 => requireZero (zeroRdAndAboveRb w) (.ecmp (raField w) (rbField w))
  | 0x14 => requireZero (zeroIReservedAndRa w) (.eldi (rdField w) (immField w))
  | 0x20 => decodeNorm w
  | 0x21 => requireZero (zeroAboveRb w) (.align (rdField w) (raField w) (rbField w))
  | 0x22 => requireZero (zeroFromRb w) (.unpack (rdField w) (raField w))
  | 0x23 => requireZero (zeroFromRb w) (.pack (rdField w) (raField w))
  | 0x24 => requireZero (zeroFromRb w) (.fmov (rdField w) (raField w))
  | _ => .error .reservedOpcode

/-! ### Encoding -/

/-- The opcode byte of R156. -/
def Instr.opcode : Instr → Nat
  | .wadd _ _ _ => 0x01
  | .wsub _ _ _ => 0x02
  | .wmul _ _ _ => 0x03
  | .wshl _ _ _ => 0x04
  | .wshr _ _ _ => 0x05
  | .wshli _ _ _ => 0x06
  | .wshri _ _ _ => 0x07
  | .wcmp _ _ => 0x08
  | .wclz _ _ => 0x09
  | .wldi _ _ => 0x0A
  | .wmov _ _ => 0x0B
  | .eadd _ _ _ => 0x10
  | .esub _ _ _ => 0x11
  | .eaddi _ _ _ => 0x12
  | .ecmp _ _ => 0x13
  | .eldi _ _ => 0x14
  | .norm _ _ _ _ => 0x20
  | .align _ _ _ => 0x21
  | .unpack _ _ => 0x22
  | .pack _ _ => 0x23
  | .fmov _ _ => 0x24

/-- The code of a rounding mode (R158; CFG.RM uses the codes 0..3 of the same table). -/
def RoundingMode.code : RoundingMode → Nat
  | .nearestTiesToEven => 0
  | .towardZero => 1
  | .towardPositive => 2
  | .towardNegative => 3

/-- The code of the rm field (R158). -/
def RmSel.code : RmSel → Nat
  | .fixed m => m.code
  | .dyn => 7

/-- A word of the R format (R152) with rm and f 0. -/
def encodeR (op : Nat) (rd ra rb : Idx) : Word :=
  BitVec.ofNat 32 (op + 2 ^ 8 * rd.val + 2 ^ 11 * ra.val + 2 ^ 14 * rb.val)

/-- A word of the R format with the rm and f fields of NORM (R152). -/
def encodeNorm (op : Nat) (rd ra : Idx) (rm : RmSel) (useLoss : Bool) : Word :=
  BitVec.ofNat 32 (op + 2 ^ 8 * rd.val + 2 ^ 11 * ra.val + 2 ^ 17 * rm.code + 2 ^ 20 * useLoss.toNat)

/-- A word of the I format (R153). -/
def encodeI (op : Nat) (rd ra : Idx) (imm : BitVec 16) : Word :=
  BitVec.ofNat 32 (op + 2 ^ 8 * rd.val + 2 ^ 11 * ra.val + 2 ^ 16 * imm.toNat)

/-- The command word of a command: its opcode, its fields at the places of R152 and R153, 0 in every other bit. -/
def encode (i : Instr) : Word :=
  match i with
  | .wadd rd ra rb => encodeR i.opcode rd ra rb
  | .wsub rd ra rb => encodeR i.opcode rd ra rb
  | .wmul rd ra rb => encodeR i.opcode rd ra rb
  | .wshl rd ra rb => encodeR i.opcode rd ra rb
  | .wshr rd ra rb => encodeR i.opcode rd ra rb
  | .wshli rd ra imm => encodeI i.opcode rd ra imm
  | .wshri rd ra imm => encodeI i.opcode rd ra imm
  | .wcmp ra rb => encodeR i.opcode 0 ra rb
  | .wclz rd ra => encodeR i.opcode rd ra 0
  | .wldi rd imm => encodeI i.opcode rd 0 imm
  | .wmov rd ra => encodeR i.opcode rd ra 0
  | .eadd rd ra rb => encodeR i.opcode rd ra rb
  | .esub rd ra rb => encodeR i.opcode rd ra rb
  | .eaddi rd ra imm => encodeI i.opcode rd ra imm
  | .ecmp ra rb => encodeR i.opcode 0 ra rb
  | .eldi rd imm => encodeI i.opcode rd 0 imm
  | .norm rd ra rm useLoss => encodeNorm i.opcode rd ra rm useLoss
  | .align rd ra rb => encodeR i.opcode rd ra rb
  | .unpack rd ra => encodeR i.opcode rd ra 0
  | .pack rd ra => encodeR i.opcode rd ra 0
  | .fmov rd ra => encodeR i.opcode rd ra 0

/-! ### The table of R156 as data -/

/-- One row of R156: the opcode with its match and mask values. -/
structure OpcodeRow where
  op : Nat
  matchBits : Word
  mask : Word
  deriving DecidableEq, Repr

/-- The rows of R156. The decoder above follows R155 and R157 instead; that the two say the same is a statement. -/
def opcodeTable : List OpcodeRow :=
  [⟨0x01, 0x00000001, 0xFFFE00FF⟩, ⟨0x02, 0x00000002, 0xFFFE00FF⟩, ⟨0x03, 0x00000003, 0xFFFE01FF⟩,
   ⟨0x04, 0x00000004, 0xFFFE00FF⟩, ⟨0x05, 0x00000005, 0xFFFE00FF⟩, ⟨0x06, 0x00000006, 0x0000C0FF⟩,
   ⟨0x07, 0x00000007, 0x0000C0FF⟩, ⟨0x08, 0x00000008, 0xFFFE07FF⟩, ⟨0x09, 0x00000009, 0xFFFFC0FF⟩,
   ⟨0x0A, 0x0000000A, 0x0000F8FF⟩, ⟨0x0B, 0x0000000B, 0xFFFFC0FF⟩] ++
  [⟨0x10, 0x00000010, 0xFFFE00FF⟩, ⟨0x11, 0x00000011, 0xFFFE00FF⟩, ⟨0x12, 0x00000012, 0x0000C0FF⟩,
   ⟨0x13, 0x00000013, 0xFFFE07FF⟩, ⟨0x14, 0x00000014, 0x0000F8FF⟩] ++
  [⟨0x20, 0x00000020, 0xFFE1C0FF⟩, ⟨0x21, 0x00000021, 0xFFFE00FF⟩, ⟨0x22, 0x00000022, 0xFFFFC0FF⟩,
   ⟨0x23, 0x00000023, 0xFFFFC0FF⟩, ⟨0x24, 0x00000024, 0xFFFFC0FF⟩]

/-- R156: "A word w decodes to a command when `(w & mask) == match`." -/
def OpcodeRow.hit (r : OpcodeRow) (w : Word) : Bool := w &&& r.mask == r.matchBits

/-! ### What the host asks of the decoder -/

/-- The command my decoder reads from the word `w`; a command word is 32 bits and has no byte order (R105, R151). -/
def decodeTableWord (nbits w : Nat) : Option Instr :=
  (decode (BitVec.ofNat 32 (w % 2 ^ nbits))).toOption

/-! ### Assembler (R160, R161) -/

def xName (i : Idx) : String := "x" ++ toString i.val
def eName (i : Idx) : String := "e" ++ toString i.val
def fName (i : Idx) : String := "f" ++ toString i.val

/-- A zero-extended immediate is written 0..65535 (R154). -/
def uimmText (k : BitVec 16) : String := "#" ++ toString k.toNat

/-- A sign-extended immediate is written -32768..32767 (R154). -/
def simmText (k : BitVec 16) : String := "#" ++ toString k.toInt

/-- The assembler name of a mode selector (R158). -/
def RmSel.text : RmSel → String
  | .fixed .nearestTiesToEven => "rne"
  | .fixed .towardZero => "rtz"
  | .fixed .towardPositive => "rup"
  | .fixed .towardNegative => "rdn"
  | .dyn => "dyn"

/-- One line of assembler: the mnemonic, then the operands of R160 separated by commas. -/
def asmLine (mnemonic : String) (operands : List String) : String :=
  mnemonic ++ " " ++ String.intercalate ", " operands

/-- The assembler line of a command (R160). -/
def Instr.asm : Instr → String
  | .wadd rd ra rb => asmLine "wadd" [xName rd, xName ra, xName rb]
  | .wsub rd ra rb => asmLine "wsub" [xName rd, xName ra, xName rb]
  | .wmul rd ra rb => asmLine "wmul" [xName rd, xName ra, xName rb]
  | .wshl rd ra rb => asmLine "wshl" [xName rd, xName ra, eName rb]
  | .wshr rd ra rb => asmLine "wshr" [xName rd, xName ra, eName rb]
  | .wshli rd ra imm => asmLine "wshli" [xName rd, xName ra, uimmText imm]
  | .wshri rd ra imm => asmLine "wshri" [xName rd, xName ra, uimmText imm]
  | .wcmp ra rb => asmLine "wcmp" [xName ra, xName rb]
  | .wclz rd ra => asmLine "wclz" [eName rd, xName ra]
  | .wldi rd imm => asmLine "wldi" [xName rd, uimmText imm]
  | .wmov rd ra => asmLine "wmov" [xName rd, xName ra]
  | .eadd rd ra rb => asmLine "eadd" [eName rd, eName ra, eName rb]
  | .esub rd ra rb => asmLine "esub" [eName rd, eName ra, eName rb]
  | .eaddi rd ra imm => asmLine "eaddi" [eName rd, eName ra, simmText imm]
  | .ecmp ra rb => asmLine "ecmp" [eName ra, eName rb]
  | .eldi rd imm => asmLine "eldi" [eName rd, simmText imm]
  | .norm rd ra rm useLoss => asmLine (if useLoss then "norm.l" else "norm") [fName rd, fName ra, rm.text]
  | .align rd ra rb => asmLine "align" [fName rd, fName ra, fName rb]
  | .unpack rd ra => asmLine "unpack" [fName rd, xName ra]
  | .pack rd ra => asmLine "pack" [xName rd, fName ra]
  | .fmov rd ra => asmLine "fmov" [fName rd, fName ra]

/-- `wclr xd` (R161). -/
def Instr.wclr (rd : Idx) : Instr := .wldi rd 0
/-- `emov ed, ea` (R161). -/
def Instr.emov (rd ra : Idx) : Instr := .eaddi rd ra 0
/-- `round fd, fa` (R161). -/
def Instr.round (rd ra : Idx) : Instr := .norm rd ra .dyn false
/-- `round.l fd, fa` (R161). -/
def Instr.roundL (rd ra : Idx) : Instr := .norm rd ra .dyn true
/-- `fnorm fd` (R161). -/
def Instr.fnorm (rd : Idx) : Instr := .norm rd rd .dyn false

end Sys2Proof
end

