-- ==== Sys2Proof/Config.lean ====
section
/-! DEFINITION. What one implementation fixes (R7, R70) and the free values (R110). -/

namespace Sys2Proof

/-- The synthesis parameters of R7: the width of one limb and the number of limbs. -/
structure Params where
  limbW : Nat
  limbN : Nat
  deriving DecidableEq, Repr

/-- W, the width of a wide register in bits (R7: `LIMB_N * LIMB_W`). -/
def Params.w (p : Params) : Nat := p.limbN * p.limbW

/-- W/32, the number of host words of a wide register (R52, R103). -/
def Params.words (p : Params) : Nat := p.w / 32

/-- The legal values of R7. -/
abbrev Params.Legal (p : Params) : Prop :=
  (p.limbW = 32 ∨ p.limbW = 64) ∧ 1 ≤ p.limbN ∧ 32 ≤ p.w ∧ p.w ≤ 8192

/-- The defaults of R7: LIMB_W = 64, LIMB_N = 4, so W = 256. -/
def Params.default : Params := { limbW := 64, limbN := 4 }

/-- The constant of the ID register, "ARF1" (R70). -/
def Config.idWord : Word := 0x41524631

/-- FREE VALUE (log 4): what the n-th host read while BUSY = 1 of an address other than STATUS, ID, PARAM,
CMD, CTRL and the reserved ones returns. R110: "an unspecified value. A model draws it freely, under no law." -/
opaque Config.busyRead : Nat → Word

end Sys2Proof
end

