-- ==== Sys2Proof/Machine/State.lean ====
section
/-! DEFINITION. The machine's state as plain data (10_state.md), its stops, and the state after reset (R85). -/

namespace Sys2Proof.Machine

/-! ### The values that registers hold -/

/-- The four categories of a float register (R55). -/
inductive Category where
  | zero
  | normal
  | infinity
  | nan
  deriving DecidableEq, Repr

/-- The four classes of discarded bits (R250). -/
inductive LossFraction where
  | exactlyZero
  | lessThanHalf
  | exactlyHalf
  | moreThanHalf
  deriving DecidableEq, Repr

/-- STATUS.CMP (R74): code 3 is never written, so the field has three values (log 13). -/
inductive CmpFlag where
  | equal
  | less
  | greater
  deriving DecidableEq, Repr

/-- The nine error codes of R451. -/
inductive ErrCode where
  | illegal
  | cfg
  | lossLeft
  | expOvf
  | shiftNeg
  | rawWidth
  | packRange
  | specialOperand
  | busyWrite
  deriving DecidableEq, Repr

/-- Eight like things under the indexes 0..7: one file of R51. -/
structure Bank (α : Type) where
  r0 : α
  r1 : α
  r2 : α
  r3 : α
  r4 : α
  r5 : α
  r6 : α
  r7 : α
  deriving DecidableEq, Repr

/-- Every register of the file holds `a`. -/
def Bank.all {α : Type} (a : α) : Bank α := ⟨a, a, a, a, a, a, a, a⟩

/-- The register of index `i`. -/
def Bank.get {α : Type} (b : Bank α) : Idx → α
  | 0 => b.r0
  | 1 => b.r1
  | 2 => b.r2
  | 3 => b.r3
  | 4 => b.r4
  | 5 => b.r5
  | 6 => b.r6
  | 7 => b.r7

/-- The file with the register of index `i` replaced. -/
def Bank.set {α : Type} (b : Bank α) (i : Idx) (a : α) : Bank α :=
  match i with
  | 0 => { b with r0 := a }
  | 1 => { b with r1 := a }
  | 2 => { b with r2 := a }
  | 3 => { b with r3 := a }
  | 4 => { b with r4 := a }
  | 5 => { b with r5 := a }
  | 6 => { b with r6 := a }
  | 7 => { b with r7 := a }

/-! ### The parts of State -/

/-- CFG (R72): the three fields exactly as written; the reserved bits hold nothing. -/
structure Cfg where
  eb : BitVec 5
  rm : BitVec 3
  mb : BitVec 16
  deriving DecidableEq, Repr

/-- The flags of STATUS (R74): C, CMP, OVF, SWAP. -/
structure Flags where
  c : Bool
  cmp : CmpFlag
  ovf : Bool
  swap : Bool
  deriving DecidableEq, Repr

/-- The sticky error: STATUS.ERR, STATUS.ERRCODE (`none` is code 0) and ERRINFO (R74, R78). -/
structure ErrorState where
  err : Bool
  code : Option ErrCode
  info : Word
  deriving DecidableEq, Repr

/-- The written-marks of R81, `true` for written: one for each host word of each X register, one for each E and META. -/
structure Marks where
  x : Bank (List Bool)
  e : Bank Bool
  metaReg : Bank Bool
  deriving DecidableEq, Repr

/-- One turn of one agent (R50, R511): a host transaction (R100), a hardware reset (R500), or a turn of the unit (log 2, log 12). -/
inductive Turn where
  | hostRead (addr : Addr)
  | hostWrite (addr : Addr) (data : Word)
  | hardReset
  | unitTurn
  deriving DecidableEq, Repr

/-- The whole machine. The float register F[i] of R51 is (sgn[i], cat[i], e[i], x[i]). -/
structure State where
  /-- the synthesis parameters, fixed for a machine (R7, read through PARAM, R71) -/
  params : Params
  /-- X0..X7, each in [0, 2^W) (R10, R52) -/
  x : Bank Nat
  /-- E0..E7, two's complement (R53) -/
  e : Bank (BitVec 32)
  /-- S0..S7, `true` for negative (R54) -/
  sgn : Bank Bool
  /-- C0..C7 (R54, R55) -/
  cat : Bank Category
  /-- CFG (R72) -/
  cfg : Cfg
  /-- LOSS (R75) -/
  loss : LossFraction
  /-- STATUS.C, CMP, OVF, SWAP (R74) -/
  flags : Flags
  /-- STATUS.ERR, STATUS.ERRCODE, ERRINFO (R74, R78) -/
  error : ErrorState
  /-- the command latch (R80); STATUS.BUSY is that it holds a command -/
  latch : Option Word
  /-- rsp_rdata, the port's answer to the last host read (R100) -/
  rdata : Word
  /-- the written-marks (R81) -/
  marks : Marks
  /-- the model's own: the turns still to come, the next one first (log 2) -/
  turns : List Turn
  /-- the model's own: how many free values have been drawn (log 4) -/
  draws : Nat
  deriving DecidableEq, Repr

/-- STATUS.BUSY (R74, R80). -/
def State.busy (s : State) : Bool := s.latch.isSome

/-- A written-mark's register word: word `j` of X[i], E[i] or META[i]. -/
inductive RegWord where
  | x (i : Idx) (j : Nat)
  | e (i : Idx)
  | metaReg (i : Idx)
  deriving DecidableEq, Repr

/-! ### The stops -/

/-- Why a step stops with a fault. -/
inductive Fault where
  /-- R81, R456, U1: a word that nothing has written since reset is read. Raised by `strictStep` (Safety.lean) only:
  `step` lets the run go on with the value the word holds (log 1). Safe: where the hardware goes on, `strictStep` stops. -/
  | unwrittenWord (w : RegWord)
  deriving DecidableEq, Repr

/-- Why a step is refused. -/
inductive Refusal where
  /-- An instruction that has no meaning yet, by its mnemonic. No arm of exec raises it. Safe: nothing is claimed of it. -/
  | notModelled (mnemonic : String)
  deriving DecidableEq, Repr

/-! ### Reset -/

/-- CFG after reset: binary32 under NearestTiesToEven, word 0x00170008 (R72, R85). -/
def Cfg.reset : Cfg := { eb := 8, rm := 0, mb := 23 }

/-- Every word unwritten (R81, R85). -/
def Marks.none (p : Params) : Marks :=
  { x := Bank.all (List.replicate p.words false), e := Bank.all false, metaReg := Bank.all false }

/-- The state of R85 for the synthesis parameters `p`. X, E, S and C hold 0, a DESIGN CHOICE (log 1): R85 leaves them
unspecified, and their marks say so. `rdata` 0 (log 5), no turns (log 2) and no draws (log 4) are the model's. -/
def State.resetWith (p : Params) : State :=
  { params := p
    x := Bank.all 0
    e := Bank.all 0
    sgn := Bank.all false
    cat := Bank.all .zero
    cfg := Cfg.reset
    loss := .exactlyZero
    flags := { c := false, cmp := .equal, ovf := false, swap := false }
    error := { err := false, code := Option.none, info := 0 }
    latch := Option.none
    rdata := 0
    marks := Marks.none p
    turns := []
    draws := 0 }

/-- The machine right after reset, with the default parameters of R7 (log 3). -/
def State.reset : State := State.resetWith Params.default

end Sys2Proof.Machine
end

