-- ==== Sys2Proof/Machine/Ops.lean ====
section
/-! DEFINITION. The named operations over registers: reading and writing them with their marks (R11, R51, R81), committing a
command (R114, R150), raising an error (R452) and reset (R500, R501). The block has no memory (R101, log 6). -/

namespace Sys2Proof.Machine

/-- The float register tuple F[i] of R11 and R51: the exponent as the signed integer it stands for (R10). -/
structure FloatReg where
  sign : Bool
  cat : Category
  exp : Int
  man : Nat
  deriving DecidableEq, Repr

/-! ### Reading -/

/-- X[i] (R52). -/
def State.readX (s : State) (i : Idx) : Nat := s.x.get i

/-- E[i] as a signed integer (R10, R53). -/
def State.readE (s : State) (i : Idx) : Int := (s.e.get i).toInt

/-- F[i] (R11). -/
def State.readF (s : State) (i : Idx) : FloatReg :=
  { sign := s.sgn.get i, cat := s.cat.get i, exp := s.readE i, man := s.readX i }

/-! ### Writing: a command writes whole registers and clears the unwritten marks of every word (R81) -/

/-- X[i] <- v. -/
def State.writeX (s : State) (i : Idx) (v : Nat) : State :=
  { s with
    x := s.x.set i v
    marks := { s.marks with x := s.marks.x.set i (List.replicate s.params.words true) } }

/-- E[i] <- v, in two's complement (R10, log 15). -/
def State.writeE (s : State) (i : Idx) (v : Int) : State :=
  { s with
    e := s.e.set i (BitVec.ofInt 32 v)
    marks := { s.marks with e := s.marks.e.set i true } }

/-- META[i] <- (sign, category) (R54). -/
def State.writeMeta (s : State) (i : Idx) (sign : Bool) (cat : Category) : State :=
  { s with
    sgn := s.sgn.set i sign
    cat := s.cat.set i cat
    marks := { s.marks with metaReg := s.marks.metaReg.set i true } }

/-- F[i] <- f (R11). -/
def State.writeF (s : State) (i : Idx) (f : FloatReg) : State :=
  ((s.writeMeta i f.sign f.cat).writeE i f.exp).writeX i f.man

/-- LOSS <- lf (R11). -/
def State.writeLoss (s : State) (lf : LossFraction) : State := { s with loss := lf }

/-- STATUS.C <- v. -/
def State.writeC (s : State) (v : Bool) : State := { s with flags := { s.flags with c := v } }

/-- STATUS.CMP <- v. -/
def State.writeCmp (s : State) (v : CmpFlag) : State := { s with flags := { s.flags with cmp := v } }

/-- STATUS.OVF <- v. -/
def State.writeOvf (s : State) (v : Bool) : State := { s with flags := { s.flags with ovf := v } }

/-- STATUS.SWAP <- v. -/
def State.writeSwap (s : State) (v : Bool) : State := { s with flags := { s.flags with swap := v } }

/-! ### Errors: the block's one kind of exception (R450 to R462) -/

/-- The error code and ERRINFO after `raise Error(code, info)`: the first error since reset is kept (R452). -/
def ErrorState.raise (r : ErrorState) (code : ErrCode) (info : Word) : ErrorState :=
  if r.err then { r with err := true } else { err := true, code := some code, info := info }

/-- `raise Error(code, info)` by the host port: BUSY does not change (R452, R455). -/
def State.raiseByPort (s : State) (code : ErrCode) (info : Word) : State :=
  { s with error := s.error.raise code info }

/-- The command word in flight (R80), ERRINFO's value for an error a command raises (R78, log 14). -/
def State.commandWord (s : State) : Word := s.latch.getD 0

/-- STATUS.BUSY <- 0: the latch is emptied (R80, R150). -/
def State.retire (s : State) : State := { s with latch := none }

/-- `raise Error(code, w)` by the command in flight: nothing but ERR, ERRCODE, ERRINFO and BUSY changes (R452). -/
def State.raiseByCommand (s : State) (code : ErrCode) : State :=
  (s.raiseByPort code s.commandWord).retire

/-- The end of a command's execution (R114, R150, R452): either all its writes are committed and BUSY clears, or they are all
discarded and its error is raised in the state `s` it began in. There is no return from an error but a reset (R462). -/
def State.finish (s : State) (result : Except ErrCode State) : Host.Outcome State Fault Refusal :=
  match result with
  | .ok t => .next t.retire
  | .error code => .next (s.raiseByCommand code)

/-! ### Reset -/

/-- The reset of R500 and R501: the state of R85; a command in flight is abandoned. The synthesis parameters are the machine's;
the turns to come, the draws and the last read's answer are no state of R85 and stay (log 2, log 4, log 5). -/
def State.doReset (s : State) : State :=
  { State.resetWith s.params with rdata := s.rdata, turns := s.turns, draws := s.draws }

end Sys2Proof.Machine
end

