-- ==== Sys2Proof/Machine/Flags.lean ====
section
/-! DEFINITION. Every flag computation: carry, borrow, lost bits, the compares (R74, R201 to R208, R274), the loss-fraction
classifier and its combination (R250 to R254) and the rounding decision (R255). -/

namespace Sys2Proof.Machine

/-! ### Wide-integer flags -/

/-- Carry out of bit W-1 (R201). -/
def carryOut (w a b : Nat) : Bool := decide (2 ^ w ≤ a + b)

/-- Borrow (R202). -/
def borrow (a b : Nat) : Bool := decide (a < b)

/-- The difference modulo 2^W (R202). -/
def subWrap (w a b : Nat) : Nat := (((a : Int) - (b : Int)) % ((2 ^ w : Nat) : Int)).toNat

/-- The unbounded left shift of R204. The amount is cut at W: from there on no bit stays below bit W, and a set bit is lost
exactly when the value is not 0, so neither result of R204 changes (log 8). -/
def shiftedLeft (w v n : Nat) : Nat := v <<< (min n w)

/-- The W bits that stay after a left shift (R204). -/
def shlValue (w v n : Nat) : Nat := shiftedLeft w v n % 2 ^ w

/-- A nonzero bit was shifted out (R204). -/
def shlCarry (w v n : Nat) : Bool := shiftedLeft w v n >>> w != 0

/-- CMP for unsigned operands (R208). -/
def compareNat (a b : Nat) : CmpFlag := if a = b then .equal else if a < b then .less else .greater

/-- CMP for signed operands (R274). -/
def compareInt (a b : Int) : CmpFlag := if a = b then .equal else if a < b then .less else .greater

/-- msb(v) of R10, for v > 0. -/
def msb (v : Nat) : Nat := Nat.log2 v

/-- clz_W(v) of R10. -/
def clz (w v : Nat) : Nat := if v = 0 then w else w - 1 - msb v

/-! ### Loss fractions -/

/-- `classify(v, n)` exactly as R251 writes it. -/
def classifyExact (v n : Nat) : LossFraction :=
  if n = 0 then .exactlyZero
  else
    let r := v % 2 ^ n
    let h := 2 ^ (n - 1)
    if r = 0 then .exactlyZero
    else if r < h then .lessThanHalf
    else if r = h then .exactlyHalf
    else .moreThanHalf

/-- `classify(v, n)`: R251 with the clamp that R252 allows, two bits above the leading bit of v. `classify_eq_exact` (Laws)
proves it equal to R251 for every v and n; it never computes a power beyond the value's own size (log 8). -/
def classify (v n : Nat) : LossFraction := classifyExact v (min n (msb v + 2))

/-- `combine(more, less)` (R253). -/
def combine (more less : LossFraction) : LossFraction :=
  if less = .exactlyZero then more
  else
    match more with
    | .exactlyZero => .lessThanHalf
    | .lessThanHalf => .lessThanHalf
    | .exactlyHalf => .moreThanHalf
    | .moreThanHalf => .moreThanHalf

/-- `round_up(mode, s, lf, lsb)` (R255). -/
def roundUp (mode : RoundingMode) (sign : Bool) (lf : LossFraction) (lsb : Bool) : Bool :=
  if lf = .exactlyZero then false
  else
    match mode with
    | .nearestTiesToEven => decide (lf = .moreThanHalf) || (decide (lf = .exactlyHalf) && lsb)
    | .towardZero => false
    | .towardPositive => !sign
    | .towardNegative => sign

end Sys2Proof.Machine
end

