-- ==== Sys2Proof/Machine/Operands.lean ====
section
/-! DEFINITION. Every operand form: immediates (R154), register shift amounts (R204), the format CFG selects and its legality
(R8, R73), the rounding mode and the incoming loss of NORM (R300, R301), the canonical forms (R60, R61), and which register
words a command reads (R81, R155). -/

namespace Sys2Proof.Machine

/-! ### Immediates and shift amounts -/

/-- `zext_16(imm16)` (R154). -/
def zextImm (imm : BitVec 16) : Nat := imm.toNat

/-- `sext_16(imm16)` (R154). -/
def sextImm (imm : BitVec 16) : Int := imm.toInt

/-- The shift amount in E[rb] (R204, R205): a negative one is an error, not a shift the other way. -/
def State.shiftAmount (s : State) (rb : Idx) : Except ErrCode Nat :=
  if s.readE rb < 0 then .error .shiftNeg else .ok (s.readE rb).toNat

/-- The signed 32-bit range of an exponent register (R270). -/
abbrev ExpFits (t : Int) : Prop := -2 ^ 31 ≤ t ∧ t ≤ 2 ^ 31 - 1

/-- An exact exponent result, or EXP_OVF when no exponent register can hold it (R270). -/
def checkExp (t : Int) : Except ErrCode Int := if ExpFits t then .ok t else .error .expOvf

/-! ### The format in CFG (R8) -/

/-- MB as a number. -/
def Cfg.mbN (c : Cfg) : Nat := c.mb.toNat

/-- EB as a number. -/
def Cfg.ebN (c : Cfg) : Nat := c.eb.toNat

/-- P = MB + 1, the precision. -/
def Cfg.prec (c : Cfg) : Nat := c.mbN + 1

/-- bias = 2^(EB-1) - 1. -/
def Cfg.bias (c : Cfg) : Int := 2 ^ (c.ebN - 1) - 1

/-- e_max = bias. -/
def Cfg.eMax (c : Cfg) : Int := c.bias

/-- e_min = 1 - bias. -/
def Cfg.eMin (c : Cfg) : Int := 1 - c.bias

/-- CFG is legal for every command that reads it (R73): EB and MB in range. -/
abbrev Cfg.Legal (c : Cfg) (w : Nat) : Prop := 2 ≤ c.ebN ∧ c.ebN ≤ 31 ∧ 1 ≤ c.mbN ∧ c.mbN ≤ w - 1

/-- CFG is legal for UNPACK and PACK (R73): a raw pattern fits in an X register as well. -/
abbrev Cfg.LegalRaw (c : Cfg) (w : Nat) : Prop := c.Legal w ∧ 1 + c.ebN + c.mbN ≤ w

/-- The mode a code 0..3 names (R158). -/
def modeOfCode : Nat → Option RoundingMode
  | 0 => some .nearestTiesToEven
  | 1 => some .towardZero
  | 2 => some .towardPositive
  | 3 => some .towardNegative
  | _ => none

/-- NORM's rounding mode (R300): `none` when the field asks for CFG.RM and CFG.RM is above 3. -/
def Cfg.mode (c : Cfg) : RmSel → Option RoundingMode
  | .fixed m => some m
  | .dyn => modeOfCode c.rm.toNat

/-- NORM's incoming loss (R159, R301). -/
def State.incomingLoss (s : State) (useLoss : Bool) : LossFraction := if useLoss then s.loss else .exactlyZero

/-! ### Canonical floats -/

/-- A canonical Normal register under a format (R60). -/
abbrev Cfg.CanonicalNormal (c : Cfg) (e : Int) (m : Nat) : Prop :=
  c.eMin ≤ e ∧ e ≤ c.eMax ∧ 0 < m ∧ m < 2 ^ c.prec ∧ (c.eMin < e → 2 ^ c.mbN ≤ m)

/-- The canonical Zero of a sign (R61). -/
def Cfg.zeroFloat (c : Cfg) (sign : Bool) : FloatReg := { sign := sign, cat := .zero, exp := c.eMin, man := 0 }

/-- The canonical Infinity of a sign (R61). -/
def Cfg.infinityFloat (c : Cfg) (sign : Bool) : FloatReg :=
  { sign := sign, cat := .infinity, exp := c.eMax + 1, man := 0 }

/-- The canonical NaN of a sign (R61). -/
def Cfg.nanFloat (c : Cfg) (sign : Bool) : FloatReg :=
  { sign := sign, cat := .nan, exp := c.eMax + 1, man := 2 ^ (c.mbN - 1) }

/-- The category of Infinity or NaN (R302, R404). -/
def Category.special : Category → Bool
  | .zero => false
  | .normal => false
  | .infinity => true
  | .nan => true

/-- A canonical float of any category (R60, R61). -/
abbrev Cfg.Canonical (c : Cfg) (f : FloatReg) : Prop :=
  match f.cat with
  | .zero => f = c.zeroFloat f.sign
  | .normal => c.CanonicalNormal f.exp f.man
  | .infinity => f = c.infinityFloat f.sign
  | .nan => f = c.nanFloat f.sign

/-! ### Which registers a command reads (R81, R155) -/

/-- A register operand: all words of X[i], or E[i], or META[i]. -/
inductive Operand where
  | x (i : Idx)
  | e (i : Idx)
  | metaReg (i : Idx)
  deriving DecidableEq, Repr

/-- All four fields of F[i] (R11). -/
def floatOperand (i : Idx) : List Operand := [.metaReg i, .e i, .x i]

/-- What PACK reads of F[ra] (R356): never the E and X of an Infinity or NaN, nor the E of a Zero. -/
def packReads (c : Category) (ra : Idx) : List Operand :=
  match c with
  | .zero => [.metaReg ra, .x ra]
  | .normal => [.metaReg ra, .e ra, .x ra]
  | .infinity => [.metaReg ra]
  | .nan => [.metaReg ra]

/-- The registers a command reads in a state, in the order of its rule's pseudocode. A check that comes before a read ends the
command before it (CFG in NORM, UNPACK and PACK; SHIFT_NEG in WSHL and WSHR; log 9). -/
def commandReads (i : Instr) (s : State) : List Operand :=
  match i with
  | .wadd _ ra rb => [.x ra, .x rb]
  | .wsub _ ra rb => [.x ra, .x rb]
  | .wmul rd ra rb => if evenPair rd then [.x ra, .x rb] else []
  | .wshl _ ra rb => if s.readE rb < 0 then [.e rb] else [.e rb, .x ra]
  | .wshr _ ra rb => if s.readE rb < 0 then [.e rb] else [.e rb, .x ra]
  | .wshli _ ra _ => [.x ra]
  | .wshri _ ra _ => [.x ra]
  | .wcmp ra rb => [.x ra, .x rb]
  | .wclz _ ra => [.x ra]
  | .wldi _ _ => []
  | .wmov _ ra => [.x ra]
  | .eadd _ ra rb => [.e ra, .e rb]
  | .esub _ ra rb => [.e ra, .e rb]
  | .eaddi _ ra _ => [.e ra]
  | .ecmp ra rb => [.e ra, .e rb]
  | .eldi _ _ => []
  | .norm _ ra rm _ => if s.cfg.Legal s.params.w ∧ (s.cfg.mode rm).isSome then floatOperand ra else []
  | .align _ ra rb => floatOperand ra ++ floatOperand rb
  | .unpack _ ra => if s.cfg.LegalRaw s.params.w then [.x ra] else []
  | .pack _ ra => if s.cfg.LegalRaw s.params.w then packReads (s.cat.get ra) ra else []
  | .fmov _ ra => floatOperand ra

/-- The first word of an operand that nothing has written since reset, if there is one (R81). -/
def State.unwrittenIn (s : State) : Operand → Option RegWord
  | .x i => ((s.marks.x.get i).findIdx? (fun m => !m)).map (RegWord.x i)
  | .e i => if s.marks.e.get i then none else some (.e i)
  | .metaReg i => if s.marks.metaReg.get i then none else some (.metaReg i)

/-- The first unwritten word among the operands a command reads. -/
def State.firstUnwritten (s : State) (ops : List Operand) : Option RegWord := ops.findSome? s.unwrittenIn

end Sys2Proof.Machine
end

