-- ==== Sys2Proof/Machine/Align.lean ====
section
/-! DEFINITION. The mantissa aligner (45_align.md R400 to R404). -/

namespace Sys2Proof.Machine

/-- What ALIGN writes: F[rd], LOSS and STATUS.SWAP (R401). -/
structure AlignResult where
  val : FloatReg
  loss : LossFraction
  swap : Bool
  deriving DecidableEq, Repr

/-- The shift amount, capped at W + 1 (R401, R403). -/
def alignAmount (w : Nat) (big small : Int) : Nat := min (big - small).toNat (w + 1)

/-- The smaller-exponent operand brought to the exponent `big` (R401). -/
def alignTo (w : Nat) (big : Int) (f : FloatReg) (swap : Bool) : AlignResult :=
  let n := alignAmount w big f.exp
  { val := { f with exp := big, man := f.man >>> n }, loss := classify f.man n, swap := swap }

/-- R401: a signed compare of the exponents; on a tie F[rb] is the one aligned (R402). Special operands are refused (R404). -/
def alignFloats (w : Nat) (a b : FloatReg) : Except ErrCode AlignResult :=
  if a.cat.special || b.cat.special then .error .specialOperand
  else if b.exp ≤ a.exp then .ok (alignTo w a.exp b false)
  else .ok (alignTo w b.exp a true)

/-- Commit ALIGN's three outputs together (R114, R401). -/
def State.writeAlign (s : State) (rd : Idx) (r : AlignResult) : State :=
  ((s.writeF rd r.val).writeLoss r.loss).writeSwap r.swap

/-- ALIGN (R401). -/
def execAlign (rd ra rb : Idx) (s : State) : Host.Outcome State Fault Refusal :=
  s.finish ((alignFloats s.params.w (s.readF ra) (s.readF rb)).map (s.writeAlign rd))

end Sys2Proof.Machine
end

