-- ==== Sys2Proof/Machine/Conversion.lean ====
section
/-! DEFINITION. The raw pattern (R350), UNPACK (R351 to R354, R360) and PACK (R356 to R358, R361). -/

namespace Sys2Proof.Machine

/-! ### The fields of a raw pattern (R350) -/

/-- The sign, bit [EB+MB]. -/
def Cfg.rawSign (c : Cfg) (r : Nat) : Bool := r / 2 ^ (c.ebN + c.mbN) % 2 == 1

/-- The biased exponent field, bits [EB+MB-1 : MB]. -/
def Cfg.rawExp (c : Cfg) (r : Nat) : Nat := r / 2 ^ c.mbN % 2 ^ c.ebN

/-- The fraction, bits [MB-1 : 0]. -/
def Cfg.rawFrac (c : Cfg) (r : Nat) : Nat := r % 2 ^ c.mbN

/-- `{s, f, t}` (R356). -/
def Cfg.rawPattern (c : Cfg) (sign : Bool) (f t : Nat) : Nat :=
  sign.toNat * 2 ^ (c.ebN + c.mbN) + f * 2 ^ c.mbN + t

/-- The all-ones exponent field, of Infinity and NaN (R351). -/
def Cfg.allOnes (c : Cfg) : Nat := 2 ^ c.ebN - 1

/-- The pattern's format has no bit at or above bit 1 + EB + MB (R360). -/
def Cfg.rawFits (c : Cfg) (r : Nat) : Bool := r >>> (1 + c.ebN + c.mbN) == 0

/-! ### UNPACK -/

/-- `from_bits`: the special-case detector on an encoded value (R351, R352, R354, R359). -/
def unpackBits (c : Cfg) (r : Nat) : FloatReg :=
  let s := c.rawSign r
  let f := c.rawExp r
  let t := c.rawFrac r
  if f = c.allOnes then
    if t = 0 then c.infinityFloat s else c.nanFloat s
  else if f = 0 then
    if t = 0 then c.zeroFloat s else { sign := s, cat := .normal, exp := c.eMin, man := t }
  else { sign := s, cat := .normal, exp := (f : Int) - c.bias, man := 2 ^ c.mbN + t }

/-- UNPACK's checks in their order, then the decode (R353, R454). -/
def State.unpackValue (s : State) (ra : Idx) : Except ErrCode FloatReg :=
  if s.cfg.LegalRaw s.params.w then
    if s.cfg.rawFits (s.readX ra) then .ok (unpackBits s.cfg (s.readX ra)) else .error .rawWidth
  else .error .cfg

/-- UNPACK (R353). -/
def execUnpack (rd ra : Idx) (s : State) : Host.Outcome State Fault Refusal :=
  s.finish ((s.unpackValue ra).map (s.writeF rd))

/-! ### PACK -/

/-- A finite canonical Normal's fields: a subnormal has field 0, the rest drop the leading bit (R356, R357). -/
def packNormal (c : Cfg) (f : FloatReg) : Nat :=
  if f.exp = c.eMin ∧ f.man < 2 ^ c.mbN then c.rawPattern f.sign 0 f.man
  else c.rawPattern f.sign (f.exp + c.bias).toNat (f.man - 2 ^ c.mbN)

/-- `to_bits` (R356, R357, R358), with PACK_RANGE for what has no encoding (R361). -/
def packBits (c : Cfg) (f : FloatReg) : Except ErrCode Nat :=
  match f.cat with
  | .infinity => .ok (c.rawPattern f.sign c.allOnes 0)
  | .nan => .ok (c.rawPattern f.sign c.allOnes (2 ^ (c.mbN - 1)))
  | .zero => if f.man = 0 then .ok (c.rawPattern f.sign 0 0) else .error .packRange
  | .normal => if c.CanonicalNormal f.exp f.man then .ok (packNormal c f) else .error .packRange

/-- PACK's configuration check, then the encode (R356, R454). -/
def State.packValue (s : State) (ra : Idx) : Except ErrCode Nat :=
  if s.cfg.LegalRaw s.params.w then packBits s.cfg (s.readF ra) else .error .cfg

/-- PACK (R356). -/
def execPack (rd ra : Idx) (s : State) : Host.Outcome State Fault Refusal :=
  s.finish ((s.packValue ra).map (s.writeX rd))

end Sys2Proof.Machine
end

