-- ==== Sys2Proof/Machine/Exponent.lean ====
section
/-! DEFINITION. The exponent-adjuster commands (42_exponent.md R270 to R275). -/

namespace Sys2Proof.Machine

/-- E[rd] <- t, computed exactly, or EXP_OVF (R270). -/
def State.writeExact (s : State) (rd : Idx) (t : Int) : Except ErrCode State :=
  (checkExp t).map (s.writeE rd)

/-- EADD (R271). -/
def execEadd (rd ra rb : Idx) (s : State) : Host.Outcome State Fault Refusal :=
  s.finish (s.writeExact rd (s.readE ra + s.readE rb))

/-- ESUB (R272). -/
def execEsub (rd ra rb : Idx) (s : State) : Host.Outcome State Fault Refusal :=
  s.finish (s.writeExact rd (s.readE ra - s.readE rb))

/-- EADDI (R273). -/
def execEaddi (rd ra : Idx) (imm : BitVec 16) (s : State) : Host.Outcome State Fault Refusal :=
  s.finish (s.writeExact rd (s.readE ra + sextImm imm))

/-- ECMP (R274). -/
def execEcmp (ra rb : Idx) (s : State) : Host.Outcome State Fault Refusal :=
  s.finish (.ok (s.writeCmp (compareInt (s.readE ra) (s.readE rb))))

/-- ELDI (R275). -/
def execEldi (rd : Idx) (imm : BitVec 16) (s : State) : Host.Outcome State Fault Refusal :=
  s.finish (.ok (s.writeE rd (sextImm imm)))

end Sys2Proof.Machine
end

