-- ==== Sys2Proof/Machine/Normalize.lean ====
section
/-! DEFINITION. The normalizer and rounder, NORM, and the copy FMOV (43_normalize_round.md R300 to R320). -/

namespace Sys2Proof.Machine

/-- What NORM writes: F[rd], LOSS and STATUS.OVF (R312). -/
structure NormResult where
  val : FloatReg
  loss : LossFraction
  ovf : Bool
  deriving DecidableEq, Repr

/-- Step 2: the right shift that brings the leading bit to bit P-1; a negative one is a left shift (R307). -/
def alignShift (c : Cfg) (m : Nat) : Int := (msb m : Int) - ((c.prec : Int) - 1)

/-- Step 4: the shift that keeps the exponent at or above e_min (R309). -/
def finalShift (c : Cfg) (e : Int) (m : Nat) : Int :=
  if e + alignShift c m < c.eMin then c.eMin - e else alignShift c m

/-- Step 5 and the zero test after it (R310, R311): round the kept mantissa `mk` at exponent `ef` under the loss `lf`. -/
def roundKept (c : Cfg) (mode : RoundingMode) (sign : Bool) (ef : Int) (mk : Nat) (lf : LossFraction) : NormResult :=
  let up := roundUp mode sign lf (mk % 2 == 1)
  let sum := if up then mk + 1 else mk
  let carry := up && sum == 2 ^ c.prec
  let mkOut := if carry then 2 ^ c.mbN else sum
  let efOut := if carry then ef + 1 else ef
  if up && decide (c.eMax < efOut) then { val := c.infinityFloat sign, loss := lf, ovf := true }
  else if mkOut = 0 then { val := c.zeroFloat sign, loss := lf, ovf := false }
  else { val := { sign := sign, cat := .normal, exp := efOut, man := mkOut }, loss := lf, ovf := false }

/-- The mantissa kept after a right shift by `sh`, and the loss fraction the rounding step sees (R305). -/
def keptLoss (m sh : Nat) (lin : LossFraction) : LossFraction :=
  if sh = 0 then lin else combine (classify m sh) lin

/-- A raw finite value with a nonzero mantissa: steps 2 to 5 (R307 to R311). -/
def normalizeNonzero (c : Cfg) (mode : RoundingMode) (lin : LossFraction) (f : FloatReg) : Except ErrCode NormResult :=
  if c.eMax < f.exp + alignShift c f.man then
    .ok { val := c.infinityFloat f.sign, loss := .exactlyZero, ovf := true }
  else
    let sh := finalShift c f.exp f.man
    if sh < 0 then
      if lin = .exactlyZero then
        .ok { val := { sign := f.sign, cat := .normal, exp := f.exp + sh, man := f.man <<< (-sh).toNat },
              loss := .exactlyZero, ovf := false }
      else .error .lossLeft
    else .ok (roundKept c mode f.sign (f.exp + sh) (f.man >>> sh.toNat) (keptLoss f.man sh.toNat lin))

/-- The normalizer on a raw finite value (R302, R306). -/
def normalizeFinite (c : Cfg) (mode : RoundingMode) (lin : LossFraction) (f : FloatReg) : Except ErrCode NormResult :=
  if f.man = 0 then
    if lin = .exactlyZero then .ok { val := c.zeroFloat f.sign, loss := .exactlyZero, ovf := false }
    else .error .lossLeft
  else normalizeNonzero c mode lin f

/-- The normalizer (R305): Infinity and NaN pass through (R313). -/
def normalizeFloat (c : Cfg) (mode : RoundingMode) (lin : LossFraction) (f : FloatReg) : Except ErrCode NormResult :=
  if f.cat.special then .ok { val := f, loss := .exactlyZero, ovf := false } else normalizeFinite c mode lin f

/-- Commit NORM's three outputs together (R114, R312). -/
def State.writeNorm (s : State) (rd : Idx) (r : NormResult) : State :=
  ((s.writeF rd r.val).writeLoss r.loss).writeOvf r.ovf

/-- NORM's configuration check (R73, R303) and its mode (R300). -/
def State.normMode (s : State) (rm : RmSel) : Except ErrCode RoundingMode :=
  if s.cfg.Legal s.params.w then
    match s.cfg.mode rm with
    | some m => .ok m
    | none => .error .cfg
  else .error .cfg

/-- NORM (R305). -/
def execNorm (rd ra : Idx) (rm : RmSel) (useLoss : Bool) (s : State) : Host.Outcome State Fault Refusal :=
  s.finish ((s.normMode rm).bind fun mode =>
    (normalizeFloat s.cfg mode (s.incomingLoss useLoss) (s.readF ra)).map (s.writeNorm rd))

/-- FMOV (R320). -/
def execFmov (rd ra : Idx) (s : State) : Host.Outcome State Fault Refusal :=
  s.finish (.ok (s.writeF rd (s.readF ra)))

end Sys2Proof.Machine
end

