-- ==== Sys2Proof/Machine/WideInteger.lean ====
section
/-! DEFINITION. The wide-integer commands (40_wide_integer.md R200 to R211). -/

namespace Sys2Proof.Machine

/-- X[rd] <- X[ra] << n with the lost bits in STATUS.C (R204, R206). -/
def State.shiftLeftInto (s : State) (rd ra : Idx) (n : Nat) : State :=
  (s.writeX rd (shlValue s.params.w (s.readX ra) n)).writeC (shlCarry s.params.w (s.readX ra) n)

/-- X[rd] <- X[ra] >> n with the lost bits' class in LOSS (R205, R207). -/
def State.shiftRightInto (s : State) (rd ra : Idx) (n : Nat) : State :=
  (s.writeX rd (s.readX ra >>> n)).writeLoss (classify (s.readX ra) n)

/-- WADD (R201). -/
def execWadd (rd ra rb : Idx) (s : State) : Host.Outcome State Fault Refusal :=
  s.finish (.ok ((s.writeX rd ((s.readX ra + s.readX rb) % 2 ^ s.params.w)).writeC
    (carryOut s.params.w (s.readX ra) (s.readX rb))))

/-- WSUB (R202). -/
def execWsub (rd ra rb : Idx) (s : State) : Host.Outcome State Fault Refusal :=
  s.finish (.ok ((s.writeX rd (subWrap s.params.w (s.readX ra) (s.readX rb))).writeC
    (borrow (s.readX ra) (s.readX rb))))

/-- WMUL (R203): the exact product into the pair (x(rd+1), xd). An odd rd is ILLEGAL (R157 (c), log 10). -/
def execWmul (rd ra rb : Idx) (s : State) : Host.Outcome State Fault Refusal :=
  if evenPair rd then
    s.finish (.ok ((s.writeX rd (s.readX ra * s.readX rb % 2 ^ s.params.w)).writeX (rd + 1)
      ((s.readX ra * s.readX rb) >>> s.params.w)))
  else s.finish (.error .illegal)

/-- WSHL (R204). -/
def execWshl (rd ra rb : Idx) (s : State) : Host.Outcome State Fault Refusal :=
  s.finish ((s.shiftAmount rb).map (s.shiftLeftInto rd ra))

/-- WSHR (R205). -/
def execWshr (rd ra rb : Idx) (s : State) : Host.Outcome State Fault Refusal :=
  s.finish ((s.shiftAmount rb).map (s.shiftRightInto rd ra))

/-- WSHLI (R206). -/
def execWshli (rd ra : Idx) (imm : BitVec 16) (s : State) : Host.Outcome State Fault Refusal :=
  s.finish (.ok (s.shiftLeftInto rd ra (zextImm imm)))

/-- WSHRI (R207). -/
def execWshri (rd ra : Idx) (imm : BitVec 16) (s : State) : Host.Outcome State Fault Refusal :=
  s.finish (.ok (s.shiftRightInto rd ra (zextImm imm)))

/-- WCMP (R208). -/
def execWcmp (ra rb : Idx) (s : State) : Host.Outcome State Fault Refusal :=
  s.finish (.ok (s.writeCmp (compareNat (s.readX ra) (s.readX rb))))

/-- WCLZ (R209). -/
def execWclz (rd ra : Idx) (s : State) : Host.Outcome State Fault Refusal :=
  s.finish (.ok (s.writeE rd (clz s.params.w (s.readX ra))))

/-- WLDI (R210). -/
def execWldi (rd : Idx) (imm : BitVec 16) (s : State) : Host.Outcome State Fault Refusal :=
  s.finish (.ok (s.writeX rd (zextImm imm)))

/-- WMOV (R211). -/
def execWmov (rd ra : Idx) (s : State) : Host.Outcome State Fault Refusal :=
  s.finish (.ok (s.writeX rd (s.readX ra)))

end Sys2Proof.Machine
end

