-- ==== Sys2Proof/Machine/Dispatch.lean ====
section
/-! DEFINITION. The meaning of each command (R150: "execute cmd per its rule"), one arm a constructor. -/

namespace Sys2Proof.Machine

def exec (i : Instr) (s : State) : Host.Outcome State Fault Refusal :=
  match i with
  | .wadd rd ra rb => Sys2Proof.Machine.execWadd rd ra rb s
  | .wsub rd ra rb => Sys2Proof.Machine.execWsub rd ra rb s
  | .wmul rd ra rb => Sys2Proof.Machine.execWmul rd ra rb s
  | .wshl rd ra rb => Sys2Proof.Machine.execWshl rd ra rb s
  | .wshr rd ra rb => Sys2Proof.Machine.execWshr rd ra rb s
  | .wshli rd ra imm => Sys2Proof.Machine.execWshli rd ra imm s
  | .wshri rd ra imm => Sys2Proof.Machine.execWshri rd ra imm s
  | .wcmp ra rb => Sys2Proof.Machine.execWcmp ra rb s
  | .wclz rd ra => Sys2Proof.Machine.execWclz rd ra s
  | .wldi rd imm => Sys2Proof.Machine.execWldi rd imm s
  | .wmov rd ra => Sys2Proof.Machine.execWmov rd ra s
  | .eadd rd ra rb => Sys2Proof.Machine.execEadd rd ra rb s
  | .esub rd ra rb => Sys2Proof.Machine.execEsub rd ra rb s
  | .eaddi rd ra imm => Sys2Proof.Machine.execEaddi rd ra imm s
  | .ecmp ra rb => Sys2Proof.Machine.execEcmp ra rb s
  | .eldi rd imm => Sys2Proof.Machine.execEldi rd imm s
  | .norm rd ra rm useLoss => Sys2Proof.Machine.execNorm rd ra rm useLoss s
  | .align rd ra rb => Sys2Proof.Machine.execAlign rd ra rb s
  | .unpack rd ra => Sys2Proof.Machine.execUnpack rd ra s
  | .pack rd ra => Sys2Proof.Machine.execPack rd ra s
  | .fmov rd ra => Sys2Proof.Machine.execFmov rd ra s

end Sys2Proof.Machine
end

