-- ==== Sys2Proof/Machine/HostPort.lean ====
section
/-! DEFINITION. The host port: the register map (R102), reads (R103, R104, R110) and writes (R104, R108, R109). -/

namespace Sys2Proof.Machine

/-! ### Register words -/

/-- The code of a category (R55). -/
def Category.code : Category → BitVec 2
  | .zero => 0
  | .normal => 1
  | .infinity => 2
  | .nan => 3

/-- The category of a code (R55: no code is reserved). -/
def categoryOf (k : BitVec 2) : Category :=
  if k = 0 then .zero else if k = 1 then .normal else if k = 2 then .infinity else .nan

/-- The code of a loss fraction (R250). -/
def LossFraction.code : LossFraction → BitVec 2
  | .exactlyZero => 0
  | .lessThanHalf => 1
  | .exactlyHalf => 2
  | .moreThanHalf => 3

/-- The loss fraction of a code (R250). -/
def lossOf (k : BitVec 2) : LossFraction :=
  if k = 0 then .exactlyZero else if k = 1 then .lessThanHalf else if k = 2 then .exactlyHalf else .moreThanHalf

/-- The code of a comparison result (R74). -/
def CmpFlag.code : CmpFlag → BitVec 2
  | .equal => 0
  | .less => 1
  | .greater => 2

/-- The number of an error code (R451). -/
def ErrCode.code : ErrCode → BitVec 8
  | .illegal => 0x01
  | .cfg => 0x02
  | .lossLeft => 0x03
  | .expOvf => 0x04
  | .shiftNeg => 0x05
  | .rawWidth => 0x06
  | .packRange => 0x07
  | .specialOperand => 0x08
  | .busyWrite => 0x09

/-- STATUS.ERRCODE: 0 when there is no error (R74, R451). -/
def errCodeField : Option ErrCode → BitVec 8
  | none => 0
  | some k => k.code

/-- The PARAM word (R71): LIMB_W in [23:16], W in [15:0]. -/
def paramWord (p : Params) : Word :=
  (0 : BitVec 8) ++ BitVec.ofNat 8 p.limbW ++ BitVec.ofNat 16 p.w

/-- The CFG word (R72): MB in [31:16], RM in [10:8], EB in [4:0], reserved bits 0. -/
def Cfg.word (c : Cfg) : Word := c.mb ++ (0 : BitVec 5) ++ c.rm ++ (0 : BitVec 3) ++ c.eb

/-- What a write stores in CFG: the three fields as written (R72). -/
def cfgOf (d : Word) : Cfg :=
  { eb := d.extractLsb' 0 5, rm := d.extractLsb' 8 3, mb := d.extractLsb' 16 16 }

/-- The STATUS word (R74): ERRCODE in [15:8], SWAP 6, OVF 5, CMP [4:3], C 2, ERR 1, BUSY 0. -/
def State.statusWord (s : State) : Word :=
  (0 : BitVec 16) ++ errCodeField s.error.code ++ (0 : BitVec 1) ++ bit s.flags.swap ++ bit s.flags.ovf ++
    s.flags.cmp.code ++ bit s.flags.c ++ bit s.error.err ++ bit s.busy

/-- The META[i] word (R54): C in [2:1], S in [0]. -/
def State.metaWord (s : State) (i : Idx) : Word :=
  (0 : BitVec 29) ++ (s.cat.get i).code ++ bit (s.sgn.get i)

/-- Word j of a wide register's value: bits [32j+31 : 32j] (R103). -/
def wordOf (v j : Nat) : Word := BitVec.ofNat 32 (v >>> (32 * j))

/-- A wide register's value with word j replaced by `d` (R103). -/
def setWord (v j : Nat) (d : Word) : Nat :=
  (v >>> (32 * (j + 1))) <<< (32 * (j + 1)) + d.toNat <<< (32 * j) + v % 2 ^ (32 * j)

/-! ### The register map -/

/-- What an address names (R102). -/
inductive PortReg where
  | id
  | param
  | cfg
  | status
  | loss
  | cmd
  | ctrl
  | errinfo
  | e (i : Idx)
  | metaReg (i : Idx)
  | xWord (i : Idx) (j : Nat)
  | reserved
  deriving DecidableEq, Repr

/-- The low three bits of a number, as a register index. -/
def lowIdx (n : Nat) : Idx := ⟨n % 8, Nat.mod_lt _ (by decide)⟩

/-- The register map of R102 for wide registers of `words` host words, on an address as a number. -/
def portRegOf (words n : Nat) : PortReg :=
  if n = 0x0000 then .id
  else if n = 0x0001 then .param
  else if n = 0x0002 then .cfg
  else if n = 0x0003 then .status
  else if n = 0x0004 then .loss
  else if n = 0x0005 then .cmd
  else if n = 0x0006 then .ctrl
  else if n = 0x0007 then .errinfo
  else if 0x0010 ≤ n ∧ n < 0x0018 then .e (lowIdx (n - 0x0010))
  else if 0x0018 ≤ n ∧ n < 0x0020 then .metaReg (lowIdx (n - 0x0018))
  else if 0x1000 ≤ n ∧ n < 0x1800 ∧ n % 0x100 < words then .xWord (lowIdx ((n - 0x1000) / 0x100)) (n % 0x100)
  else .reserved

/-- The register map of R102. -/
def portReg (words : Nat) (a : Addr) : PortReg := portRegOf words a.toNat

/-- The register an address names in this machine. -/
def State.portRegAt (s : State) (a : Addr) : PortReg := portReg s.params.words a

/-! ### Reads -/

/-- A read while BUSY = 1 of these returns an unspecified value (R110). -/
def PortReg.freeWhileBusy : PortReg → Bool
  | .id => false
  | .param => false
  | .cfg => true
  | .status => false
  | .loss => true
  | .cmd => false
  | .ctrl => false
  | .errinfo => true
  | .e _ => true
  | .metaReg _ => true
  | .xWord _ _ => true
  | .reserved => false

/-- The word a register holds (R70 to R78, R102 to R104). -/
def State.portValue (s : State) : PortReg → Word
  | .id => Config.idWord
  | .param => paramWord s.params
  | .cfg => s.cfg.word
  | .status => s.statusWord
  | .loss => (0 : BitVec 30) ++ s.loss.code
  | .cmd => 0
  | .ctrl => 0
  | .errinfo => s.error.info
  | .e i => s.e.get i
  | .metaReg i => s.metaWord i
  | .xWord i j => wordOf (s.x.get i) j
  | .reserved => 0

/-- The answer of a read while busy: a fresh free value (R110, log 4). -/
def State.drawRead (s : State) : State := { s with rdata := Config.busyRead s.draws, draws := s.draws + 1 }

/-- `HostRead(addr)` (R100, R107, R110): the answer is in `rdata`; nothing of the block changes. -/
def hostRead (a : Addr) (s : State) : State :=
  if s.busy && (s.portRegAt a).freeWhileBusy then s.drawRead
  else { s with rdata := s.portValue (s.portRegAt a) }

/-! ### Writes -/

/-- A host write of word j of X[i] marks that word written (R81, R103). -/
def State.writeXWord (s : State) (i : Idx) (j : Nat) (d : Word) : State :=
  { s with
    x := s.x.set i (setWord (s.x.get i) j d)
    marks := { s.marks with x := s.marks.x.set i ((s.marks.x.get i).set j true) } }

/-- A host write of CMD when the unit is not busy: dropped while ERR = 1, else the command is accepted (R108, R453). -/
def State.submit (s : State) (d : Word) : State :=
  if s.error.err then s else { s with latch := some d }

/-- A host write while BUSY = 0 (R72, R75, R77, R102, R104, R108). -/
def State.portWrite (s : State) (d : Word) : PortReg → State
  | .id => s
  | .param => s
  | .cfg => { s with cfg := cfgOf d }
  | .status => s
  | .loss => s.writeLoss (lossOf (d.extractLsb' 0 2))
  | .cmd => s.submit d
  | .ctrl => s
  | .errinfo => s
  | .e i => s.writeE i d.toInt
  | .metaReg i => s.writeMeta i (d.getLsbD 0) (categoryOf (d.extractLsb' 1 2))
  | .xWord i j => s.writeXWord i j d
  | .reserved => s

/-- A write to CTRL, accepted in every state: bit 0 = 1 resets, bit 0 = 0 has no effect (R77, R501). -/
def State.ctrlWrite (s : State) (d : Word) : State := if d.getLsbD 0 then s.doReset else s

/-- A write to anything else while BUSY = 1: dropped; BUSY_WRITE unless ERR is already 1 (R109, log 7). -/
def State.busyWrite (s : State) (a : Addr) : State :=
  if s.error.err then s else s.raiseByPort .busyWrite (a.setWidth 32)

/-- `HostWrite(addr, data)` (R100, R108, R109). -/
def hostWrite (a : Addr) (d : Word) (s : State) : State :=
  if s.portRegAt a = .ctrl then s.ctrlWrite d
  else if s.busy then s.busyWrite a
  else s.portWrite d (s.portRegAt a)

end Sys2Proof.Machine
end

