-- ==== Sys2Proof/Machine/UnitStep.lean ====
section
/-! DEFINITION. One turn of one agent: the unit's step (R150) and the host's accesses and reset (R100, R500). -/

namespace Sys2Proof.Machine

/-- `step_unit` (R150): enabled while BUSY = 1; decode, execute, commit, clear BUSY. An undecodable word raises ILLEGAL (R157).
With BUSY = 0 the unit is idle and changes nothing (R476). -/
def unitStep (s : State) : Host.Outcome State Fault Refusal :=
  match s.latch with
  | none => .next s
  | some w =>
    match decode w with
    | .ok i => exec i s
    | .error _ => .next (s.raiseByCommand .illegal)

/-- One turn of the agent it names. -/
def takeTurn (t : Turn) (s : State) : Host.Outcome State Fault Refusal :=
  match t with
  | .hostRead a => .next (hostRead a s)
  | .hostWrite a d => .next (hostWrite a d s)
  | .hardReset => .next s.doReset
  | .unitTurn => unitStep s

/-- The state with its next turn taken off the list. -/
def State.withTurns (s : State) (ts : List Turn) : State := { s with turns := ts }

/-- The next turn: the first of the list, or the unit's when the host has no more to do (R511, log 2). -/
def nextTurn (s : State) : Host.Outcome State Fault Refusal :=
  match s.turns with
  | [] => unitStep s
  | t :: rest => takeTurn t (s.withTurns rest)

/-- `s` with the command word `w` in the latch and the unit to move next (log 2). -/
def State.withCommand (s : State) (w : Word) : State :=
  { s with latch := some w, turns := .unitTurn :: s.turns }

end Sys2Proof.Machine
end

