-- ==== Sys2Proof/Machine/Step.lean ====
section
/-! DEFINITION. One step of the machine, and where a step finds its command. -/

namespace Sys2Proof.Machine

/-- One step: the next turn of the host, of the reset line or of the unit (R50, R100, R150, R500, R511). -/
def step (s : State) : Host.Outcome State Fault Refusal := nextTurn s

/-- `s` with the command word `w` submitted, so that the very next step runs it: the unit has no program counter, a command runs
from the latch that a CMD write fills (R80, R82, R108). A command word is 32 bits (R151). -/
def State.withFetchWord (s : State) (nbits w : Nat) : State :=
  s.withCommand (BitVec.ofNat 32 (w % 2 ^ nbits))

end Sys2Proof.Machine
end

