-- ==== Sys2Proof/Safety.lean ====
section
/-! DEFINITION. The terms claims use: what a state always satisfies, what a command leaves alone, and what a safe run is: one
that reads no word that nothing has written since reset (R81, R456). -/

namespace Sys2Proof.Machine

/-! ### The invariant -/

/-- What every step keeps: the parameters are legal (R7), X registers are W-bit values (R10, R52), one mark a host word (R81),
ERRCODE is 0 and ERRINFO is 0 exactly while there is no error (R74, R78, R451), and BUSY_WRITE records an address (R78). -/
structure State.Inv (s : State) : Prop where
  params_legal : s.params.Legal
  x_bound : ∀ i, s.readX i < 2 ^ s.params.w
  marks_length : ∀ i, (s.marks.x.get i).length = s.params.words
  code_iff_err : s.error.code.isSome = s.error.err
  info_zero : s.error.err = false → s.error.info = 0
  busyWrite_info : s.error.code = some .busyWrite → s.error.info.toNat < 2 ^ 16

/-! ### Frames -/

/-- Every word of X[i] is marked written (R81). -/
def State.WrittenX (s : State) (i : Idx) : Prop := s.marks.x.get i = List.replicate s.params.words true

/-- What a completed command leaves unchanged: every X, E and META register outside `xs`, `es` and `ms`, with its marks; the
parameters, CFG, ERR, ERRCODE, ERRINFO, the port's last answer, the turns and the draws. The registers in the lists are marked
written (R81), and BUSY is 0 (R150). The flags and LOSS are not spoken of: each statement says them. -/
structure Frame (s t : State) (xs es ms : List Idx) : Prop where
  x : ∀ i, i ∉ xs → t.readX i = s.readX i ∧ t.marks.x.get i = s.marks.x.get i
  e : ∀ i, i ∉ es → t.readE i = s.readE i ∧ t.marks.e.get i = s.marks.e.get i
  metaReg : ∀ i, i ∉ ms →
    t.sgn.get i = s.sgn.get i ∧ t.cat.get i = s.cat.get i ∧ t.marks.metaReg.get i = s.marks.metaReg.get i
  x_written : ∀ i, i ∈ xs → t.WrittenX i
  e_written : ∀ i, i ∈ es → t.marks.e.get i = true
  metaReg_written : ∀ i, i ∈ ms → t.marks.metaReg.get i = true
  params : t.params = s.params
  cfg : t.cfg = s.cfg
  error : t.error = s.error
  rdata : t.rdata = s.rdata
  turns : t.turns = s.turns
  draws : t.draws = s.draws
  idle : t.latch = none

/-- The frame of a float destination: F[rd] alone is written (R11). -/
abbrev FloatFrame (s t : State) (rd : Idx) : Prop := Frame s t [rd] [rd] [rd]

/-- STATUS.C alone among the flags may have changed, and LOSS has not (R79). -/
structure OnlyC (s t : State) : Prop where
  cmp : t.flags.cmp = s.flags.cmp
  ovf : t.flags.ovf = s.flags.ovf
  swap : t.flags.swap = s.flags.swap
  loss : t.loss = s.loss

/-- STATUS.CMP alone among the flags may have changed, and LOSS has not (R79). -/
structure OnlyCmp (s t : State) : Prop where
  c : t.flags.c = s.flags.c
  ovf : t.flags.ovf = s.flags.ovf
  swap : t.flags.swap = s.flags.swap
  loss : t.loss = s.loss

/-- No flag has changed, nor has LOSS (R79, "every other command"). -/
abbrev NoFlag (s t : State) : Prop := t.flags = s.flags ∧ t.loss = s.loss

/-- NORM's flags: C, CMP and SWAP have not changed (R79). -/
structure NormFlags (s t : State) (loss : LossFraction) (ovf : Bool) : Prop where
  loss : t.loss = loss
  ovf : t.flags.ovf = ovf
  c : t.flags.c = s.flags.c
  cmp : t.flags.cmp = s.flags.cmp
  swap : t.flags.swap = s.flags.swap

/-! ### Errors -/

/-- The state after a command in flight, with command word `w`, raised the error `k`: nothing but ERR, ERRCODE, ERRINFO and BUSY
has changed, and the first error since reset is kept (R452). -/
def State.afterError (s : State) (k : ErrCode) (w : Word) : State :=
  { s with
    error := if s.error.err then s.error else { err := true, code := some k, info := w }
    latch := none }

/-- The command `i`, in flight as the word `w`, raises the error `k` (R452). -/
def RaisesError (i : Instr) (s : State) (k : ErrCode) : Prop :=
  ∀ w, s.latch = some w → exec i s = .next (s.afterError k w)

/-! ### Which flags a command may write (R79) -/

/-- A row of the table of R79: which of C, CMP, OVF, SWAP and LOSS a command writes. -/
structure FlagRow where
  c : Bool := false
  cmp : Bool := false
  ovf : Bool := false
  swap : Bool := false
  loss : Bool := false
  deriving DecidableEq, Repr

/-- The table of R79. -/
def flagRow : Instr → FlagRow
  | .wadd _ _ _ => { c := true }
  | .wsub _ _ _ => { c := true }
  | .wmul _ _ _ => {}
  | .wshl _ _ _ => { c := true }
  | .wshr _ _ _ => { loss := true }
  | .wshli _ _ _ => { c := true }
  | .wshri _ _ _ => { loss := true }
  | .wcmp _ _ => { cmp := true }
  | .wclz _ _ => {}
  | .wldi _ _ => {}
  | .wmov _ _ => {}
  | .eadd _ _ _ => {}
  | .esub _ _ _ => {}
  | .eaddi _ _ _ => {}
  | .ecmp _ _ => { cmp := true }
  | .eldi _ _ => {}
  | .norm _ _ _ _ => { ovf := true, loss := true }
  | .align _ _ _ => { swap := true, loss := true }
  | .unpack _ _ => {}
  | .pack _ _ => {}
  | .fmov _ _ => {}

/-- CFG is read (R73: "Only NORM, UNPACK and PACK read CFG"). -/
def readsCfg : Instr → Bool
  | .norm _ _ _ _ => true
  | .unpack _ _ => true
  | .pack _ _ => true
  | .wadd _ _ _ => false
  | .wsub _ _ _ => false
  | .wmul _ _ _ => false
  | .wshl _ _ _ => false
  | .wshr _ _ _ => false
  | .wshli _ _ _ => false
  | .wshri _ _ _ => false
  | .wcmp _ _ => false
  | .wclz _ _ => false
  | .wldi _ _ => false
  | .wmov _ _ => false
  | .eadd _ _ _ => false
  | .esub _ _ _ => false
  | .eaddi _ _ _ => false
  | .ecmp _ _ => false
  | .eldi _ _ => false
  | .align _ _ _ => false
  | .fmov _ _ => false

/-! ### The numbers a host sees, written from the spec's tables and not from the port's own codes -/

/-- STATUS.CMP (R74): 0 = equal, 1 = less, 2 = greater. -/
def cmpNumber : CmpFlag → Nat
  | .equal => 0
  | .less => 1
  | .greater => 2

/-- STATUS.ERRCODE: the table of R451, and 0 for no error (R74). -/
def errorNumber : Option ErrCode → Nat
  | none => 0
  | some .illegal => 1
  | some .cfg => 2
  | some .lossLeft => 3
  | some .expOvf => 4
  | some .shiftNeg => 5
  | some .rawWidth => 6
  | some .packRange => 7
  | some .specialOperand => 8
  | some .busyWrite => 9

/-- LOSS: the table of R250. -/
def lossNumber : LossFraction → Nat
  | .exactlyZero => 0
  | .lessThanHalf => 1
  | .exactlyHalf => 2
  | .moreThanHalf => 3

/-- The category field of META: the table of R55. -/
def categoryNumber : Category → Nat
  | .zero => 0
  | .normal => 1
  | .infinity => 2
  | .nan => 3

/-! ### Values (R12, R60, R250, R315) -/

/-- The magnitude of a mantissa m at exponent e: m * 2^(e - MB) (R12). -/
def Cfg.magnitude (c : Cfg) (e : Int) (m : Nat) : ℚ := (m : ℚ) * (2 : ℚ) ^ (e - (c.mbN : Int))

/-- The magnitude of a raw finite input whose bits below bit 0 are the fraction φ: (m + φ) * 2^(e - MB) (R302). -/
def Cfg.rawMagnitude (c : Cfg) (f : FloatReg) (φ : ℚ) : ℚ := ((f.man : ℚ) + φ) * (2 : ℚ) ^ (f.exp - (c.mbN : Int))

/-- φ is a fraction that the loss fraction classifies (R250, with one unit u = 1). -/
def LossFraction.Classifies (lf : LossFraction) (φ : ℚ) : Prop :=
  match lf with
  | .exactlyZero => φ = 0
  | .lessThanHalf => 0 < φ ∧ φ < 1 / 2
  | .exactlyHalf => φ = 1 / 2
  | .moreThanHalf => 1 / 2 < φ ∧ φ < 1

/-- (e, m) is the exponent and mantissa of a canonical Zero or Normal (R60, R61). -/
abbrev Cfg.CanonicalFinite (c : Cfg) (e : Int) (m : Nat) : Prop := (e = c.eMin ∧ m = 0) ∨ c.CanonicalNormal e m

/-- The canonical magnitude (e, m) is the largest that is not above v. -/
def Cfg.RoundedDown (c : Cfg) (v : ℚ) (e : Int) (m : Nat) : Prop :=
  c.magnitude e m ≤ v ∧ ∀ e' m', c.CanonicalFinite e' m' → c.magnitude e' m' ≤ v → c.magnitude e' m' ≤ c.magnitude e m

/-- The canonical magnitude (e, m) is the smallest that is not below v. -/
def Cfg.RoundedUp (c : Cfg) (v : ℚ) (e : Int) (m : Nat) : Prop :=
  v ≤ c.magnitude e m ∧ ∀ e' m', c.CanonicalFinite e' m' → v ≤ c.magnitude e' m' → c.magnitude e m ≤ c.magnitude e' m'

/-- No canonical magnitude is nearer to v than (e, m), and if another is as near, m is even. -/
def Cfg.RoundedNearest (c : Cfg) (v : ℚ) (e : Int) (m : Nat) : Prop :=
  ∀ e' m', c.CanonicalFinite e' m' →
    |c.magnitude e m - v| ≤ |c.magnitude e' m' - v| ∧
    (|c.magnitude e m - v| = |c.magnitude e' m' - v| → c.magnitude e' m' ≠ c.magnitude e m → m % 2 = 0)

/-- R315 on magnitudes: the sign decides which way a directed mode goes. -/
def Cfg.RoundedBy (c : Cfg) (mode : RoundingMode) (sign : Bool) (v : ℚ) (e : Int) (m : Nat) : Prop :=
  match mode with
  | .nearestTiesToEven => c.RoundedNearest v e m
  | .towardZero => c.RoundedDown v e m
  | .towardPositive => if sign then c.RoundedDown v e m else c.RoundedUp v e m
  | .towardNegative => if sign then c.RoundedUp v e m else c.RoundedDown v e m

/-- The exponent of a raw value once its leading bit is at bit MB (R307). -/
def Cfg.alignedExp (c : Cfg) (f : FloatReg) : Int := f.exp + (msb f.man : Int) - (c.mbN : Int)

/-- A finite input on which NORM raises no LOSS_LEFT (R318): there is no incoming loss, or no left shift is needed because
the aligned exponent overflows, or the leading bit is at or above bit MB, or the exponent is at or below e_min. -/
def Cfg.LossUsable (c : Cfg) (lin : LossFraction) (f : FloatReg) : Prop :=
  lin = .exactlyZero ∨ (f.man ≠ 0 ∧ (c.eMax < c.alignedExp f ∨ 2 ^ c.mbN ≤ f.man ∨ f.exp ≤ c.eMin))

/-! ### Reading only what was written -/

/-- The word a host read asks for, if its register is one that reset leaves unspecified and it is not marked written (R81). -/
def State.unwrittenAt (s : State) : PortReg → Option RegWord
  | .xWord i j => if (s.marks.x.get i)[j]? = some true then none else some (.x i j)
  | .e i => if s.marks.e.get i then none else some (.e i)
  | .metaReg i => if s.marks.metaReg.get i then none else some (.metaReg i)
  | .id => none
  | .param => none
  | .cfg => none
  | .status => none
  | .loss => none
  | .cmd => none
  | .ctrl => none
  | .errinfo => none
  | .reserved => none

/-- The first unwritten word the unit's turn reads. -/
def State.unitUnwritten (s : State) : Option RegWord :=
  match s.latch with
  | none => none
  | some w =>
    match decode w with
    | .ok i => s.firstUnwritten (commandReads i s)
    | .error _ => none

/-- The first unwritten word a turn reads; a read while busy returns a free value and reads no register (R110). -/
def State.turnUnwritten (s : State) : Turn → Option RegWord
  | .hostRead a => if s.busy then none else s.unwrittenAt (s.portRegAt a)
  | .hostWrite _ _ => none
  | .hardReset => none
  | .unitTurn => s.unitUnwritten

/-- The first unwritten word the next step reads. -/
def State.nextUnwritten (s : State) : Option RegWord :=
  match s.turns with
  | [] => s.unitUnwritten
  | t :: _ => s.turnUnwritten t

/-- The step with the model fault of R81: a host read of an unwritten word, or a command that reads an unwritten operand word,
stops. `step` differs from it only there (log 1). -/
def strictStep (s : State) : Host.Outcome State Fault Refusal :=
  match s.nextUnwritten with
  | some w => .fault (.unwrittenWord w)
  | none => step s

/-- Two states that differ at most in the values of words marked unwritten. -/
structure AgreeOnWritten (s t : State) : Prop where
  params : s.params = t.params
  cfg : s.cfg = t.cfg
  loss : s.loss = t.loss
  flags : s.flags = t.flags
  error : s.error = t.error
  latch : s.latch = t.latch
  rdata : s.rdata = t.rdata
  marks : s.marks = t.marks
  turns : s.turns = t.turns
  draws : s.draws = t.draws
  x : ∀ i j, (s.marks.x.get i)[j]? = some true → wordOf (s.readX i) j = wordOf (t.readX i) j
  e : ∀ i, s.marks.e.get i = true → s.e.get i = t.e.get i
  metaReg : ∀ i, s.marks.metaReg.get i = true → s.sgn.get i = t.sgn.get i ∧ s.cat.get i = t.cat.get i

/-- Two outcomes that a strict run cannot tell apart: next states that agree on written words, or the same stop. -/
def SameOutcome (a b : Host.Outcome State Fault Refusal) : Prop :=
  match a, b with
  | .next s, .next t => AgreeOnWritten s t
  | .fault p, .fault q => p = q
  | .refused p, .refused q => p = q
  | _, _ => False

end Sys2Proof.Machine
end

