-- ==== Sys2Proof/Certificates/Slice0/Obligations.lean ====
section
/-! DEFINITION. The statements for the provers. Each docstring names the rules it formalises. -/

open Sys2Proof Sys2Proof.Machine

/-! ### Encoding (30_encoding.md) -/

/-- R162: the worked encodings decode to the commands they are worked from. -/
def Obligations.WorkedEncodingsDecode : Prop :=
  decode 0x00000120 = .ok (.norm 1 0 (.fixed .nearestTiesToEven) false) ∧
  decode 0x001E1B20 = .ok (.norm 3 3 .dyn true) ∧
  decode 0x0000D101 = .ok (.wadd 1 2 3) ∧
  decode 0xFFF0000A = .ok (.wldi 0 65520) ∧
  decode 0x000A0014 = .ok (.eldi 0 10) ∧
  decode 0xFFE91212 = .ok (.eaddi 2 2 (-23))

/-- Decoding the word of a well-formed command gives the command back, with every operand (R152 to R159). -/
def Obligations.DecodeEncodeRoundTrip : Prop :=
  ∀ i : Instr, i.wellFormed = true → decode (encode i) = .ok i

/-- R157: "every 32-bit word is either exactly one command of rule R156 or ILLEGAL": a word that decodes is the encoding of the
command it decodes to, and of no other. -/
def Obligations.EveryWordHasOneMeaning : Prop :=
  ∀ (w : Word) (i : Instr), decode w = .ok i →
    i.wellFormed = true ∧ encode i = w ∧ ∀ j : Instr, j.wellFormed = true → encode j = w → j = i

/-- R156, R157, R158: a word decodes exactly when it matches a row of the table, and is not a NORM with rm 4, 5 or 6; the
command
has the row's opcode. -/
def Obligations.DecoderFollowsOpcodeTable : Prop :=
  (∀ (w : Word) (i : Instr), decode w = .ok i → ∃ r ∈ opcodeTable, r.hit w = true ∧ r.op = i.opcode) ∧
  (∀ w : Word, (∃ i, decode w = .ok i) ↔
    ∃ r ∈ opcodeTable, r.hit w = true ∧
      (r.op = 0x20 → field w 17 3 ≠ 4 ∧ field w 17 3 ≠ 5 ∧ field w 17 3 ≠ 6))

/-- R157: the reason for which a word is rejected is the case of R157 it names. A WMUL is rejected for a reserved field only if one
of its reserved bits [31:17] is nonzero, since the mask of its row covers the parity bit of rd too. -/
def Obligations.RejectionsAreTheFourCases : Prop :=
  (∀ w : Word, decode w = .error .reservedOpcode ↔ ∀ r ∈ opcodeTable, r.op ≠ field w 0 8) ∧
  (∀ w : Word, decode w = .error .oddPair → field w 0 8 = 0x03 ∧ field w 8 1 = 1) ∧
  (∀ w : Word, decode w = .error .reservedRounding →
    field w 0 8 = 0x20 ∧ (field w 17 3 = 4 ∨ field w 17 3 = 5 ∨ field w 17 3 = 6)) ∧
  (∀ w : Word, decode w = .error .reservedField →
    ∃ r ∈ opcodeTable, r.op = field w 0 8 ∧ r.hit w = false ∧ (r.op = 0x03 → field w 17 15 ≠ 0))

/-! ### The unit's step (R80, R150, R157, R452, R476, R511) -/

/-- R150: on the unit's turn, with BUSY = 1 and a latched word that decodes to `i`, the step is `exec i` of the state (its turn
taken off the list); so it is when the host has no turn left. The turn list is the model's (log 2). -/
def Obligations.StepRunsDecodedCommand : Prop :=
  ∀ (s : State) (w : Word) (i : Instr), s.latch = some w → decode w = .ok i →
    (∀ ts, s.turns = .unitTurn :: ts → step s = exec i { s with turns := ts }) ∧
    (s.turns = [] → step s = exec i s)

/-- R157, R476: on the unit's turn an illegal word "has no effect other than the error", ILLEGAL with the word in ERRINFO; and
when BUSY = 0 the unit changes no state. The turn list is the model's (log 2). -/
def Obligations.IllegalWordsAndIdleTurns : Prop :=
  (∀ (s : State) (w : Word) (r : DecodeError), s.latch = some w → decode w = .error r →
    (∀ ts, s.turns = .unitTurn :: ts → step s = .next ({ s with turns := ts }.afterError .illegal w)) ∧
    (s.turns = [] → step s = .next (s.afterError .illegal w))) ∧
  (∀ s : State, s.latch = none →
    (s.turns = [] → step s = .next s) ∧
    (∀ ts, s.turns = .unitTurn :: ts → step s = .next { s with turns := ts }))

/-- R150: every command completes in one unit step, which clears BUSY, from every state; a host's turns, CFG, the parameters and
the port's last answer are not the command's to change. The turn list is the model's (log 2). -/
def Obligations.EveryCommandCompletesInOneStep : Prop :=
  ∀ (i : Instr) (s : State), ∃ t, exec i s = .next t ∧ t.busy = false ∧
    t.turns = s.turns ∧ t.cfg = s.cfg ∧ t.params = s.params ∧ t.rdata = s.rdata ∧ t.draws = s.draws

/-- R452: errors are precise. A command ends either with the error state untouched, or in the state it began in but for ERR,
ERRCODE, ERRINFO and BUSY. -/
def Obligations.CommandErrorsArePrecise : Prop :=
  ∀ (i : Instr) (s t : State) (w : Word), s.latch = some w → exec i s = .next t →
    t.error = s.error ∨ ∃ k, t = s.afterError k w

/-- R511, R150: whatever turns the host still takes, a busy unit is idle again after at most one step more than there are turns.
That the unit moves when the host has no turn left is the model's form of R511's fairness (log 2). -/
def Obligations.BusyEndsWithinTheTurns : Prop :=
  ∀ s : State, s.busy = true →
    ∃ k, k ≤ s.turns.length + 1 ∧ ∃ t, Host.Core.run core k s = .next t ∧ State.busy t = false

/-! ### Wide-integer commands (40_wide_integer.md) -/

/-- R201: the sum modulo 2^W, the carry in C, and the encoding. -/
def Obligations.WaddSumCarryFrame : Prop :=
  ∀ (rd ra rb : Idx) (s : State), encode (.wadd rd ra rb) = encodeR 0x01 rd ra rb ∧
    ∃ t, exec (.wadd rd ra rb) s = .next t ∧
    t.readX rd = (s.readX ra + s.readX rb) % 2 ^ s.params.w ∧
    (t.flags.c = true ↔ 2 ^ s.params.w ≤ s.readX ra + s.readX rb) ∧
    Frame s t [rd] [] [] ∧ OnlyC s t

/-- R202: the difference modulo 2^W, the borrow in C, and the encoding. -/
def Obligations.WsubDifferenceBorrowFrame : Prop :=
  ∀ (rd ra rb : Idx) (s : State), encode (.wsub rd ra rb) = encodeR 0x02 rd ra rb ∧
    ∃ t, exec (.wsub rd ra rb) s = .next t ∧
    (t.readX rd : Int) = ((s.readX ra : Int) - (s.readX rb : Int)) % (2 ^ s.params.w : Int) ∧
    (t.flags.c = true ↔ s.readX ra < s.readX rb) ∧
    Frame s t [rd] [] [] ∧ OnlyC s t

/-- R203: the exact double-width product in the pair. The odd-rd clause speaks of a term that no word decodes to (R157 (c)): that
its execution raises ILLEGAL is the model's (log 10). -/
def Obligations.WmulProductPairFrame : Prop :=
  ∀ (rd ra rb : Idx) (s : State), encode (.wmul rd ra rb) = encodeR 0x03 rd ra rb ∧
    (rd.val % 2 = 0 → ∃ t, exec (.wmul rd ra rb) s = .next t ∧
      t.readX rd < 2 ^ s.params.w ∧
      t.readX rd + 2 ^ s.params.w * t.readX (rd + 1) = s.readX ra * s.readX rb ∧
      Frame s t [rd, rd + 1] [] [] ∧ NoFlag s t) ∧
    (rd.val % 2 = 1 → RaisesError (.wmul rd ra rb) s .illegal)

/-- R204: the left shift by a register amount, with no cut of the amount; a negative one raises SHIFT_NEG. -/
def Obligations.WshlShiftCarryFrame : Prop :=
  ∀ (rd ra rb : Idx) (s : State), encode (.wshl rd ra rb) = encodeR 0x04 rd ra rb ∧
    (∀ n : Nat, s.readE rb = (n : Int) → ∃ t, exec (.wshl rd ra rb) s = .next t ∧
      t.readX rd = s.readX ra <<< n % 2 ^ s.params.w ∧
      (t.flags.c = true ↔ (s.readX ra <<< n) >>> s.params.w ≠ 0) ∧
      Frame s t [rd] [] [] ∧ OnlyC s t) ∧
    (s.readE rb < 0 → RaisesError (.wshl rd ra rb) s .shiftNeg)

/-- R205: the right shift by a register amount with its loss fraction; C is not written; a negative amount raises SHIFT_NEG. -/
def Obligations.WshrShiftLossFrame : Prop :=
  ∀ (rd ra rb : Idx) (s : State), encode (.wshr rd ra rb) = encodeR 0x05 rd ra rb ∧
    (∀ n : Nat, s.readE rb = (n : Int) → ∃ t, exec (.wshr rd ra rb) s = .next t ∧
      t.readX rd = s.readX ra >>> n ∧ t.loss = classifyExact (s.readX ra) n ∧
      Frame s t [rd] [] [] ∧ t.flags = s.flags) ∧
    (s.readE rb < 0 → RaisesError (.wshr rd ra rb) s .shiftNeg)

/-- R206, R207: the shifts by an immediate amount 0..65535. -/
def Obligations.ImmediateShiftsFrame : Prop :=
  ∀ (rd ra : Idx) (imm : BitVec 16) (s : State),
    encode (.wshli rd ra imm) = encodeI 0x06 rd ra imm ∧ encode (.wshri rd ra imm) = encodeI 0x07 rd ra imm ∧
    (∃ t, exec (.wshli rd ra imm) s = .next t ∧
      t.readX rd = s.readX ra <<< imm.toNat % 2 ^ s.params.w ∧
      (t.flags.c = true ↔ (s.readX ra <<< imm.toNat) >>> s.params.w ≠ 0) ∧
      Frame s t [rd] [] [] ∧ OnlyC s t) ∧
    (∃ t, exec (.wshri rd ra imm) s = .next t ∧
      t.readX rd = s.readX ra >>> imm.toNat ∧ t.loss = classifyExact (s.readX ra) imm.toNat ∧
      Frame s t [rd] [] [] ∧ t.flags = s.flags)

/-- R208, R274: the unsigned and the signed compare write CMP and no register. -/
def Obligations.ComparesWriteOnlyCmp : Prop :=
  ∀ (ra rb : Idx) (s : State),
    encode (.wcmp ra rb) = encodeR 0x08 0 ra rb ∧ encode (.ecmp ra rb) = encodeR 0x13 0 ra rb ∧
    (∃ t, exec (.wcmp ra rb) s = .next t ∧
      (t.flags.cmp = .equal ↔ s.readX ra = s.readX rb) ∧
      (t.flags.cmp = .less ↔ s.readX ra < s.readX rb) ∧
      (t.flags.cmp = .greater ↔ s.readX rb < s.readX ra) ∧
      Frame s t [] [] [] ∧ OnlyCmp s t) ∧
    (∃ t, exec (.ecmp ra rb) s = .next t ∧
      (t.flags.cmp = .equal ↔ s.readE ra = s.readE rb) ∧
      (t.flags.cmp = .less ↔ s.readE ra < s.readE rb) ∧
      (t.flags.cmp = .greater ↔ s.readE rb < s.readE ra) ∧
      Frame s t [] [] [] ∧ OnlyCmp s t)

/-- R209: the count n of leading zeros: the value is below 2^(W-n), and, when it is not 0, at least 2^(W-1-n); W for 0. -/
def Obligations.WclzCountsLeadingZeros : Prop :=
  ∀ (rd ra : Idx) (s : State), s.Inv → encode (.wclz rd ra) = encodeR 0x09 rd ra 0 ∧
    ∃ (t : State) (n : Nat), exec (.wclz rd ra) s = .next t ∧
    t.readE rd = (n : Int) ∧ n ≤ s.params.w ∧ s.readX ra < 2 ^ (s.params.w - n) ∧
    (s.readX ra ≠ 0 → n < s.params.w ∧ 2 ^ (s.params.w - 1 - n) ≤ s.readX ra) ∧
    (s.readX ra = 0 → n = s.params.w) ∧
    Frame s t [] [rd] [] ∧ NoFlag s t

/-- R210, R211, R275: the loads of an immediate and the copy of a wide register. -/
def Obligations.LoadsAndMoveFrame : Prop :=
  ∀ (rd ra : Idx) (imm : BitVec 16) (s : State),
    encode (.wldi rd imm) = encodeI 0x0A rd 0 imm ∧ encode (.wmov rd ra) = encodeR 0x0B rd ra 0 ∧
    encode (.eldi rd imm) = encodeI 0x14 rd 0 imm ∧
    (∃ t, exec (.wldi rd imm) s = .next t ∧ t.readX rd = imm.toNat ∧ Frame s t [rd] [] [] ∧ NoFlag s t) ∧
    (∃ t, exec (.wmov rd ra) s = .next t ∧ t.readX rd = s.readX ra ∧ Frame s t [rd] [] [] ∧ NoFlag s t) ∧
    (∃ t, exec (.eldi rd imm) s = .next t ∧ t.readE rd = imm.toInt ∧ Frame s t [] [rd] [] ∧ NoFlag s t)

/-! ### Loss fractions and the rounding decision (41_loss_fraction.md) -/

/-- R251, R252: the model's classifier is R251's for every value and amount, and clamping the amount at W + 1 changes nothing.
-/
def Obligations.ClassifierIsR251 : Prop :=
  (∀ v n : Nat, classify v n = classifyExact v n) ∧
  (∀ w v n : Nat, v < 2 ^ w → w + 1 ≤ n →
    classify v n = classifyExact v (w + 1) ∧ classify v n = if v = 0 then .exactlyZero else .lessThanHalf)

/-- R254: successive shifts compose. -/
def Obligations.SuccessiveShiftsCompose : Prop :=
  ∀ v a b : Nat, 1 ≤ b → classify v (a + b) = combine (classify (v >>> a) b) (classify v a)

/-- R253: for a second shift of k >= 1 bits with discarded bits r, and a first shift whose loss fraction classifies φ, `combine`
classifies the total fraction (r + φ) / 2^k; and the class of r itself classifies r / 2^k (R250, R251). -/
def Obligations.CombineClassifiesTheTotal : Prop :=
  ∀ (v k : Nat) (less : LossFraction) (φ : ℚ), 1 ≤ k → less.Classifies φ →
    (classify v k).Classifies (((v % 2 ^ k : Nat) : ℚ) / 2 ^ k) ∧
    (combine (classify v k) less).Classifies ((((v % 2 ^ k : Nat) : ℚ) + φ) / 2 ^ k)

/-- R255: when the rounding step adds one unit. -/
def Obligations.RoundUpDecision : Prop :=
  ∀ (mode : RoundingMode) (sign : Bool) (lf : LossFraction) (lsb : Bool),
    roundUp mode sign lf lsb = true ↔
      lf ≠ .exactlyZero ∧
        ((mode = .nearestTiesToEven ∧ (lf = .moreThanHalf ∨ (lf = .exactlyHalf ∧ lsb = true))) ∨
         (mode = .towardPositive ∧ sign = false) ∨ (mode = .towardNegative ∧ sign = true))

/-! ### Exponent commands (42_exponent.md) -/

/-- R271, R272, R273: the exact sum or difference when it fits a signed 32-bit register; else EXP_OVF, never a wrapped value
(R270). -/
def Obligations.ExponentArithmeticIsExact : Prop :=
  ∀ (rd ra rb : Idx) (imm : BitVec 16) (s : State) (i : Instr) (v : Int),
    ((i = .eadd rd ra rb ∧ v = s.readE ra + s.readE rb) ∨
     (i = .esub rd ra rb ∧ v = s.readE ra - s.readE rb) ∨
     (i = .eaddi rd ra imm ∧ v = s.readE ra + imm.toInt)) →
    encode (.eadd rd ra rb) = encodeR 0x10 rd ra rb ∧ encode (.esub rd ra rb) = encodeR 0x11 rd ra rb ∧
    encode (.eaddi rd ra imm) = encodeI 0x12 rd ra imm ∧
    (-2 ^ 31 ≤ v ∧ v ≤ 2 ^ 31 - 1 →
      ∃ t, exec i s = .next t ∧ t.readE rd = v ∧ Frame s t [] [rd] [] ∧ NoFlag s t) ∧
    (v < -2 ^ 31 ∨ 2 ^ 31 - 1 < v → RaisesError i s .expOvf)

/-! ### NORM and FMOV (43_normalize_round.md) -/

/-- R303, R300, R73: NORM raises CFG when EB or MB is out of range, or when it takes its mode from a CFG.RM above 3. -/
def Obligations.NormChecksConfiguration : Prop :=
  ∀ (rd ra : Idx) (rm : RmSel) (l : Bool) (s : State),
    (¬ (2 ≤ s.cfg.eb.toNat ∧ s.cfg.eb.toNat ≤ 31 ∧ 1 ≤ s.cfg.mb.toNat ∧ s.cfg.mb.toNat ≤ s.params.w - 1) →
      RaisesError (.norm rd ra rm l) s .cfg) ∧
    (3 < s.cfg.rm.toNat → RaisesError (.norm rd ra .dyn l) s .cfg)

/-- R313: Infinity and NaN pass through in all four fields, whatever the incoming loss; LOSS = EZ and OVF = 0. -/
def Obligations.NormPassesSpecialsThrough : Prop :=
  ∀ (rd ra : Idx) (rm : RmSel) (l : Bool) (s : State) (mode : RoundingMode),
    s.cfg.Legal s.params.w → s.cfg.mode rm = some mode →
    (s.cat.get ra = .infinity ∨ s.cat.get ra = .nan) →
    ∃ t, exec (.norm rd ra rm l) s = .next t ∧ t.readF rd = s.readF ra ∧
      NormFlags s t .exactlyZero false ∧ FloatFrame s t rd

/-- R306, R318: a zero mantissa gives the canonical Zero of the same sign, or LOSS_LEFT when there is an incoming loss. -/
def Obligations.NormOfZeroMantissa : Prop :=
  ∀ (rd ra : Idx) (rm : RmSel) (l : Bool) (s : State) (mode : RoundingMode),
    s.cfg.Legal s.params.w → s.cfg.mode rm = some mode →
    (s.cat.get ra = .zero ∨ s.cat.get ra = .normal) → s.readX ra = 0 →
    ((l = false ∨ s.loss = .exactlyZero) → ∃ t, exec (.norm rd ra rm l) s = .next t ∧
      t.readF rd = { sign := s.sgn.get ra, cat := .zero, exp := s.cfg.eMin, man := 0 } ∧
      NormFlags s t .exactlyZero false ∧ FloatFrame s t rd) ∧
    ((l = true ∧ s.loss ≠ .exactlyZero) → RaisesError (.norm rd ra rm l) s .lossLeft)

/-- R308: when the aligned exponent exceeds e_max the result is Infinity of the same sign in every rounding mode, before any
rounding, with OVF = 1 and LOSS = EZ. -/
def Obligations.NormOverflowsInEveryMode : Prop :=
  ∀ (rd ra : Idx) (rm : RmSel) (l : Bool) (s : State) (mode : RoundingMode),
    s.cfg.Legal s.params.w → s.cfg.mode rm = some mode →
    (s.cat.get ra = .zero ∨ s.cat.get ra = .normal) → s.readX ra ≠ 0 →
    s.cfg.eMax < s.cfg.alignedExp (s.readF ra) →
    ∃ t, exec (.norm rd ra rm l) s = .next t ∧
      t.readF rd = { sign := s.sgn.get ra, cat := .infinity, exp := s.cfg.eMax + 1, man := 0 } ∧
      NormFlags s t .exactlyZero true ∧ FloatFrame s t rd

/-- R307, R309, R318: a mantissa below 2^MB at an exponent above e_min needs a left shift. Without an incoming loss it is exact:
the exponent stops at e_min or when the leading bit is at bit MB. With one, NORM raises LOSS_LEFT. -/
def Obligations.NormShiftsLeftExactly : Prop :=
  ∀ (rd ra : Idx) (rm : RmSel) (l : Bool) (s : State) (mode : RoundingMode),
    s.cfg.Legal s.params.w → s.cfg.mode rm = some mode →
    (s.cat.get ra = .zero ∨ s.cat.get ra = .normal) → s.readX ra ≠ 0 →
    s.cfg.alignedExp (s.readF ra) ≤ s.cfg.eMax →
    s.readX ra < 2 ^ s.cfg.mbN → s.cfg.eMin < s.readE ra →
    ((l = false ∨ s.loss = .exactlyZero) → ∃ t, exec (.norm rd ra rm l) s = .next t ∧
      t.sgn.get rd = s.sgn.get ra ∧ t.cat.get rd = .normal ∧
      t.readE rd = max (s.cfg.alignedExp (s.readF ra)) s.cfg.eMin ∧
      t.readX rd = s.readX ra * 2 ^ (s.readE ra - t.readE rd).toNat ∧
      NormFlags s t .exactlyZero false ∧ FloatFrame s t rd) ∧
    ((l = true ∧ s.loss ≠ .exactlyZero) → RaisesError (.norm rd ra rm l) s .lossLeft)

/-- R305, R307, R309, R310, R311, R312: the right shift and the rounding. With n the shift and k the kept mantissa after the
round-up decision: 2^P folds to 2^MB one exponent up, which may overflow to Infinity; 0 is Zero; else (e + n, k). LOSS is the loss
fraction the decision saw. -/
def Obligations.NormShiftsRightAndRounds : Prop :=
  ∀ (rd ra : Idx) (rm : RmSel) (l : Bool) (s : State) (mode : RoundingMode),
    s.cfg.Legal s.params.w → s.cfg.mode rm = some mode →
    (s.cat.get ra = .zero ∨ s.cat.get ra = .normal) → s.readX ra ≠ 0 →
    s.cfg.alignedExp (s.readF ra) ≤ s.cfg.eMax →
    (2 ^ s.cfg.mbN ≤ s.readX ra ∨ s.readE ra ≤ s.cfg.eMin) →
    ∃ (t : State) (n k : Nat) (lf : LossFraction), exec (.norm rd ra rm l) s = .next t ∧
      s.readE ra + (n : Int) = max (s.cfg.alignedExp (s.readF ra)) s.cfg.eMin ∧
      lf = (if n = 0 then s.incomingLoss l else combine (classifyExact (s.readX ra) n) (s.incomingLoss l)) ∧
      k = s.readX ra / 2 ^ n +
        (roundUp mode (s.sgn.get ra) lf (decide (s.readX ra / 2 ^ n % 2 = 1))).toNat ∧
      (k = 2 ^ s.cfg.prec → s.readE ra + (n : Int) < s.cfg.eMax →
        t.readF rd = { sign := s.sgn.get ra, cat := .normal, exp := s.readE ra + (n : Int) + 1, man := 2 ^ s.cfg.mbN } ∧
        t.flags.ovf = false) ∧
      (k = 2 ^ s.cfg.prec → s.readE ra + (n : Int) = s.cfg.eMax →
        t.readF rd = { sign := s.sgn.get ra, cat := .infinity, exp := s.cfg.eMax + 1, man := 0 } ∧ t.flags.ovf = true) ∧
      (k = 0 → t.readF rd = { sign := s.sgn.get ra, cat := .zero, exp := s.cfg.eMin, man := 0 } ∧ t.flags.ovf = false) ∧
      (k ≠ 0 → k ≠ 2 ^ s.cfg.prec →
        t.readF rd = { sign := s.sgn.get ra, cat := .normal, exp := s.readE ra + (n : Int), man := k } ∧
        t.flags.ovf = false) ∧
      k ≤ 2 ^ s.cfg.prec ∧ NormFlags s t lf t.flags.ovf ∧ FloatFrame s t rd

/-- R314: every result of NORM from a raw finite input is canonical, and OVF says whether it is Infinity (R312). -/
def Obligations.NormResultsAreCanonical : Prop :=
  ∀ (rd ra : Idx) (rm : RmSel) (l : Bool) (s : State) (mode : RoundingMode),
    s.cfg.Legal s.params.w → s.cfg.mode rm = some mode →
    (s.cat.get ra = .zero ∨ s.cat.get ra = .normal) →
    s.cfg.LossUsable (s.incomingLoss l) (s.readF ra) →
    ∃ t, exec (.norm rd ra rm l) s = .next t ∧ s.cfg.Canonical (t.readF rd) ∧
      t.sgn.get rd = s.sgn.get ra ∧ (t.flags.ovf = true ↔ t.cat.get rd = .infinity) ∧ t.cat.get rd ≠ .nan

/-- R315: rounding correctness. A result that is no overflow is the canonical float that the mode prescribes for the exact input
magnitude, for every fraction φ that the incoming loss classifies. -/
def Obligations.NormRoundsCorrectly : Prop :=
  ∀ (rd ra : Idx) (rm : RmSel) (l : Bool) (s : State) (mode : RoundingMode) (φ : ℚ),
    s.cfg.Legal s.params.w → s.cfg.mode rm = some mode →
    (s.cat.get ra = .zero ∨ s.cat.get ra = .normal) →
    s.cfg.LossUsable (s.incomingLoss l) (s.readF ra) →
    (s.incomingLoss l).Classifies φ →
    ∃ t, exec (.norm rd ra rm l) s = .next t ∧ t.sgn.get rd = s.sgn.get ra ∧
      (t.flags.ovf = false →
        s.cfg.CanonicalFinite (t.readE rd) (t.readX rd) ∧
        s.cfg.RoundedBy mode (s.sgn.get ra) (s.cfg.rawMagnitude (s.readF ra) φ) (t.readE rd) (t.readX rd))

/-- R312: the result is exact if and only if OVF = 0 and LOSS = EZ. -/
def Obligations.NormExactIffNoLossNoOverflow : Prop :=
  ∀ (rd ra : Idx) (rm : RmSel) (l : Bool) (s : State) (mode : RoundingMode) (φ : ℚ),
    s.cfg.Legal s.params.w → s.cfg.mode rm = some mode →
    (s.cat.get ra = .zero ∨ s.cat.get ra = .normal) →
    s.cfg.LossUsable (s.incomingLoss l) (s.readF ra) →
    (s.incomingLoss l).Classifies φ →
    ∃ t, exec (.norm rd ra rm l) s = .next t ∧
      ((t.flags.ovf = false ∧ t.loss = .exactlyZero) ↔
        (t.cat.get rd ≠ .infinity ∧
          s.cfg.magnitude (t.readE rd) (t.readX rd) = s.cfg.rawMagnitude (s.readF ra) φ))

/-- R320: FMOV copies S, C, E and X, with no check and no flag. -/
def Obligations.FmovCopiesTheTuple : Prop :=
  ∀ (rd ra : Idx) (s : State), encode (.fmov rd ra) = encodeR 0x24 rd ra 0 ∧
    ∃ t, exec (.fmov rd ra) s = .next t ∧ t.readF rd = s.readF ra ∧ FloatFrame s t rd ∧ NoFlag s t

/-! ### UNPACK and PACK (44_conversion.md) -/

/-- R350, R351, R352, R353, R354: a pattern with sign g, exponent field f and fraction q decodes case by case, and the result is
canonical (R60, R61). -/
def Obligations.UnpackDecodesThePattern : Prop :=
  ∀ (rd ra : Idx) (s : State) (g : Bool) (f q : Nat),
    s.cfg.LegalRaw s.params.w → f < 2 ^ s.cfg.ebN → q < 2 ^ s.cfg.mbN →
    s.readX ra = g.toNat * 2 ^ (s.cfg.ebN + s.cfg.mbN) + f * 2 ^ s.cfg.mbN + q →
    encode (.unpack rd ra) = encodeR 0x22 rd ra 0 ∧
    ∃ t, exec (.unpack rd ra) s = .next t ∧ FloatFrame s t rd ∧ NoFlag s t ∧ s.cfg.Canonical (t.readF rd) ∧
      (f = 2 ^ s.cfg.ebN - 1 → q = 0 →
        t.readF rd = { sign := g, cat := .infinity, exp := s.cfg.eMax + 1, man := 0 }) ∧
      (f = 2 ^ s.cfg.ebN - 1 → q ≠ 0 →
        t.readF rd = { sign := g, cat := .nan, exp := s.cfg.eMax + 1, man := 2 ^ (s.cfg.mbN - 1) }) ∧
      (f = 0 → q = 0 → t.readF rd = { sign := g, cat := .zero, exp := s.cfg.eMin, man := 0 }) ∧
      (f = 0 → q ≠ 0 → t.readF rd = { sign := g, cat := .normal, exp := s.cfg.eMin, man := q }) ∧
      (f ≠ 0 → f ≠ 2 ^ s.cfg.ebN - 1 →
        t.readF rd = { sign := g, cat := .normal, exp := (f : Int) - s.cfg.bias, man := 2 ^ s.cfg.mbN + q })

/-- R356, R357, R358: PACK encodes Infinity and NaN from their category and sign alone, a Zero with mantissa 0, a subnormal with
field 0, and any other canonical Normal with field e + bias and its leading bit dropped. -/
def Obligations.PackEncodesTheFloat : Prop :=
  ∀ (rd ra : Idx) (s : State), s.cfg.LegalRaw s.params.w →
    (s.cat.get ra = .zero → s.readX ra = 0) →
    (s.cat.get ra = .normal → s.cfg.CanonicalNormal (s.readE ra) (s.readX ra)) →
    encode (.pack rd ra) = encodeR 0x23 rd ra 0 ∧
    ∃ (t : State) (f q : Nat), exec (.pack rd ra) s = .next t ∧ Frame s t [rd] [] [] ∧ NoFlag s t ∧
      f < 2 ^ s.cfg.ebN ∧ q < 2 ^ s.cfg.mbN ∧
      t.readX rd = (s.sgn.get ra).toNat * 2 ^ (s.cfg.ebN + s.cfg.mbN) + f * 2 ^ s.cfg.mbN + q ∧
      (s.cat.get ra = .infinity → f = 2 ^ s.cfg.ebN - 1 ∧ q = 0) ∧
      (s.cat.get ra = .nan → f = 2 ^ s.cfg.ebN - 1 ∧ q = 2 ^ (s.cfg.mbN - 1)) ∧
      (s.cat.get ra = .zero → f = 0 ∧ q = 0) ∧
      (s.cat.get ra = .normal → s.readX ra < 2 ^ s.cfg.mbN → f = 0 ∧ q = s.readX ra) ∧
      (s.cat.get ra = .normal → 2 ^ s.cfg.mbN ≤ s.readX ra →
        (f : Int) = s.readE ra + s.cfg.bias ∧ q + 2 ^ s.cfg.mbN = s.readX ra)

/-- R73, R353, R356, R360, R361: the errors of UNPACK and PACK in their order: CFG first; then RAW_WIDTH for a pattern that is
too
wide; PACK_RANGE for a Zero with a nonzero mantissa and for a Normal that is not canonical. -/
def Obligations.ConversionErrorsInOrder : Prop :=
  ∀ (rd ra : Idx) (s : State),
    (¬ (2 ≤ s.cfg.eb.toNat ∧ s.cfg.eb.toNat ≤ 31 ∧ 1 ≤ s.cfg.mb.toNat ∧ s.cfg.mb.toNat ≤ s.params.w - 1 ∧
        1 + s.cfg.eb.toNat + s.cfg.mb.toNat ≤ s.params.w) →
      RaisesError (.unpack rd ra) s .cfg ∧ RaisesError (.pack rd ra) s .cfg) ∧
    (s.cfg.LegalRaw s.params.w →
      (2 ^ (1 + s.cfg.ebN + s.cfg.mbN) ≤ s.readX ra → RaisesError (.unpack rd ra) s .rawWidth) ∧
      ((s.cat.get ra = .zero ∧ s.readX ra ≠ 0) ∨
        (s.cat.get ra = .normal ∧
          ¬ (s.cfg.eMin ≤ s.readE ra ∧ s.readE ra ≤ s.cfg.eMax ∧ 0 < s.readX ra ∧ s.readX ra < 2 ^ (s.cfg.mbN + 1) ∧
            (s.cfg.eMin < s.readE ra → 2 ^ s.cfg.mbN ≤ s.readX ra))) →
        RaisesError (.pack rd ra) s .packRange))

/-- R362: UNPACK then PACK gives the pattern back, or for a NaN pattern the canonical NaN of R358 with its sign. -/
def Obligations.UnpackPackRoundTrip : Prop :=
  ∀ (rf ra rx : Idx) (s : State) (g : Bool) (f q : Nat),
    s.cfg.LegalRaw s.params.w → f < 2 ^ s.cfg.ebN → q < 2 ^ s.cfg.mbN →
    s.readX ra = g.toNat * 2 ^ (s.cfg.ebN + s.cfg.mbN) + f * 2 ^ s.cfg.mbN + q →
    ∃ t u, exec (.unpack rf ra) s = .next t ∧ exec (.pack rx rf) t = .next u ∧
      (¬ (f = 2 ^ s.cfg.ebN - 1 ∧ q ≠ 0) → u.readX rx = s.readX ra) ∧
      (f = 2 ^ s.cfg.ebN - 1 → q ≠ 0 →
        u.readX rx = g.toNat * 2 ^ (s.cfg.ebN + s.cfg.mbN) + f * 2 ^ s.cfg.mbN + 2 ^ (s.cfg.mbN - 1))

/-- R353, R356: PACK then UNPACK gives a canonical float back, of every category. -/
def Obligations.PackUnpackRoundTrip : Prop :=
  ∀ (rx ra rf : Idx) (s : State), s.cfg.LegalRaw s.params.w → s.cfg.Canonical (s.readF ra) →
    ∃ t u, exec (.pack rx ra) s = .next t ∧ exec (.unpack rf rx) t = .next u ∧ u.readF rf = s.readF ra

/-- R375 (a): a canonical finite float of a format A, its exponent adjusted to a format B that includes A, is normalized under B
without loss: LOSS = EZ, OVF = 0, and its value is the same (R374, R12). -/
def Obligations.WideningCastIsExact : Prop :=
  ∀ (rd ra : Idx) (rm : RmSel) (s : State) (mode : RoundingMode) (a : Cfg),
    s.cfg.Legal s.params.w → s.cfg.mode rm = some mode →
    2 ≤ a.ebN → 1 ≤ a.mbN → a.ebN ≤ s.cfg.ebN → a.mbN ≤ s.cfg.mbN →
    (s.cat.get ra = .zero ∨ s.cat.get ra = .normal) →
    a.CanonicalFinite (s.readE ra - ((s.cfg.mbN : Int) - (a.mbN : Int))) (s.readX ra) →
    ∃ t, exec (.norm rd ra rm false) s = .next t ∧ t.loss = .exactlyZero ∧ t.flags.ovf = false ∧
      s.cfg.Canonical (t.readF rd) ∧
      s.cfg.magnitude (t.readE rd) (t.readX rd) =
        a.magnitude (s.readE ra - ((s.cfg.mbN : Int) - (a.mbN : Int))) (s.readX ra)

/-! ### ALIGN (45_align.md) -/

/-- R401, R402, R404: the smaller-exponent operand, by a signed compare, is shifted to the larger exponent; on a tie F[rb] is
the
one aligned. The amount is capped at W + 1. An Infinity or NaN operand raises SPECIAL_OPERAND and nothing is written. -/
def Obligations.AlignShiftsTheSmallerExponent : Prop :=
  ∀ (rd ra rb : Idx) (s : State), encode (.align rd ra rb) = encodeR 0x21 rd ra rb ∧
    ((s.cat.get ra = .zero ∨ s.cat.get ra = .normal) → (s.cat.get rb = .zero ∨ s.cat.get rb = .normal) →
      ∃ (t : State) (n : Nat), exec (.align rd ra rb) s = .next t ∧
        (s.readE rb ≤ s.readE ra →
          (n : Int) = min (s.readE ra - s.readE rb) (s.params.w + 1) ∧
          t.readF rd = { sign := s.sgn.get rb, cat := s.cat.get rb, exp := s.readE ra, man := s.readX rb >>> n } ∧
          t.loss = classifyExact (s.readX rb) n ∧ t.flags.swap = false) ∧
        (s.readE ra < s.readE rb →
          (n : Int) = min (s.readE rb - s.readE ra) (s.params.w + 1) ∧
          t.readF rd = { sign := s.sgn.get ra, cat := s.cat.get ra, exp := s.readE rb, man := s.readX ra >>> n } ∧
          t.loss = classifyExact (s.readX ra) n ∧ t.flags.swap = true) ∧
        t.flags.c = s.flags.c ∧ t.flags.cmp = s.flags.cmp ∧ t.flags.ovf = s.flags.ovf ∧ FloatFrame s t rd) ∧
    ((s.cat.get ra = .infinity ∨ s.cat.get ra = .nan ∨ s.cat.get rb = .infinity ∨ s.cat.get rb = .nan) →
      RaisesError (.align rd ra rb) s .specialOperand)

/-- R403: for W-bit mantissas the cap at W + 1 gives the mantissa and the loss fraction of the uncapped shift. -/
def Obligations.AlignCapIsExact : Prop :=
  ∀ (rd ra rb : Idx) (s : State), s.Inv →
    (s.cat.get ra = .zero ∨ s.cat.get ra = .normal) → (s.cat.get rb = .zero ∨ s.cat.get rb = .normal) →
    ∃ t, exec (.align rd ra rb) s = .next t ∧
      (s.readE rb ≤ s.readE ra →
        t.readX rd = s.readX rb >>> (s.readE ra - s.readE rb).toNat ∧
        t.loss = classifyExact (s.readX rb) (s.readE ra - s.readE rb).toNat) ∧
      (s.readE ra < s.readE rb →
        t.readX rd = s.readX ra >>> (s.readE rb - s.readE ra).toNat ∧
        t.loss = classifyExact (s.readX ra) (s.readE rb - s.readE ra).toNat)

/-! ### Rules over all commands (R73, R79) -/

/-- R79: a flag the table does not list for a command is left unchanged by it, and a command that raises an error writes none.
-/
def Obligations.FlagsFollowTheTable : Prop :=
  ∀ (i : Instr) (s t : State), exec i s = .next t →
    ((flagRow i).c = false → t.flags.c = s.flags.c) ∧
    ((flagRow i).cmp = false → t.flags.cmp = s.flags.cmp) ∧
    ((flagRow i).ovf = false → t.flags.ovf = s.flags.ovf) ∧
    ((flagRow i).swap = false → t.flags.swap = s.flags.swap) ∧
    ((flagRow i).loss = false → t.loss = s.loss) ∧
    (s.error.err = false → t.error.err = true → t.flags = s.flags ∧ t.loss = s.loss)

/-- R73: "Only NORM, UNPACK and PACK read CFG": under any other CFG every other command does the same. R79: "No command reads
STATUS": with any other flags, error state and latch, a command leaves the same registers, LOSS, CFG and marks. -/
def Obligations.CfgAndStatusAreReadByNoOther : Prop :=
  (∀ (i : Instr) (s t : State) (c : Cfg), readsCfg i = false → exec i s = .next t →
    exec i { s with cfg := c } = .next { t with cfg := c }) ∧
  (∀ (i : Instr) (s t : State) (f : Flags) (r : ErrorState) (w : Option Word), exec i s = .next t →
    ∃ u, exec i { s with flags := f, error := r, latch := w } = .next u ∧
      u.x = t.x ∧ u.e = t.e ∧ u.sgn = t.sgn ∧ u.cat = t.cat ∧ u.loss = t.loss ∧ u.cfg = t.cfg ∧ u.marks = t.marks)

/-! ### The host port (20_memory.md, 10_state.md) -/

/-- R70, R71, R72, R74, R75, R78, R102: what the control registers read as when the unit is idle, with the numbers of
R74, R250 and R451. The turn list is the model's
(log 2). -/
def Obligations.ControlRegisterReads : Prop :=
  ∀ (s : State) (a : Addr) (ts : List Turn), s.Inv → s.latch = none → s.turns = .hostRead a :: ts →
    ∃ t, step s = .next t ∧
      (a.toNat = 0 → t.rdata.toNat = 0x41524631) ∧
      (a.toNat = 1 → t.rdata.toNat = s.params.w + 2 ^ 16 * s.params.limbW) ∧
      (a.toNat = 2 → t.rdata.toNat = s.cfg.eb.toNat + 2 ^ 8 * s.cfg.rm.toNat + 2 ^ 16 * s.cfg.mb.toNat) ∧
      (a.toNat = 3 → t.rdata.toNat = 2 * s.error.err.toNat + 4 * s.flags.c.toNat + 8 * cmpNumber s.flags.cmp +
        32 * s.flags.ovf.toNat + 64 * s.flags.swap.toNat + 2 ^ 8 * errorNumber s.error.code) ∧
      (a.toNat = 4 → t.rdata.toNat = lossNumber s.loss) ∧
      (a.toNat = 5 ∨ a.toNat = 6 → t.rdata = 0) ∧
      (a.toNat = 7 → t.rdata = s.error.info)

/-- R53, R54, R55, R103: what the E, META and X words read as when the unit is idle. The turn list is the model's (log 2). -/
def Obligations.DataRegisterReads : Prop :=
  ∀ (s : State) (a : Addr) (ts : List Turn) (i : Idx) (j : Nat), s.latch = none → s.turns = .hostRead a :: ts →
    ∃ t, step s = .next t ∧
      (a.toNat = 0x0010 + i.val → t.rdata.toInt = s.readE i) ∧
      (a.toNat = 0x0018 + i.val → t.rdata.toNat = (s.sgn.get i).toNat + 2 * categoryNumber (s.cat.get i)) ∧
      (j < s.params.words → j < 0x100 → a.toNat = 0x1000 + 0x100 * i.val + j →
        t.rdata.toNat = s.readX i / 2 ^ (32 * j) % 2 ^ 32)

/-- R103: a write of word j of X[i] sets those 32 bits and leaves the other words of X[i], and every other register,
unchanged. The turn list is the model's (log 2). -/
def Obligations.WideWordWriteSetsThatWord : Prop :=
  ∀ (s : State) (a : Addr) (d : Word) (ts : List Turn) (i : Idx) (j : Nat),
    s.Inv → s.latch = none → s.turns = .hostWrite a d :: ts → j < s.params.words →
    a.toNat = 0x1000 + 0x100 * i.val + j →
    ∃ t, step s = .next t ∧ t.readX i / 2 ^ (32 * j) % 2 ^ 32 = d.toNat ∧
      (∀ k, k ≠ j → t.readX i / 2 ^ (32 * k) % 2 ^ 32 = s.readX i / 2 ^ (32 * k) % 2 ^ 32) ∧
      (∀ i', i' ≠ i → t.readX i' = s.readX i') ∧
      t.e = s.e ∧ t.sgn = s.sgn ∧ t.cat = s.cat ∧ t.cfg = s.cfg ∧ t.loss = s.loss ∧ t.flags = s.flags ∧
      t.error = s.error ∧ t.latch = none ∧ t.rdata = s.rdata ∧ t.params = s.params ∧ t.turns = ts ∧ t.draws = s.draws ∧
      (t.marks.x.get i)[j]? = some true ∧
      (∀ k : Nat, k ≠ j → (t.marks.x.get i)[k]? = (s.marks.x.get i)[k]?) ∧
      (∀ i', i' ≠ i → t.marks.x.get i' = s.marks.x.get i') ∧ t.marks.e = s.marks.e ∧ t.marks.metaReg = s.marks.metaReg

/-- R53, R54, R55, R72, R75, R81, R102: a write of CFG, LOSS, E[i] or META[i] to an idle unit stores its fields, and changes no
other register; for E[i] and META[i] it marks that word alone as written. A read then gives the fields back with the reserved bits
0, and changes nothing but the port's answer. The turn list is the model's (log 2). -/
def Obligations.FieldWritesReadBack : Prop :=
  ∀ (s : State) (a : Addr) (d : Word) (ts : List Turn) (i : Idx),
    s.latch = none → s.turns = .hostWrite a d :: .hostRead a :: ts →
    (a.toNat = 2 ∨ a.toNat = 4 ∨ a.toNat = 0x0010 + i.val ∨ a.toNat = 0x0018 + i.val) →
    ∃ t u, step s = .next t ∧ step t = .next u ∧ u = { t with turns := ts, rdata := u.rdata } ∧
      (a.toNat = 2 → u.rdata = d &&& 0xFFFF071F ∧
        t.cfg.eb.toNat = d.toNat % 2 ^ 5 ∧ t.cfg.rm.toNat = d.toNat / 2 ^ 8 % 2 ^ 3 ∧ t.cfg.mb.toNat = d.toNat / 2 ^ 16 ∧
        t = { s with turns := .hostRead a :: ts, cfg := t.cfg }) ∧
      (a.toNat = 4 → u.rdata = d &&& 0x00000003 ∧ lossNumber t.loss = d.toNat % 4 ∧
        t = { s with turns := .hostRead a :: ts, loss := t.loss }) ∧
      (a.toNat = 0x0010 + i.val → u.rdata = d ∧ t.readE i = d.toInt ∧
        t = { s with
          turns := .hostRead a :: ts
          e := s.e.set i d
          marks := { s.marks with e := s.marks.e.set i true } }) ∧
      (a.toNat = 0x0018 + i.val → u.rdata = d &&& 0x00000007 ∧
        (t.sgn.get i).toNat = d.toNat % 2 ∧ categoryNumber (t.cat.get i) = d.toNat / 2 % 4 ∧
        t = { s with
          turns := .hostRead a :: ts
          sgn := s.sgn.set i (t.sgn.get i)
          cat := s.cat.set i (t.cat.get i)
          marks := { s.marks with metaReg := s.marks.metaReg.set i true } })

/-- R104: a read of a reserved address returns 0; a write to one, or to a read-only register, is ignored by an idle unit. The
turn list is the model's (log 2). -/
def Obligations.ReservedAndReadOnlyAddresses : Prop :=
  ∀ (s : State) (a : Addr) (d : Word) (ts : List Turn), s.latch = none →
    ((8 ≤ a.toNat ∧ a.toNat < 0x10) ∨ (0x20 ≤ a.toNat ∧ a.toNat < 0x1000) ∨ 0x1800 ≤ a.toNat ∨
      (0x1000 ≤ a.toNat ∧ a.toNat < 0x1800 ∧ s.params.words ≤ a.toNat % 0x100) →
      (s.turns = .hostRead a :: ts → step s = .next { s with rdata := 0, turns := ts }) ∧
      (s.turns = .hostWrite a d :: ts → step s = .next { s with turns := ts })) ∧
    (a.toNat = 0 ∨ a.toNat = 1 ∨ a.toNat = 3 ∨ a.toNat = 7 →
      s.turns = .hostWrite a d :: ts → step s = .next { s with turns := ts })

/-- R107: a host read has no side effect on the block, in any state: only the port's answer (and the model's count of free
values)
changes. The turn list is the model's (log 2). -/
def Obligations.ReadsHaveNoSideEffects : Prop :=
  ∀ (s : State) (a : Addr) (ts : List Turn), s.turns = .hostRead a :: ts →
    ∃ v n, step s = .next { s with turns := ts, rdata := v, draws := n }

/-- R110: while BUSY = 1, STATUS reads its current value, ID and PARAM their constants, CMD, CTRL and reserved addresses 0.
The turn list is the model's (log 2). -/
def Obligations.BusyReadsThatAreSpecified : Prop :=
  ∀ (s : State) (a : Addr) (ts : List Turn), s.Inv → s.busy = true → s.turns = .hostRead a :: ts →
    ∃ t, step s = .next t ∧
      (a.toNat = 3 → t.rdata.toNat = 1 + 2 * s.error.err.toNat + 4 * s.flags.c.toNat + 8 * cmpNumber s.flags.cmp +
        32 * s.flags.ovf.toNat + 64 * s.flags.swap.toNat + 2 ^ 8 * errorNumber s.error.code) ∧
      (a.toNat = 0 → t.rdata.toNat = 0x41524631) ∧
      (a.toNat = 1 → t.rdata.toNat = s.params.w + 2 ^ 16 * s.params.limbW) ∧
      (a.toNat = 5 ∨ a.toNat = 6 ∨ (8 ≤ a.toNat ∧ a.toNat < 0x10) ∨ (0x20 ≤ a.toNat ∧ a.toNat < 0x1000) ∨
        0x1800 ≤ a.toNat ∨ (0x1000 ≤ a.toNat ∧ a.toNat < 0x1800 ∧ s.params.words ≤ a.toNat % 0x100) →
        t.rdata = 0)

/-- R108, R453: the three effects of a write to CMD. The turn list is the model's (log 2). -/
def Obligations.CommandSubmission : Prop :=
  ∀ (s : State) (w : Word) (ts : List Turn), s.turns = .hostWrite 0x0005 w :: ts →
    (s.error.err = true → step s = .next { s with turns := ts }) ∧
    (s.error.err = false → s.busy = true → step s = .next { s with
      turns := ts, error := { err := true, code := some .busyWrite, info := 0x0005 } }) ∧
    (s.error.err = false → s.busy = false → step s = .next { s with turns := ts, latch := some w })

/-- R109: while BUSY = 1 a write to any address other than CTRL is dropped, with BUSY_WRITE and the address in ERRINFO if ERR
= 0;
the command in flight stays in the latch. The turn list is the model's (log 2). -/
def Obligations.WritesWhileBusyAreDropped : Prop :=
  ∀ (s : State) (a : Addr) (d : Word) (ts : List Turn), s.busy = true → a.toNat ≠ 6 → s.turns = .hostWrite a d :: ts →
    (s.error.err = true → step s = .next { s with turns := ts }) ∧
    (s.error.err = false → ∃ info : Word, info.toNat = a.toNat ∧ step s = .next { s with
      turns := ts, error := { err := true, code := some .busyWrite, info := info } })

/-! ### Errors that stay, reset, and the invariant (60_exceptions.md, 70_reset_and_hazards.md) -/

/-- R452, R453, R462: while ERR = 1 no step but a reset changes ERR, ERRCODE or ERRINFO, and an idle unit accepts no command.
The turn list is the model's (log 2). -/
def Obligations.ErrorStaysUntilReset : Prop :=
  ∀ s t : State, s.error.err = true → step s = .next t →
    (∀ ts, s.turns ≠ .hardReset :: ts) →
    (∀ d ts, s.turns = .hostWrite 0x0006 d :: ts → d.getLsbD 0 = false) →
    t.error = s.error ∧ (s.latch = none → t.latch = none)

/-- R85, R500: the values the spec states for reset, and every word of X, E and META unwritten. -/
def Obligations.ResetState : Prop :=
  State.reset.cfg.word = 0x00170008 ∧ State.reset.statusWord = 0 ∧ State.reset.loss = .exactlyZero ∧
  State.reset.error.info = 0 ∧ State.reset.latch = none ∧
  (∀ (i : Idx) (j : Nat), (State.reset.marks.x.get i)[j]? ≠ some true) ∧
  (∀ i, State.reset.marks.e.get i = false ∧ State.reset.marks.metaReg.get i = false)

/-- R500, R501, R77: the hardware reset, and in every state the soft reset, a CTRL write with bit 0 = 1, give the reset state of
R85 for the machine's parameters and abandon the command in flight; a CTRL write with bit 0 = 0 has no effect. The turn list
is the model's (log 2). -/
def Obligations.SoftResetFromEveryState : Prop :=
  ∀ (s : State) (ts : List Turn),
    (∀ d, d.getLsbD 0 = true → s.turns = .hostWrite 0x0006 d :: ts → ∃ t, step s = .next t ∧
      t.cfg.word = 0x00170008 ∧ t.statusWord = 0 ∧ t.loss = .exactlyZero ∧ t.error.info = 0 ∧ t.latch = none ∧
      t.params = s.params ∧ t.turns = ts ∧ (∀ (i : Idx) (j : Nat), (t.marks.x.get i)[j]? ≠ some true) ∧
      (∀ i, t.marks.e.get i = false ∧ t.marks.metaReg.get i = false) ∧
      step { s with turns := .hardReset :: ts } = .next t) ∧
    (∀ d, d.getLsbD 0 = false → s.turns = .hostWrite 0x0006 d :: ts → step s = .next { s with turns := ts })

/-- R7, R10, R52, R74, R78, R81: every step keeps the invariant, from every state that has it. -/
def Obligations.EveryStepKeepsInv : Prop :=
  ∀ s t : State, s.Inv → step s = .next t → t.Inv

/-- The reset state has the invariant. -/
def Obligations.InvHoldsAtReset : Prop := State.reset.Inv

/-! ### Runs that read no unwritten word (R81, R456) -/

/-- R81: "no value may be assumed": two states that differ only in the values of unwritten words are not told apart by a strict
step. So no strict run depends on the values that log 1 gives X, E and META at reset. -/
def Obligations.StrictRunsIgnoreUnwrittenValues : Prop :=
  ∀ s t : State, s.Inv → t.Inv → AgreeOnWritten s t → SameOutcome (strictStep s) (strictStep t)

/-! ### Rounding-mode codes (30_encoding.md, 43_normalize_round.md) -/

/-- R158, R159, R300: the codes of the rounding modes, in a NORM word's rm field and in CFG.RM, and the f bit. Codes 0 to 3 name
the four modes, 7 in the rm field asks for CFG.RM, and a CFG.RM above 3 names none. -/
def Obligations.RoundingModeCodes : Prop :=
  (∀ (w : Word) (rd ra : Idx) (rm : RmSel) (l : Bool), decode w = .ok (.norm rd ra rm l) →
    (rm = .fixed .nearestTiesToEven ↔ field w 17 3 = 0) ∧ (rm = .fixed .towardZero ↔ field w 17 3 = 1) ∧
    (rm = .fixed .towardPositive ↔ field w 17 3 = 2) ∧ (rm = .fixed .towardNegative ↔ field w 17 3 = 3) ∧
    (rm = .dyn ↔ field w 17 3 = 7) ∧ (l = true ↔ field w 20 1 = 1) ∧ field w 0 8 = 0x20) ∧
  (∀ (c : Cfg) (m : RoundingMode), c.mode (.fixed m) = some m) ∧
  (∀ c : Cfg,
    (c.mode .dyn = some .nearestTiesToEven ↔ c.rm.toNat = 0) ∧ (c.mode .dyn = some .towardZero ↔ c.rm.toNat = 1) ∧
    (c.mode .dyn = some .towardPositive ↔ c.rm.toNat = 2) ∧ (c.mode .dyn = some .towardNegative ↔ c.rm.toNat = 3) ∧
    (c.mode .dyn = none ↔ 3 < c.rm.toNat))
end

