-- ==== Sys2Proof/Laws/Encoding.lean ====
section
/-! SUPPORT. What each field of an encoded word is (R152, R153): one lemma per field and format, from which decoding follows. -/

namespace Sys2Proof

theorem RmSel.code_lt (rm : RmSel) : rm.code < 8 := by
  rcases rm with m | _ <;> (try cases m) <;> decide

@[simp] theorem rmSel_code (rm : RmSel) : rmSel rm.code = some rm := by
  rcases rm with m | _ <;> (try cases m) <;> rfl

theorem rmSel_eq_some {k : Nat} {rm : RmSel} (h : rmSel k = some rm) : k = rm.code := by
  unfold rmSel at h
  split at h <;> cases h <;> rfl

theorem Instr.opcode_lt (i : Instr) : i.opcode < 256 := by
  cases i <;> (simp only [Instr.opcode]; decide)

/-! ### The words as numbers -/

theorem encodeR_toNat {op : Nat} (hop : op < 256) (rd ra rb : Idx) :
    (encodeR op rd ra rb).toNat = op + 2 ^ 8 * rd.val + 2 ^ 11 * ra.val + 2 ^ 14 * rb.val := by
  have := rd.isLt; have := ra.isLt; have := rb.isLt
  simp only [encodeR, BitVec.toNat_ofNat]
  omega

theorem encodeI_toNat {op : Nat} (hop : op < 256) (rd ra : Idx) (imm : BitVec 16) :
    (encodeI op rd ra imm).toNat = op + 2 ^ 8 * rd.val + 2 ^ 11 * ra.val + 2 ^ 16 * imm.toNat := by
  have := rd.isLt; have := ra.isLt; have := imm.isLt
  simp only [encodeI, BitVec.toNat_ofNat]
  omega

theorem encodeNorm_toNat {op : Nat} (hop : op < 256) (rd ra : Idx) (rm : RmSel) (l : Bool) :
    (encodeNorm op rd ra rm l).toNat =
      op + 2 ^ 8 * rd.val + 2 ^ 11 * ra.val + 2 ^ 17 * rm.code + 2 ^ 20 * l.toNat := by
  have := rd.isLt; have := ra.isLt; have := rm.code_lt; have := l.toNat_le
  simp only [encodeNorm, BitVec.toNat_ofNat]
  omega

/-! ### The R format -/

section RFormat

variable {op : Nat} (hop : op < 256) (rd ra rb : Idx)

include hop

theorem encodeR_opcode : field (encodeR op rd ra rb) 0 8 = op := by
  have := rd.isLt; have := ra.isLt; have := rb.isLt
  simp only [field, encodeR_toNat hop]
  omega

theorem encodeR_rd : rdField (encodeR op rd ra rb) = rd := by
  have := rd.isLt; have := ra.isLt; have := rb.isLt
  simp only [rdField, regField, field, encodeR_toNat hop, Fin.ext_iff]
  omega

theorem encodeR_ra : raField (encodeR op rd ra rb) = ra := by
  have := rd.isLt; have := ra.isLt; have := rb.isLt
  simp only [raField, regField, field, encodeR_toNat hop, Fin.ext_iff]
  omega

theorem encodeR_rb : rbField (encodeR op rd ra rb) = rb := by
  have := rd.isLt; have := ra.isLt; have := rb.isLt
  simp only [rbField, regField, field, encodeR_toNat hop, Fin.ext_iff]
  omega

theorem encodeR_zeroAboveRb : zeroAboveRb (encodeR op rd ra rb) = true := by
  have := rd.isLt; have := ra.isLt; have := rb.isLt
  simp only [zeroAboveRb, field, encodeR_toNat hop, beq_iff_eq]
  omega

theorem encodeR_zeroFromRb : zeroFromRb (encodeR op rd ra 0) = true := by
  have := rd.isLt; have := ra.isLt
  simp only [zeroFromRb, field, encodeR_toNat hop, beq_iff_eq]
  simp
  omega

theorem encodeR_zeroRd : zeroRdAndAboveRb (encodeR op 0 ra rb) = true := by
  have := ra.isLt; have := rb.isLt
  simp only [zeroRdAndAboveRb, zeroAboveRb, field, encodeR_toNat hop, Bool.and_eq_true, beq_iff_eq]
  simp
  omega

end RFormat

/-! ### The I format -/

section IFormat

variable {op : Nat} (hop : op < 256) (rd ra : Idx) (imm : BitVec 16)

include hop

theorem encodeI_opcode : field (encodeI op rd ra imm) 0 8 = op := by
  have := rd.isLt; have := ra.isLt; have := imm.isLt
  simp only [field, encodeI_toNat hop]
  omega

theorem encodeI_rd : rdField (encodeI op rd ra imm) = rd := by
  have := rd.isLt; have := ra.isLt; have := imm.isLt
  simp only [rdField, regField, field, encodeI_toNat hop, Fin.ext_iff]
  omega

theorem encodeI_ra : raField (encodeI op rd ra imm) = ra := by
  have := rd.isLt; have := ra.isLt; have := imm.isLt
  simp only [raField, regField, field, encodeI_toNat hop, Fin.ext_iff]
  omega

theorem encodeI_imm : immField (encodeI op rd ra imm) = imm := by
  have := rd.isLt; have := ra.isLt; have := imm.isLt
  apply BitVec.eq_of_toNat_eq
  simp only [immField, field, encodeI_toNat hop, BitVec.toNat_ofNat]
  omega

theorem encodeI_zeroIReserved : zeroIReserved (encodeI op rd ra imm) = true := by
  have := rd.isLt; have := ra.isLt; have := imm.isLt
  simp only [zeroIReserved, field, encodeI_toNat hop, beq_iff_eq]
  omega

theorem encodeI_zeroRa : zeroIReservedAndRa (encodeI op rd 0 imm) = true := by
  have := rd.isLt; have := imm.isLt
  simp only [zeroIReservedAndRa, field, encodeI_toNat hop, beq_iff_eq]
  simp
  omega

end IFormat

/-! ### NORM -/

section NormFormat

variable {op : Nat} (hop : op < 256) (rd ra : Idx) (rm : RmSel) (l : Bool)

include hop

theorem encodeNorm_opcode : field (encodeNorm op rd ra rm l) 0 8 = op := by
  have := rd.isLt; have := ra.isLt; have := rm.code_lt; have := l.toNat_le
  simp only [field, encodeNorm_toNat hop]
  omega

theorem encodeNorm_rd : rdField (encodeNorm op rd ra rm l) = rd := by
  have := rd.isLt; have := ra.isLt; have := rm.code_lt; have := l.toNat_le
  simp only [rdField, regField, field, encodeNorm_toNat hop, Fin.ext_iff]
  omega

theorem encodeNorm_ra : raField (encodeNorm op rd ra rm l) = ra := by
  have := rd.isLt; have := ra.isLt; have := rm.code_lt; have := l.toNat_le
  simp only [raField, regField, field, encodeNorm_toNat hop, Fin.ext_iff]
  omega

theorem encodeNorm_rm : field (encodeNorm op rd ra rm l) 17 3 = rm.code := by
  have := rd.isLt; have := ra.isLt; have := rm.code_lt; have := l.toNat_le
  simp only [field, encodeNorm_toNat hop]
  omega

theorem encodeNorm_l : field (encodeNorm op rd ra rm l) 20 1 = l.toNat := by
  have := rd.isLt; have := ra.isLt; have := rm.code_lt; have := l.toNat_le
  simp only [field, encodeNorm_toNat hop]
  omega

theorem encodeNorm_rb_zero : field (encodeNorm op rd ra rm l) 14 3 = 0 := by
  have := rd.isLt; have := ra.isLt; have := rm.code_lt; have := l.toNat_le
  simp only [field, encodeNorm_toNat hop]
  omega

theorem encodeNorm_reserved_zero : field (encodeNorm op rd ra rm l) 21 11 = 0 := by
  have := rd.isLt; have := ra.isLt; have := rm.code_lt; have := l.toNat_le
  simp only [field, encodeNorm_toNat hop]
  omega

end NormFormat

end Sys2Proof
end

