-- ==== Sys2Proof/Laws/Flags.lean ====
section
/-! SUPPORT. The clamped forms of Flags.lean are the unclamped ones of R204 and R251 (log 8). -/

namespace Sys2Proof.Machine

theorem lt_two_pow_msb_succ (v : Nat) : v < 2 ^ (msb v + 1) := Nat.lt_log2_self

theorem two_pow_msb_le {v : Nat} (h : v ≠ 0) : 2 ^ msb v ≤ v := Nat.log2_self_le h

/-- R252: once the amount is above the width of the value, every discarded bit lies below half a unit. -/
theorem classifyExact_of_wide {v n : Nat} (h : v < 2 ^ (n - 1)) (hn : 1 ≤ n) :
    classifyExact v n = if v = 0 then .exactlyZero else .lessThanHalf := by
  have hv : v % 2 ^ n = v := Nat.mod_eq_of_lt (h.trans_le (Nat.pow_le_pow_right (by decide) (by omega)))
  unfold classifyExact
  simp only [hv]
  rw [if_neg (by omega)]
  split
  · rfl
  · simp

/-- The classifier is R251's for every value and amount. -/
theorem classify_eq_exact (v n : Nat) : classify v n = classifyExact v n := by
  unfold classify
  rcases Nat.le_total n (msb v + 2) with h | h
  · rw [Nat.min_eq_left h]
  · rw [Nat.min_eq_right h]
    have hw := lt_two_pow_msb_succ v
    rw [classifyExact_of_wide (n := msb v + 2) (by simpa using hw) (by omega),
      classifyExact_of_wide (n := n) (hw.trans_le (Nat.pow_le_pow_right (by decide) (by omega))) (by omega)]

/-- The value left by a left shift, with no cut of the amount (R204). -/
theorem shlValue_eq (w v n : Nat) : shlValue w v n = v <<< n % 2 ^ w := by
  unfold shlValue shiftedLeft
  rcases Nat.le_total n w with h | h
  · rw [Nat.min_eq_left h]
  · rw [Nat.min_eq_right h]
    obtain ⟨k, rfl⟩ := Nat.exists_eq_add_of_le h
    have h2 : v * (2 ^ w * 2 ^ k) = 2 ^ w * (v * 2 ^ k) := by ac_rfl
    simp [Nat.shiftLeft_eq, Nat.pow_add, h2]

/-- The lost bits of a left shift, with no cut of the amount (R204). -/
theorem shlCarry_eq (w v n : Nat) : shlCarry w v n = true ↔ (v <<< n) >>> w ≠ 0 := by
  unfold shlCarry shiftedLeft
  rcases Nat.le_total n w with h | h
  · simp [Nat.min_eq_left h]
  · rw [Nat.min_eq_right h]
    obtain ⟨k, rfl⟩ := Nat.exists_eq_add_of_le h
    have h2 : v * (2 ^ w * 2 ^ k) = 2 ^ w * (v * 2 ^ k) := by ac_rfl
    have hp : 0 < 2 ^ w := Nat.two_pow_pos w
    simp [Nat.shiftLeft_eq, Nat.shiftRight_eq_div_pow, Nat.pow_add, h2, Nat.mul_div_cancel_left _ hp,
      Nat.mul_div_cancel _ hp]

/-- The difference modulo 2^W (R202). -/
theorem subWrap_cast (w a b : Nat) : ((subWrap w a b : Nat) : Int) = ((a : Int) - (b : Int)) % (2 ^ w : Int) := by
  unfold subWrap
  have hp : (0 : Int) < 2 ^ w := by positivity
  push_cast
  exact Int.toNat_of_nonneg (Int.emod_nonneg _ hp.ne')

theorem subWrap_lt (w a b : Nat) : subWrap w a b < 2 ^ w := by
  have h := subWrap_cast w a b
  have hp : (0 : Int) < 2 ^ w := by positivity
  have := Int.emod_lt_of_pos ((a : Int) - (b : Int)) hp
  exact_mod_cast h ▸ this

end Sys2Proof.Machine
end

