-- ==== Sys2Proof/Laws/State.lean ====
section
/-! SUPPORT. One lemma per field per update, so that no later proof unfolds a record update. -/

namespace Sys2Proof.Machine

/-! ### Banks -/

@[simp] theorem Bank.get_all {α : Type} (a : α) (i : Idx) : (Bank.all a).get i = a := by
  fin_cases i <;> rfl

@[simp] theorem Bank.get_set_self {α : Type} (b : Bank α) (i : Idx) (a : α) : (b.set i a).get i = a := by
  fin_cases i <;> rfl

theorem Bank.get_set_ne {α : Type} (b : Bank α) {i j : Idx} (a : α) (h : j ≠ i) : (b.set i a).get j = b.get j := by
  fin_cases i <;> fin_cases j <;> first | rfl | exact absurd rfl h

theorem Bank.get_set {α : Type} (b : Bank α) (i j : Idx) (a : α) :
    (b.set i a).get j = if j = i then a else b.get j := by
  by_cases h : j = i
  · subst h; simp
  · simp [h, Bank.get_set_ne b a h]

theorem Bank.ext_get {α : Type} {b c : Bank α} (h : ∀ i, b.get i = c.get i) : b = c := by
  cases b; cases c
  have := h 0; have := h 1; have := h 2; have := h 3
  have := h 4; have := h 5; have := h 6; have := h 7
  simp_all [Bank.get]

/-! ### Updates -/

@[simp] theorem State.writeX_params (s : State) (i : Idx) (v : Nat) : (s.writeX i v).params = s.params := rfl
@[simp] theorem State.writeX_x (s : State) (i : Idx) (v : Nat) : (s.writeX i v).x = s.x.set i v := rfl
@[simp] theorem State.writeX_e (s : State) (i : Idx) (v : Nat) : (s.writeX i v).e = s.e := rfl
@[simp] theorem State.writeX_sgn (s : State) (i : Idx) (v : Nat) : (s.writeX i v).sgn = s.sgn := rfl
@[simp] theorem State.writeX_cat (s : State) (i : Idx) (v : Nat) : (s.writeX i v).cat = s.cat := rfl
@[simp] theorem State.writeX_cfg (s : State) (i : Idx) (v : Nat) : (s.writeX i v).cfg = s.cfg := rfl
@[simp] theorem State.writeX_loss (s : State) (i : Idx) (v : Nat) : (s.writeX i v).loss = s.loss := rfl
@[simp] theorem State.writeX_flags (s : State) (i : Idx) (v : Nat) : (s.writeX i v).flags = s.flags := rfl
@[simp] theorem State.writeX_error (s : State) (i : Idx) (v : Nat) : (s.writeX i v).error = s.error := rfl
@[simp] theorem State.writeX_latch (s : State) (i : Idx) (v : Nat) : (s.writeX i v).latch = s.latch := rfl
@[simp] theorem State.writeX_rdata (s : State) (i : Idx) (v : Nat) : (s.writeX i v).rdata = s.rdata := rfl
@[simp] theorem State.writeX_marks (s : State) (i : Idx) (v : Nat) : (s.writeX i v).marks = { s.marks with x := s.marks.x.set i (List.replicate s.params.words true) } := rfl
@[simp] theorem State.writeX_turns (s : State) (i : Idx) (v : Nat) : (s.writeX i v).turns = s.turns := rfl
@[simp] theorem State.writeX_draws (s : State) (i : Idx) (v : Nat) : (s.writeX i v).draws = s.draws := rfl

@[simp] theorem State.writeE_params (s : State) (i : Idx) (v : Int) : (s.writeE i v).params = s.params := rfl
@[simp] theorem State.writeE_x (s : State) (i : Idx) (v : Int) : (s.writeE i v).x = s.x := rfl
@[simp] theorem State.writeE_e (s : State) (i : Idx) (v : Int) : (s.writeE i v).e = s.e.set i (BitVec.ofInt 32 v) := rfl
@[simp] theorem State.writeE_sgn (s : State) (i : Idx) (v : Int) : (s.writeE i v).sgn = s.sgn := rfl
@[simp] theorem State.writeE_cat (s : State) (i : Idx) (v : Int) : (s.writeE i v).cat = s.cat := rfl
@[simp] theorem State.writeE_cfg (s : State) (i : Idx) (v : Int) : (s.writeE i v).cfg = s.cfg := rfl
@[simp] theorem State.writeE_loss (s : State) (i : Idx) (v : Int) : (s.writeE i v).loss = s.loss := rfl
@[simp] theorem State.writeE_flags (s : State) (i : Idx) (v : Int) : (s.writeE i v).flags = s.flags := rfl
@[simp] theorem State.writeE_error (s : State) (i : Idx) (v : Int) : (s.writeE i v).error = s.error := rfl
@[simp] theorem State.writeE_latch (s : State) (i : Idx) (v : Int) : (s.writeE i v).latch = s.latch := rfl
@[simp] theorem State.writeE_rdata (s : State) (i : Idx) (v : Int) : (s.writeE i v).rdata = s.rdata := rfl
@[simp] theorem State.writeE_marks (s : State) (i : Idx) (v : Int) : (s.writeE i v).marks = { s.marks with e := s.marks.e.set i true } := rfl
@[simp] theorem State.writeE_turns (s : State) (i : Idx) (v : Int) : (s.writeE i v).turns = s.turns := rfl
@[simp] theorem State.writeE_draws (s : State) (i : Idx) (v : Int) : (s.writeE i v).draws = s.draws := rfl

@[simp] theorem State.writeMeta_params (s : State) (i : Idx) (g : Bool) (c : Category) : (s.writeMeta i g c).params = s.params := rfl
@[simp] theorem State.writeMeta_x (s : State) (i : Idx) (g : Bool) (c : Category) : (s.writeMeta i g c).x = s.x := rfl
@[simp] theorem State.writeMeta_e (s : State) (i : Idx) (g : Bool) (c : Category) : (s.writeMeta i g c).e = s.e := rfl
@[simp] theorem State.writeMeta_sgn (s : State) (i : Idx) (g : Bool) (c : Category) : (s.writeMeta i g c).sgn = s.sgn.set i g := rfl
@[simp] theorem State.writeMeta_cat (s : State) (i : Idx) (g : Bool) (c : Category) : (s.writeMeta i g c).cat = s.cat.set i c := rfl
@[simp] theorem State.writeMeta_cfg (s : State) (i : Idx) (g : Bool) (c : Category) : (s.writeMeta i g c).cfg = s.cfg := rfl
@[simp] theorem State.writeMeta_loss (s : State) (i : Idx) (g : Bool) (c : Category) : (s.writeMeta i g c).loss = s.loss := rfl
@[simp] theorem State.writeMeta_flags (s : State) (i : Idx) (g : Bool) (c : Category) : (s.writeMeta i g c).flags = s.flags := rfl
@[simp] theorem State.writeMeta_error (s : State) (i : Idx) (g : Bool) (c : Category) : (s.writeMeta i g c).error = s.error := rfl
@[simp] theorem State.writeMeta_latch (s : State) (i : Idx) (g : Bool) (c : Category) : (s.writeMeta i g c).latch = s.latch := rfl
@[simp] theorem State.writeMeta_rdata (s : State) (i : Idx) (g : Bool) (c : Category) : (s.writeMeta i g c).rdata = s.rdata := rfl
@[simp] theorem State.writeMeta_marks (s : State) (i : Idx) (g : Bool) (c : Category) : (s.writeMeta i g c).marks = { s.marks with metaReg := s.marks.metaReg.set i true } := rfl
@[simp] theorem State.writeMeta_turns (s : State) (i : Idx) (g : Bool) (c : Category) : (s.writeMeta i g c).turns = s.turns := rfl
@[simp] theorem State.writeMeta_draws (s : State) (i : Idx) (g : Bool) (c : Category) : (s.writeMeta i g c).draws = s.draws := rfl

@[simp] theorem State.writeLoss_params (s : State) (l : LossFraction) : (s.writeLoss l).params = s.params := rfl
@[simp] theorem State.writeLoss_x (s : State) (l : LossFraction) : (s.writeLoss l).x = s.x := rfl
@[simp] theorem State.writeLoss_e (s : State) (l : LossFraction) : (s.writeLoss l).e = s.e := rfl
@[simp] theorem State.writeLoss_sgn (s : State) (l : LossFraction) : (s.writeLoss l).sgn = s.sgn := rfl
@[simp] theorem State.writeLoss_cat (s : State) (l : LossFraction) : (s.writeLoss l).cat = s.cat := rfl
@[simp] theorem State.writeLoss_cfg (s : State) (l : LossFraction) : (s.writeLoss l).cfg = s.cfg := rfl
@[simp] theorem State.writeLoss_loss (s : State) (l : LossFraction) : (s.writeLoss l).loss = l := rfl
@[simp] theorem State.writeLoss_flags (s : State) (l : LossFraction) : (s.writeLoss l).flags = s.flags := rfl
@[simp] theorem State.writeLoss_error (s : State) (l : LossFraction) : (s.writeLoss l).error = s.error := rfl
@[simp] theorem State.writeLoss_latch (s : State) (l : LossFraction) : (s.writeLoss l).latch = s.latch := rfl
@[simp] theorem State.writeLoss_rdata (s : State) (l : LossFraction) : (s.writeLoss l).rdata = s.rdata := rfl
@[simp] theorem State.writeLoss_marks (s : State) (l : LossFraction) : (s.writeLoss l).marks = s.marks := rfl
@[simp] theorem State.writeLoss_turns (s : State) (l : LossFraction) : (s.writeLoss l).turns = s.turns := rfl
@[simp] theorem State.writeLoss_draws (s : State) (l : LossFraction) : (s.writeLoss l).draws = s.draws := rfl

@[simp] theorem State.writeC_params (s : State) (v : Bool) : (s.writeC v).params = s.params := rfl
@[simp] theorem State.writeC_x (s : State) (v : Bool) : (s.writeC v).x = s.x := rfl
@[simp] theorem State.writeC_e (s : State) (v : Bool) : (s.writeC v).e = s.e := rfl
@[simp] theorem State.writeC_sgn (s : State) (v : Bool) : (s.writeC v).sgn = s.sgn := rfl
@[simp] theorem State.writeC_cat (s : State) (v : Bool) : (s.writeC v).cat = s.cat := rfl
@[simp] theorem State.writeC_cfg (s : State) (v : Bool) : (s.writeC v).cfg = s.cfg := rfl
@[simp] theorem State.writeC_loss (s : State) (v : Bool) : (s.writeC v).loss = s.loss := rfl
@[simp] theorem State.writeC_flags (s : State) (v : Bool) : (s.writeC v).flags = { s.flags with c := v } := rfl
@[simp] theorem State.writeC_error (s : State) (v : Bool) : (s.writeC v).error = s.error := rfl
@[simp] theorem State.writeC_latch (s : State) (v : Bool) : (s.writeC v).latch = s.latch := rfl
@[simp] theorem State.writeC_rdata (s : State) (v : Bool) : (s.writeC v).rdata = s.rdata := rfl
@[simp] theorem State.writeC_marks (s : State) (v : Bool) : (s.writeC v).marks = s.marks := rfl
@[simp] theorem State.writeC_turns (s : State) (v : Bool) : (s.writeC v).turns = s.turns := rfl
@[simp] theorem State.writeC_draws (s : State) (v : Bool) : (s.writeC v).draws = s.draws := rfl

@[simp] theorem State.writeCmp_params (s : State) (v : CmpFlag) : (s.writeCmp v).params = s.params := rfl
@[simp] theorem State.writeCmp_x (s : State) (v : CmpFlag) : (s.writeCmp v).x = s.x := rfl
@[simp] theorem State.writeCmp_e (s : State) (v : CmpFlag) : (s.writeCmp v).e = s.e := rfl
@[simp] theorem State.writeCmp_sgn (s : State) (v : CmpFlag) : (s.writeCmp v).sgn = s.sgn := rfl
@[simp] theorem State.writeCmp_cat (s : State) (v : CmpFlag) : (s.writeCmp v).cat = s.cat := rfl
@[simp] theorem State.writeCmp_cfg (s : State) (v : CmpFlag) : (s.writeCmp v).cfg = s.cfg := rfl
@[simp] theorem State.writeCmp_loss (s : State) (v : CmpFlag) : (s.writeCmp v).loss = s.loss := rfl
@[simp] theorem State.writeCmp_flags (s : State) (v : CmpFlag) : (s.writeCmp v).flags = { s.flags with cmp := v } := rfl
@[simp] theorem State.writeCmp_error (s : State) (v : CmpFlag) : (s.writeCmp v).error = s.error := rfl
@[simp] theorem State.writeCmp_latch (s : State) (v : CmpFlag) : (s.writeCmp v).latch = s.latch := rfl
@[simp] theorem State.writeCmp_rdata (s : State) (v : CmpFlag) : (s.writeCmp v).rdata = s.rdata := rfl
@[simp] theorem State.writeCmp_marks (s : State) (v : CmpFlag) : (s.writeCmp v).marks = s.marks := rfl
@[simp] theorem State.writeCmp_turns (s : State) (v : CmpFlag) : (s.writeCmp v).turns = s.turns := rfl
@[simp] theorem State.writeCmp_draws (s : State) (v : CmpFlag) : (s.writeCmp v).draws = s.draws := rfl

@[simp] theorem State.writeOvf_params (s : State) (v : Bool) : (s.writeOvf v).params = s.params := rfl
@[simp] theorem State.writeOvf_x (s : State) (v : Bool) : (s.writeOvf v).x = s.x := rfl
@[simp] theorem State.writeOvf_e (s : State) (v : Bool) : (s.writeOvf v).e = s.e := rfl
@[simp] theorem State.writeOvf_sgn (s : State) (v : Bool) : (s.writeOvf v).sgn = s.sgn := rfl
@[simp] theorem State.writeOvf_cat (s : State) (v : Bool) : (s.writeOvf v).cat = s.cat := rfl
@[simp] theorem State.writeOvf_cfg (s : State) (v : Bool) : (s.writeOvf v).cfg = s.cfg := rfl
@[simp] theorem State.writeOvf_loss (s : State) (v : Bool) : (s.writeOvf v).loss = s.loss := rfl
@[simp] theorem State.writeOvf_flags (s : State) (v : Bool) : (s.writeOvf v).flags = { s.flags with ovf := v } := rfl
@[simp] theorem State.writeOvf_error (s : State) (v : Bool) : (s.writeOvf v).error = s.error := rfl
@[simp] theorem State.writeOvf_latch (s : State) (v : Bool) : (s.writeOvf v).latch = s.latch := rfl
@[simp] theorem State.writeOvf_rdata (s : State) (v : Bool) : (s.writeOvf v).rdata = s.rdata := rfl
@[simp] theorem State.writeOvf_marks (s : State) (v : Bool) : (s.writeOvf v).marks = s.marks := rfl
@[simp] theorem State.writeOvf_turns (s : State) (v : Bool) : (s.writeOvf v).turns = s.turns := rfl
@[simp] theorem State.writeOvf_draws (s : State) (v : Bool) : (s.writeOvf v).draws = s.draws := rfl

@[simp] theorem State.writeSwap_params (s : State) (v : Bool) : (s.writeSwap v).params = s.params := rfl
@[simp] theorem State.writeSwap_x (s : State) (v : Bool) : (s.writeSwap v).x = s.x := rfl
@[simp] theorem State.writeSwap_e (s : State) (v : Bool) : (s.writeSwap v).e = s.e := rfl
@[simp] theorem State.writeSwap_sgn (s : State) (v : Bool) : (s.writeSwap v).sgn = s.sgn := rfl
@[simp] theorem State.writeSwap_cat (s : State) (v : Bool) : (s.writeSwap v).cat = s.cat := rfl
@[simp] theorem State.writeSwap_cfg (s : State) (v : Bool) : (s.writeSwap v).cfg = s.cfg := rfl
@[simp] theorem State.writeSwap_loss (s : State) (v : Bool) : (s.writeSwap v).loss = s.loss := rfl
@[simp] theorem State.writeSwap_flags (s : State) (v : Bool) : (s.writeSwap v).flags = { s.flags with swap := v } := rfl
@[simp] theorem State.writeSwap_error (s : State) (v : Bool) : (s.writeSwap v).error = s.error := rfl
@[simp] theorem State.writeSwap_latch (s : State) (v : Bool) : (s.writeSwap v).latch = s.latch := rfl
@[simp] theorem State.writeSwap_rdata (s : State) (v : Bool) : (s.writeSwap v).rdata = s.rdata := rfl
@[simp] theorem State.writeSwap_marks (s : State) (v : Bool) : (s.writeSwap v).marks = s.marks := rfl
@[simp] theorem State.writeSwap_turns (s : State) (v : Bool) : (s.writeSwap v).turns = s.turns := rfl
@[simp] theorem State.writeSwap_draws (s : State) (v : Bool) : (s.writeSwap v).draws = s.draws := rfl

@[simp] theorem State.raiseByPort_params (s : State) (k : ErrCode) (w : Word) : (s.raiseByPort k w).params = s.params := rfl
@[simp] theorem State.raiseByPort_x (s : State) (k : ErrCode) (w : Word) : (s.raiseByPort k w).x = s.x := rfl
@[simp] theorem State.raiseByPort_e (s : State) (k : ErrCode) (w : Word) : (s.raiseByPort k w).e = s.e := rfl
@[simp] theorem State.raiseByPort_sgn (s : State) (k : ErrCode) (w : Word) : (s.raiseByPort k w).sgn = s.sgn := rfl
@[simp] theorem State.raiseByPort_cat (s : State) (k : ErrCode) (w : Word) : (s.raiseByPort k w).cat = s.cat := rfl
@[simp] theorem State.raiseByPort_cfg (s : State) (k : ErrCode) (w : Word) : (s.raiseByPort k w).cfg = s.cfg := rfl
@[simp] theorem State.raiseByPort_loss (s : State) (k : ErrCode) (w : Word) : (s.raiseByPort k w).loss = s.loss := rfl
@[simp] theorem State.raiseByPort_flags (s : State) (k : ErrCode) (w : Word) : (s.raiseByPort k w).flags = s.flags := rfl
@[simp] theorem State.raiseByPort_error (s : State) (k : ErrCode) (w : Word) : (s.raiseByPort k w).error = s.error.raise k w := rfl
@[simp] theorem State.raiseByPort_latch (s : State) (k : ErrCode) (w : Word) : (s.raiseByPort k w).latch = s.latch := rfl
@[simp] theorem State.raiseByPort_rdata (s : State) (k : ErrCode) (w : Word) : (s.raiseByPort k w).rdata = s.rdata := rfl
@[simp] theorem State.raiseByPort_marks (s : State) (k : ErrCode) (w : Word) : (s.raiseByPort k w).marks = s.marks := rfl
@[simp] theorem State.raiseByPort_turns (s : State) (k : ErrCode) (w : Word) : (s.raiseByPort k w).turns = s.turns := rfl
@[simp] theorem State.raiseByPort_draws (s : State) (k : ErrCode) (w : Word) : (s.raiseByPort k w).draws = s.draws := rfl

@[simp] theorem State.retire_params (s : State) : (s.retire).params = s.params := rfl
@[simp] theorem State.retire_x (s : State) : (s.retire).x = s.x := rfl
@[simp] theorem State.retire_e (s : State) : (s.retire).e = s.e := rfl
@[simp] theorem State.retire_sgn (s : State) : (s.retire).sgn = s.sgn := rfl
@[simp] theorem State.retire_cat (s : State) : (s.retire).cat = s.cat := rfl
@[simp] theorem State.retire_cfg (s : State) : (s.retire).cfg = s.cfg := rfl
@[simp] theorem State.retire_loss (s : State) : (s.retire).loss = s.loss := rfl
@[simp] theorem State.retire_flags (s : State) : (s.retire).flags = s.flags := rfl
@[simp] theorem State.retire_error (s : State) : (s.retire).error = s.error := rfl
@[simp] theorem State.retire_latch (s : State) : (s.retire).latch = none := rfl
@[simp] theorem State.retire_rdata (s : State) : (s.retire).rdata = s.rdata := rfl
@[simp] theorem State.retire_marks (s : State) : (s.retire).marks = s.marks := rfl
@[simp] theorem State.retire_turns (s : State) : (s.retire).turns = s.turns := rfl
@[simp] theorem State.retire_draws (s : State) : (s.retire).draws = s.draws := rfl

@[simp] theorem State.withTurns_params (s : State) (ts : List Turn) : (s.withTurns ts).params = s.params := rfl
@[simp] theorem State.withTurns_x (s : State) (ts : List Turn) : (s.withTurns ts).x = s.x := rfl
@[simp] theorem State.withTurns_e (s : State) (ts : List Turn) : (s.withTurns ts).e = s.e := rfl
@[simp] theorem State.withTurns_sgn (s : State) (ts : List Turn) : (s.withTurns ts).sgn = s.sgn := rfl
@[simp] theorem State.withTurns_cat (s : State) (ts : List Turn) : (s.withTurns ts).cat = s.cat := rfl
@[simp] theorem State.withTurns_cfg (s : State) (ts : List Turn) : (s.withTurns ts).cfg = s.cfg := rfl
@[simp] theorem State.withTurns_loss (s : State) (ts : List Turn) : (s.withTurns ts).loss = s.loss := rfl
@[simp] theorem State.withTurns_flags (s : State) (ts : List Turn) : (s.withTurns ts).flags = s.flags := rfl
@[simp] theorem State.withTurns_error (s : State) (ts : List Turn) : (s.withTurns ts).error = s.error := rfl
@[simp] theorem State.withTurns_latch (s : State) (ts : List Turn) : (s.withTurns ts).latch = s.latch := rfl
@[simp] theorem State.withTurns_rdata (s : State) (ts : List Turn) : (s.withTurns ts).rdata = s.rdata := rfl
@[simp] theorem State.withTurns_marks (s : State) (ts : List Turn) : (s.withTurns ts).marks = s.marks := rfl
@[simp] theorem State.withTurns_turns (s : State) (ts : List Turn) : (s.withTurns ts).turns = ts := rfl
@[simp] theorem State.withTurns_draws (s : State) (ts : List Turn) : (s.withTurns ts).draws = s.draws := rfl

end Sys2Proof.Machine
end

