-- ==== Sys2Proof/Laws/Ops.lean ====
section
/-! SUPPORT. What reading after writing gives, what ending a command does, and the frame of each write. -/

namespace Sys2Proof.Machine

/-! ### Reading after writing -/

@[simp] theorem State.readX_writeX (s : State) (i j : Idx) (v : Nat) :
    (s.writeX i v).readX j = if j = i then v else s.readX j := by
  simp [State.readX, Bank.get_set]

@[simp] theorem State.readE_writeX (s : State) (i j : Idx) (v : Nat) : (s.writeX i v).readE j = s.readE j := rfl

@[simp] theorem State.readX_writeE (s : State) (i j : Idx) (v : Int) : (s.writeE i v).readX j = s.readX j := rfl

@[simp] theorem State.readX_writeMeta (s : State) (i j : Idx) (g : Bool) (c : Category) :
    (s.writeMeta i g c).readX j = s.readX j := rfl

@[simp] theorem State.readE_writeMeta (s : State) (i j : Idx) (g : Bool) (c : Category) :
    (s.writeMeta i g c).readE j = s.readE j := rfl

@[simp] theorem State.readX_retire (s : State) (j : Idx) : s.retire.readX j = s.readX j := rfl
@[simp] theorem State.readE_retire (s : State) (j : Idx) : s.retire.readE j = s.readE j := rfl
@[simp] theorem State.readF_retire (s : State) (j : Idx) : s.retire.readF j = s.readF j := rfl
@[simp] theorem State.readX_writeC (s : State) (v : Bool) (j : Idx) : (s.writeC v).readX j = s.readX j := rfl
@[simp] theorem State.readE_writeC (s : State) (v : Bool) (j : Idx) : (s.writeC v).readE j = s.readE j := rfl
@[simp] theorem State.readX_writeCmp (s : State) (v : CmpFlag) (j : Idx) : (s.writeCmp v).readX j = s.readX j := rfl
@[simp] theorem State.readE_writeCmp (s : State) (v : CmpFlag) (j : Idx) : (s.writeCmp v).readE j = s.readE j := rfl
@[simp] theorem State.readX_writeLoss (s : State) (v : LossFraction) (j : Idx) : (s.writeLoss v).readX j = s.readX j := rfl
@[simp] theorem State.readE_writeLoss (s : State) (v : LossFraction) (j : Idx) : (s.writeLoss v).readE j = s.readE j := rfl
@[simp] theorem State.readF_writeLoss (s : State) (v : LossFraction) (j : Idx) : (s.writeLoss v).readF j = s.readF j := rfl
@[simp] theorem State.readF_writeOvf (s : State) (v : Bool) (j : Idx) : (s.writeOvf v).readF j = s.readF j := rfl
@[simp] theorem State.readF_writeSwap (s : State) (v : Bool) (j : Idx) : (s.writeSwap v).readF j = s.readF j := rfl

/-- A 32-bit register holds every integer of the signed range (R10, R270). -/
theorem toInt_ofInt_of_fits {v : Int} (h : ExpFits v) : (BitVec.ofInt 32 v).toInt = v := by
  rw [BitVec.toInt_ofInt]
  obtain ⟨h1, h2⟩ := h
  exact Int.bmod_eq_of_le (by omega) (by omega)

theorem State.readE_writeE_self (s : State) (i : Idx) {v : Int} (h : ExpFits v) : (s.writeE i v).readE i = v := by
  simp [State.readE, toInt_ofInt_of_fits h]

theorem State.readE_writeE_ne (s : State) {i j : Idx} (v : Int) (h : j ≠ i) : (s.writeE i v).readE j = s.readE j := by
  simp [State.readE, Bank.get_set_ne _ _ h]

theorem readE_fits (s : State) (i : Idx) : ExpFits (s.readE i) := by
  have h1 := BitVec.le_toInt (s.e.get i)
  have h2 := BitVec.toInt_lt (x := s.e.get i)
  exact ⟨by simpa [State.readE] using h1, by have := h2; simp only [State.readE]; omega⟩

/-- F[i] after F[i] <- f, when the exponent fits its register. -/
theorem State.readF_writeF_self (s : State) (i : Idx) {f : FloatReg} (h : ExpFits f.exp) :
    (s.writeF i f).readF i = f := by
  have he : (s.writeF i f).readE i = f.exp := by
    simp [State.writeF, State.readE_writeE_self _ _ h]
  cases f
  simp_all [State.readF, State.writeF]

/-! ### The end of a command -/

@[simp] theorem State.finish_ok (s t : State) : s.finish (.ok t) = .next t.retire := rfl

@[simp] theorem State.finish_error (s : State) (k : ErrCode) : s.finish (.error k) = .next (s.raiseByCommand k) := rfl

/-- Everything the end of a command can be (R114, R452). -/
theorem State.finish_cases {s u : State} {r : Except ErrCode State} (h : s.finish r = .next u) :
    (∃ t, r = .ok t ∧ u = t.retire) ∨ (∃ k, r = .error k ∧ u = s.raiseByCommand k) := by
  cases r with
  | ok t => exact .inl ⟨t, rfl, by simpa using h.symm⟩
  | error k => exact .inr ⟨k, rfl, by simpa using h.symm⟩

/-- A command's end is always a next state. -/
theorem State.finish_next (s : State) (r : Except ErrCode State) : ∃ u, s.finish r = .next u := by
  cases r <;> simp

/-- Raising an error by the command in flight is the error entry of R452. -/
theorem State.raiseByCommand_eq (s : State) (k : ErrCode) : s.raiseByCommand k = s.afterError k s.commandWord := by
  unfold State.raiseByCommand State.raiseByPort State.retire State.afterError ErrorState.raise
  cases h : s.error.err
  · simp
  · cases he : s.error
    simp_all

theorem raisesError_of {i : Instr} {s : State} {k : ErrCode} (h : exec i s = s.finish (.error k)) :
    RaisesError i s k := by
  intro w hw
  rw [h, State.finish_error, State.raiseByCommand_eq]
  simp [State.commandWord, hw]

/-! ### Frames -/

theorem frame_writeX (s : State) (rd : Idx) (v : Nat) : Frame s (s.writeX rd v).retire [rd] [] [] := by
  constructor <;> simp +contextual [State.readX, State.readE, State.WrittenX, Bank.get_set]

theorem frame_writeE (s : State) (rd : Idx) (v : Int) : Frame s (s.writeE rd v).retire [] [rd] [] := by
  constructor <;> simp +contextual [State.readX, State.readE, State.WrittenX, Bank.get_set]

theorem frame_writeF (s : State) (rd : Idx) (f : FloatReg) : FloatFrame s (s.writeF rd f).retire rd := by
  constructor <;> simp +contextual [State.readX, State.readE, State.WrittenX, Bank.get_set, State.writeF]

theorem frame_none (s : State) : Frame s s.retire [] [] [] := by
  constructor <;> simp +contextual [State.readX, State.readE, State.WrittenX]

/-! The flags and LOSS are not spoken of by a frame. -/

theorem Frame.writeC {s t : State} {xs es ms : List Idx} (h : Frame s t.retire xs es ms) (v : Bool) :
    Frame s (t.writeC v).retire xs es ms :=
  ⟨h.x, h.e, h.metaReg, h.x_written, h.e_written, h.metaReg_written, h.params, h.cfg, h.error, h.rdata, h.turns,
    h.draws, h.idle⟩

theorem Frame.writeCmp {s t : State} {xs es ms : List Idx} (h : Frame s t.retire xs es ms) (v : CmpFlag) :
    Frame s (t.writeCmp v).retire xs es ms :=
  ⟨h.x, h.e, h.metaReg, h.x_written, h.e_written, h.metaReg_written, h.params, h.cfg, h.error, h.rdata, h.turns,
    h.draws, h.idle⟩

theorem Frame.writeOvf {s t : State} {xs es ms : List Idx} (h : Frame s t.retire xs es ms) (v : Bool) :
    Frame s (t.writeOvf v).retire xs es ms :=
  ⟨h.x, h.e, h.metaReg, h.x_written, h.e_written, h.metaReg_written, h.params, h.cfg, h.error, h.rdata, h.turns,
    h.draws, h.idle⟩

theorem Frame.writeSwap {s t : State} {xs es ms : List Idx} (h : Frame s t.retire xs es ms) (v : Bool) :
    Frame s (t.writeSwap v).retire xs es ms :=
  ⟨h.x, h.e, h.metaReg, h.x_written, h.e_written, h.metaReg_written, h.params, h.cfg, h.error, h.rdata, h.turns,
    h.draws, h.idle⟩

theorem Frame.writeLoss {s t : State} {xs es ms : List Idx} (h : Frame s t.retire xs es ms) (v : LossFraction) :
    Frame s (t.writeLoss v).retire xs es ms :=
  ⟨h.x, h.e, h.metaReg, h.x_written, h.e_written, h.metaReg_written, h.params, h.cfg, h.error, h.rdata, h.turns,
    h.draws, h.idle⟩

end Sys2Proof.Machine
end

