-- ==== Sys2Proof/Laws/Exec.lean ====
section
/-! SUPPORT. Everything a command can do, said once: it ends in an error, or commits one of a few shapes of writes. -/

namespace Sys2Proof.Machine

/-- What a command's commit can be: whole registers with their marks, flags and LOSS, and nothing else. The values written to X
are W-bit values wherever the X registers are. -/
structure Commits (s t : State) : Prop where
  params : t.params = s.params
  cfg : t.cfg = s.cfg
  error : t.error = s.error
  latch : t.latch = s.latch
  rdata : t.rdata = s.rdata
  turns : t.turns = s.turns
  draws : t.draws = s.draws
  x_bound : (∀ i, s.readX i < 2 ^ s.params.w) → ∀ i, t.readX i < 2 ^ s.params.w
  marks_length : (∀ i, (s.marks.x.get i).length = s.params.words) → ∀ i, (t.marks.x.get i).length = s.params.words

theorem Commits.refl (s : State) : Commits s s := ⟨rfl, rfl, rfl, rfl, rfl, rfl, rfl, id, id⟩

theorem Commits.trans {s t u : State} (h : Commits s t) (k : Commits t u) : Commits s u where
  params := k.params.trans h.params
  cfg := k.cfg.trans h.cfg
  error := k.error.trans h.error
  latch := k.latch.trans h.latch
  rdata := k.rdata.trans h.rdata
  turns := k.turns.trans h.turns
  draws := k.draws.trans h.draws
  x_bound := fun b => h.params ▸ k.x_bound (h.params.symm ▸ h.x_bound b)
  marks_length := fun b => h.params ▸ k.marks_length (h.params.symm ▸ h.marks_length b)

theorem commits_writeX (s : State) (i : Idx) (v : Nat) (hv : (∀ i, s.readX i < 2 ^ s.params.w) → v < 2 ^ s.params.w) :
    Commits s (s.writeX i v) where
  params := rfl
  cfg := rfl
  error := rfl
  latch := rfl
  rdata := rfl
  turns := rfl
  draws := rfl
  x_bound := fun b j => by
    rw [State.readX_writeX]
    split
    · exact hv b
    · exact b j
  marks_length := fun b j => by
    simp only [State.writeX_marks, Bank.get_set]
    split
    · simp
    · exact b j

theorem commits_writeE (s : State) (i : Idx) (v : Int) : Commits s (s.writeE i v) :=
  ⟨rfl, rfl, rfl, rfl, rfl, rfl, rfl, id, id⟩

theorem commits_writeMeta (s : State) (i : Idx) (g : Bool) (c : Category) : Commits s (s.writeMeta i g c) :=
  ⟨rfl, rfl, rfl, rfl, rfl, rfl, rfl, id, id⟩

theorem commits_writeF (s : State) (i : Idx) (f : FloatReg)
    (hv : (∀ i, s.readX i < 2 ^ s.params.w) → f.man < 2 ^ s.params.w) : Commits s (s.writeF i f) :=
  ((commits_writeMeta s i f.sign f.cat).trans (commits_writeE _ i f.exp)).trans (commits_writeX _ i f.man hv)

/-! The writes of flags and LOSS. -/

theorem commits_writeC (s : State) (v : Bool) : Commits s (s.writeC v) := ⟨rfl, rfl, rfl, rfl, rfl, rfl, rfl, id, id⟩
theorem commits_writeCmp (s : State) (v : CmpFlag) : Commits s (s.writeCmp v) :=
  ⟨rfl, rfl, rfl, rfl, rfl, rfl, rfl, id, id⟩
theorem commits_writeOvf (s : State) (v : Bool) : Commits s (s.writeOvf v) := ⟨rfl, rfl, rfl, rfl, rfl, rfl, rfl, id, id⟩
theorem commits_writeSwap (s : State) (v : Bool) : Commits s (s.writeSwap v) := ⟨rfl, rfl, rfl, rfl, rfl, rfl, rfl, id, id⟩
theorem commits_writeLoss (s : State) (v : LossFraction) : Commits s (s.writeLoss v) :=
  ⟨rfl, rfl, rfl, rfl, rfl, rfl, rfl, id, id⟩

/-! ### The values written are W-bit values -/

theorem shiftRight_lt {v n b : Nat} (h : v < b) : v >>> n < b := (Nat.shiftRight_le v n).trans_lt h

/-- What NORM writes to X is a W-bit value when its operand is one (R303: P is at most W). -/
theorem normalizeFloat_man_lt {c : Cfg} {mode : RoundingMode} {lin : LossFraction} {f : FloatReg} {r : NormResult} {w : Nat}
    (hl : c.Legal w) (hf : f.man < 2 ^ w) (h : normalizeFloat c mode lin f = .ok r) : r.val.man < 2 ^ w := by
  have hpw : c.prec ≤ w := by have := hl.2.2; simp only [Cfg.prec]; omega
  have hP : 2 ^ c.prec ≤ 2 ^ w := Nat.pow_le_pow_right (by decide) hpw
  have hM : 2 ^ c.mbN < 2 ^ w := Nat.pow_lt_pow_right (by decide) (by simp only [Cfg.prec] at hpw; omega)
  have h0 : 0 < 2 ^ w := Nat.two_pow_pos w
  unfold normalizeFloat at h
  split at h
  · cases h; exact hf
  unfold normalizeFinite at h
  split at h
  · split at h
    · cases h; exact h0
    · cases h
  rename_i hne
  unfold normalizeNonzero at h
  split at h
  · cases h; exact h0
  simp only at h
  split at h
  · split at h
    · cases h
      rename_i hneg _
      simp only [Nat.shiftLeft_eq]
      have hs : -(finalShift c f.exp f.man) ≤ (c.mbN : Int) - (msb f.man : Int) := by
        unfold finalShift
        split
        · rename_i hlt; simp only [alignShift, Cfg.prec] at *; push_cast at *; omega
        · simp only [alignShift, Cfg.prec]; push_cast; omega
      have hexp : msb f.man + 1 + (-(finalShift c f.exp f.man)).toNat ≤ w := by
        simp only [Cfg.prec] at hpw; omega
      calc f.man * 2 ^ (-(finalShift c f.exp f.man)).toNat
          < 2 ^ (msb f.man + 1) * 2 ^ (-(finalShift c f.exp f.man)).toNat :=
            Nat.mul_lt_mul_of_pos_right (lt_two_pow_msb_succ _) (Nat.two_pow_pos _)
        _ = 2 ^ (msb f.man + 1 + (-(finalShift c f.exp f.man)).toNat) := by rw [← Nat.pow_add]
        _ ≤ 2 ^ w := Nat.pow_le_pow_right (by decide) hexp
    · cases h
  · cases h
    rename_i hov hnn
    -- the kept mantissa has at most P bits
    have hkept : f.man >>> (finalShift c f.exp f.man).toNat < 2 ^ c.prec := by
      rw [Nat.shiftRight_eq_div_pow, Nat.div_lt_iff_lt_mul (Nat.two_pow_pos _), ← Nat.pow_add]
      refine (lt_two_pow_msb_succ _).trans_le (Nat.pow_le_pow_right (by decide) ?_)
      have : alignShift c f.man ≤ finalShift c f.exp f.man := by
        unfold finalShift; split <;> omega
      simp only [alignShift] at this
      omega
    unfold roundKept
    simp only
    split_ifs <;> simp_all [Cfg.infinityFloat, Cfg.zeroFloat] <;> omega

/-- What UNPACK writes to X is below 2^P, so a W-bit value. -/
theorem unpackBits_man_lt {c : Cfg} {w : Nat} (hl : c.Legal w) (r : Nat) : (unpackBits c r).man < 2 ^ w := by
  have hM : 2 ^ (c.mbN + 1) ≤ 2 ^ w := Nat.pow_le_pow_right (by decide) (by have := hl.2.2; omega)
  have hm : 2 ^ (c.mbN - 1) ≤ 2 ^ c.mbN := Nat.pow_le_pow_right (by decide) (by omega)
  have hp : 0 < 2 ^ c.mbN := Nat.two_pow_pos _
  have hq : c.rawFrac r < 2 ^ c.mbN := Nat.mod_lt _ hp
  have h2 : 2 ^ (c.mbN + 1) = 2 * 2 ^ c.mbN := by rw [pow_succ]; omega
  unfold unpackBits
  simp only
  split_ifs <;> simp only [Cfg.infinityFloat, Cfg.nanFloat, Cfg.zeroFloat] <;> omega

/-- A pattern of 1 + EB + MB bits. -/
theorem rawPattern_lt {c : Cfg} {g : Bool} {f t : Nat} (hf : f < 2 ^ c.ebN) (ht : t < 2 ^ c.mbN) :
    c.rawPattern g f t < 2 ^ (1 + c.ebN + c.mbN) := by
  have h1 : (f + 1) * 2 ^ c.mbN ≤ 2 ^ (c.ebN + c.mbN) := by rw [pow_add]; exact Nat.mul_le_mul_right _ hf
  have h2 : 2 ^ (1 + c.ebN + c.mbN) = 2 * 2 ^ (c.ebN + c.mbN) := by rw [Nat.add_assoc, pow_add]; rfl
  have h3 := Nat.add_mul f 1 (2 ^ c.mbN)
  unfold Cfg.rawPattern
  rw [h2]
  cases g <;> simp only [Bool.toNat_true, Bool.toNat_false] <;> omega

/-- What PACK writes to X is a pattern of 1 + EB + MB bits, so a W-bit value. -/
theorem packBits_lt {c : Cfg} {w v : Nat} {f : FloatReg} (hl : c.LegalRaw w) (h : packBits c f = .ok v) : v < 2 ^ w := by
  have hmb : 1 ≤ c.mbN := hl.1.2.2.1
  have he : 0 < 2 ^ c.ebN := Nat.two_pow_pos _
  have hm : 0 < 2 ^ c.mbN := Nat.two_pow_pos _
  have hm1 : 2 ^ (c.mbN - 1) < 2 ^ c.mbN := Nat.pow_lt_pow_right (by decide) (by omega)
  have key : ∀ {g : Bool} {e t : Nat}, e < 2 ^ c.ebN → t < 2 ^ c.mbN → c.rawPattern g e t < 2 ^ w := fun h1 h2 =>
    (rawPattern_lt h1 h2).trans_le (Nat.pow_le_pow_right (by decide) hl.2)
  unfold packBits at h
  split at h
  · cases h; exact key (by simp only [Cfg.allOnes]; omega) hm
  · cases h; exact key (by simp only [Cfg.allOnes]; omega) hm1
  · split at h <;> cases h
    exact key he hm
  · split at h <;> cases h
    rename_i hc
    obtain ⟨c1, c2, -, c4, -⟩ := hc
    have hP : 2 ^ c.prec = 2 * 2 ^ c.mbN := by simp only [Cfg.prec, pow_succ]; omega
    unfold packNormal
    split
    · rename_i hs; exact key he hs.2
    · refine key ?_ (by omega)
      have hb : 2 * c.bias + 2 = ((2 ^ c.ebN : Nat) : Int) := by
        have h2 : 2 ≤ c.ebN := hl.1.1
        obtain ⟨k, hk⟩ : ∃ k, c.ebN = k + 1 := ⟨c.ebN - 1, by omega⟩
        unfold Cfg.bias
        rw [hk]; push_cast; simp only [pow_succ]; omega
      simp only [Cfg.eMin, Cfg.eMax] at c1 c2
      omega

theorem alignFloats_man_lt {w : Nat} {a b : FloatReg} {r : AlignResult} (ha : a.man < 2 ^ w) (hb : b.man < 2 ^ w)
    (h : alignFloats w a b = .ok r) : r.val.man < 2 ^ w := by
  unfold alignFloats at h
  split at h
  · cases h
  · split at h <;> cases h
    · exact shiftRight_lt hb
    · exact shiftRight_lt ha

/-! ### The errors of a command: BUSY_WRITE is the port's alone (R451, R455) -/

theorem shiftAmount_error {s : State} {rb : Idx} {k : ErrCode} (h : s.shiftAmount rb = .error k) : k ≠ .busyWrite := by
  unfold State.shiftAmount at h
  split at h <;> cases h
  decide

theorem checkExp_error {t : Int} {k : ErrCode} (h : checkExp t = .error k) : k ≠ .busyWrite := by
  unfold checkExp at h
  split at h <;> cases h
  decide

theorem normMode_error {s : State} {rm : RmSel} {k : ErrCode} (h : s.normMode rm = .error k) : k ≠ .busyWrite := by
  unfold State.normMode at h
  split at h
  · split at h <;> cases h
    decide
  · cases h
    decide

theorem normalizeFloat_error {c : Cfg} {mode : RoundingMode} {lin : LossFraction} {f : FloatReg} {k : ErrCode}
    (h : normalizeFloat c mode lin f = .error k) : k ≠ .busyWrite := by
  unfold normalizeFloat normalizeFinite normalizeNonzero at h
  simp only at h
  split_ifs at h <;> cases h <;> decide

theorem alignFloats_error {w : Nat} {a b : FloatReg} {k : ErrCode} (h : alignFloats w a b = .error k) : k ≠ .busyWrite := by
  unfold alignFloats at h
  split_ifs at h; cases h
  decide

theorem unpackValue_error {s : State} {ra : Idx} {k : ErrCode} (h : s.unpackValue ra = .error k) : k ≠ .busyWrite := by
  unfold State.unpackValue at h
  split_ifs at h <;> cases h <;> decide

theorem packValue_error {s : State} {ra : Idx} {k : ErrCode} (h : s.packValue ra = .error k) : k ≠ .busyWrite := by
  unfold State.packValue packBits at h
  split at h
  · split at h <;> (try split at h) <;> cases h <;> decide
  · cases h
    decide

/-- A command that may raise an error ends in it or in what `f` commits of the value computed. -/
theorem finish_map_cases {α : Type} (s : State) (r : Except ErrCode α) (f : α → State)
    (he : ∀ k, r = .error k → k ≠ .busyWrite) (h : ∀ a, r = .ok a → Commits s (f a)) :
    (∃ k, k ≠ .busyWrite ∧ s.finish (r.map f) = s.finish (.error k)) ∨
      ∃ t, s.finish (r.map f) = s.finish (.ok t) ∧ Commits s t := by
  cases r with
  | ok a => exact .inr ⟨f a, rfl, h a rfl⟩
  | error k => exact .inl ⟨k, he k rfl, rfl⟩

/-! ### The inversion -/

/-- WMUL's two writes: the halves of a product of W-bit values. -/
theorem commits_writeProduct (s : State) (rd ra rb : Idx) :
    Commits s ((s.writeX rd (s.readX ra * s.readX rb % 2 ^ s.params.w)).writeX (rd + 1)
      ((s.readX ra * s.readX rb) >>> s.params.w)) where
  params := rfl
  cfg := rfl
  error := rfl
  latch := rfl
  rdata := rfl
  turns := rfl
  draws := rfl
  x_bound := fun b => by
    have h : (s.readX ra * s.readX rb) >>> s.params.w < 2 ^ s.params.w := by
      rw [Nat.shiftRight_eq_div_pow, Nat.div_lt_iff_lt_mul (Nat.two_pow_pos _)]
      exact Nat.mul_lt_mul'' (b ra) (b rb)
    have h0 := (commits_writeX s rd (s.readX ra * s.readX rb % 2 ^ s.params.w)
      fun _ => Nat.mod_lt _ (Nat.two_pow_pos _)).x_bound b
    exact (commits_writeX (s.writeX rd _) (rd + 1) _ fun _ => h).x_bound h0
  marks_length := fun b =>
    (commits_writeX _ _ 0 fun _ => Nat.two_pow_pos _).marks_length
      ((commits_writeX s rd 0 fun _ => Nat.two_pow_pos _).marks_length b)

theorem commits_shiftLeftInto (s : State) (rd ra : Idx) (n : Nat) : Commits s (s.shiftLeftInto rd ra n) :=
  (commits_writeX _ _ _ fun _ => Nat.mod_lt _ (Nat.two_pow_pos _)).trans (commits_writeC _ _)

theorem commits_shiftRightInto (s : State) (rd ra : Idx) (n : Nat) : Commits s (s.shiftRightInto rd ra n) :=
  (commits_writeX _ _ _ fun b => shiftRight_lt (b ra)).trans (commits_writeLoss _ _)

/-- Everything a command can do (R114, R150, R452), where a wide register holds at least a 16-bit immediate (R7): it ends in an
error other than BUSY_WRITE, or commits writes of registers and flags. -/
theorem exec_cases (i : Instr) (s : State) (hw : 16 ≤ s.params.w) :
    (∃ k, k ≠ .busyWrite ∧ exec i s = s.finish (.error k)) ∨ ∃ t, exec i s = s.finish (.ok t) ∧ Commits s t := by
  cases i with
  | wadd rd ra rb =>
    exact .inr ⟨_, rfl, (commits_writeX _ _ _ fun _ => Nat.mod_lt _ (Nat.two_pow_pos _)).trans (commits_writeC _ _)⟩
  | wsub rd ra rb =>
    exact .inr ⟨_, rfl, (commits_writeX _ _ _ fun _ => subWrap_lt _ _ _).trans (commits_writeC _ _)⟩
  | wmul rd ra rb =>
    cases hev : evenPair rd
    · exact .inl ⟨.illegal, by decide, by simp [exec, execWmul, hev]⟩
    · exact .inr ⟨_, by simp only [exec, execWmul, hev, if_true], commits_writeProduct s rd ra rb⟩
  | wshl rd ra rb => exact finish_map_cases _ _ _ (fun _ => shiftAmount_error) fun n _ => commits_shiftLeftInto s rd ra n
  | wshr rd ra rb => exact finish_map_cases _ _ _ (fun _ => shiftAmount_error) fun n _ => commits_shiftRightInto s rd ra n
  | wshli rd ra imm => exact .inr ⟨_, rfl, commits_shiftLeftInto s rd ra _⟩
  | wshri rd ra imm => exact .inr ⟨_, rfl, commits_shiftRightInto s rd ra _⟩
  | wcmp ra rb => exact .inr ⟨_, rfl, commits_writeCmp _ _⟩
  | wclz rd ra => exact .inr ⟨_, rfl, commits_writeE _ _ _⟩
  | wldi rd imm =>
    exact .inr ⟨_, rfl, commits_writeX _ _ _ fun _ => imm.isLt.trans_le (Nat.pow_le_pow_right (by decide) hw)⟩
  | wmov rd ra => exact .inr ⟨_, rfl, commits_writeX _ _ _ fun b => b ra⟩
  | eadd rd ra rb => exact finish_map_cases _ _ _ (fun _ => checkExp_error) fun v _ => commits_writeE s rd v
  | esub rd ra rb => exact finish_map_cases _ _ _ (fun _ => checkExp_error) fun v _ => commits_writeE s rd v
  | eaddi rd ra imm => exact finish_map_cases _ _ _ (fun _ => checkExp_error) fun v _ => commits_writeE s rd v
  | ecmp ra rb => exact .inr ⟨_, rfl, commits_writeCmp _ _⟩
  | eldi rd imm => exact .inr ⟨_, rfl, commits_writeE _ _ _⟩
  | norm rd ra rm l =>
    cases hm : s.normMode rm with
    | error k => exact .inl ⟨k, normMode_error hm, by simp only [exec, execNorm, hm, Except.bind]⟩
    | ok mode =>
      have hl : s.cfg.Legal s.params.w := by
        by_contra hn
        simp [State.normMode, hn] at hm
      simp only [exec, execNorm, hm, Except.bind]
      exact finish_map_cases _ _ _ (fun _ => normalizeFloat_error) fun r hr =>
        ((commits_writeF _ _ _ fun b => normalizeFloat_man_lt hl (b ra) hr).trans (commits_writeLoss _ _)).trans
          (commits_writeOvf _ _)
  | align rd ra rb =>
    exact finish_map_cases _ _ _ (fun _ => alignFloats_error) fun r hr =>
      ((commits_writeF _ _ _ fun b => alignFloats_man_lt (b ra) (b rb) hr).trans (commits_writeLoss _ _)).trans
        (commits_writeSwap _ _)
  | unpack rd ra =>
    refine finish_map_cases _ _ _ (fun _ => unpackValue_error) fun f hf => commits_writeF _ _ _ fun _ => ?_
    simp only [State.unpackValue] at hf
    split at hf
    · split at hf <;> cases hf
      rename_i hl _
      exact unpackBits_man_lt hl.1 _
    · cases hf
  | pack rd ra =>
    refine finish_map_cases _ _ _ (fun _ => packValue_error) fun v hv => commits_writeX _ _ _ fun _ => ?_
    simp only [State.packValue] at hv
    split at hv
    · rename_i hl
      exact packBits_lt hl hv
    · cases hv
  | fmov rd ra => exact .inr ⟨_, rfl, commits_writeF _ _ _ fun b => b ra⟩

end Sys2Proof.Machine
end

