-- ==== Sys2Proof/Laws/HostPort.lean ====
section
/-! SUPPORT. Which register each address of R102 names, what writing one word of a wide register leaves (R103),
and the port's codes as the spec's numbers. -/

namespace Sys2Proof.Machine

/-! ### The register map -/

section Map

variable {n : Nat} {a : Addr}

theorem portReg_id (h : a.toNat = 0) : portReg n a = .id := by rw [portReg, h]; rfl
theorem portReg_param (h : a.toNat = 1) : portReg n a = .param := by rw [portReg, h]; rfl
theorem portReg_cfg (h : a.toNat = 2) : portReg n a = .cfg := by rw [portReg, h]; rfl
theorem portReg_status (h : a.toNat = 3) : portReg n a = .status := by rw [portReg, h]; rfl
theorem portReg_loss (h : a.toNat = 4) : portReg n a = .loss := by rw [portReg, h]; rfl
theorem portReg_cmd (h : a.toNat = 5) : portReg n a = .cmd := by rw [portReg, h]; rfl
theorem portReg_ctrl (h : a.toNat = 6) : portReg n a = .ctrl := by rw [portReg, h]; rfl
theorem portReg_errinfo (h : a.toNat = 7) : portReg n a = .errinfo := by rw [portReg, h]; rfl

theorem portReg_e {i : Idx} (h : a.toNat = 0x0010 + i.val) : portReg n a = .e i := by
  have := i.isLt
  rw [portReg, h, portRegOf]
  iterate 8 rw [if_neg (by omega)]
  rw [if_pos (by omega)]
  congr 1
  simp only [lowIdx, Fin.ext_iff]
  omega

theorem portReg_metaReg {i : Idx} (h : a.toNat = 0x0018 + i.val) : portReg n a = .metaReg i := by
  have := i.isLt
  rw [portReg, h, portRegOf]
  iterate 9 rw [if_neg (by omega)]
  rw [if_pos (by omega)]
  congr 1
  simp only [lowIdx, Fin.ext_iff]
  omega

theorem portReg_xWord {i : Idx} {j : Nat} (h : a.toNat = 0x1000 + 0x100 * i.val + j) (hj : j < 0x100) (hn : j < n) :
    portReg n a = .xWord i j := by
  have := i.isLt
  rw [portReg, h, portRegOf]
  iterate 10 rw [if_neg (by omega)]
  rw [if_pos ⟨by omega, by omega, by omega⟩]
  congr 1
  · simp only [lowIdx, Fin.ext_iff]
    omega
  · omega

theorem portReg_reserved (h : (8 ≤ a.toNat ∧ a.toNat < 0x10) ∨ (0x20 ≤ a.toNat ∧ a.toNat < 0x1000) ∨ 0x1800 ≤ a.toNat ∨
    (0x1000 ≤ a.toNat ∧ a.toNat < 0x1800 ∧ n ≤ a.toNat % 0x100)) : portReg n a = .reserved := by
  rw [portReg, portRegOf]
  generalize a.toNat = m at *
  iterate 11 rw [if_neg (by omega)]

/-- A choice that gives what its first branch does not took the second. -/
theorem second_of_ite {α : Type} {p : Prop} [Decidable p] {x y z : α} (h : (if p then x else y) = z) (hx : x ≠ z) :
    ¬ p ∧ y = z := by
  by_cases hp : p
  · exact absurd ((if_pos hp).symm.trans h) hx
  · exact ⟨hp, (if_neg hp).symm.trans h⟩

theorem portReg_ctrl_iff : portReg n a = .ctrl ↔ a.toNat = 6 := by
  refine ⟨fun h => ?_, portReg_ctrl⟩
  rw [portReg, portRegOf] at h
  generalize a.toNat = m at h
  iterate 6 replace h := (second_of_ite h nofun).2
  by_contra hc
  rw [if_neg hc] at h
  iterate 4 replace h := (second_of_ite h nofun).2
  cases h

/-- A word address names a word that the register has. -/
theorem portReg_xWord_lt {i : Idx} {j : Nat} (h : portReg n a = .xWord i j) : j < n := by
  rw [portReg, portRegOf] at h
  generalize a.toNat = m at h
  iterate 10 replace h := (second_of_ite h nofun).2
  by_cases hm : 0x1000 ≤ m ∧ m < 0x1800 ∧ m % 0x100 < n
  · rw [if_pos hm] at h
    cases h
    exact hm.2.2
  · rw [if_neg hm] at h
    cases h

end Map

/-! ### Codes and numbers -/

@[simp] theorem CmpFlag.code_toNat (f : CmpFlag) : f.code.toNat = cmpNumber f := by cases f <;> rfl

@[simp] theorem errCodeField_toNat (k : Option ErrCode) : (errCodeField k).toNat = errorNumber k := by
  rcases k with _ | k <;> (try cases k) <;> rfl

@[simp] theorem LossFraction.code_toNat (l : LossFraction) : l.code.toNat = lossNumber l := by cases l <;> rfl

@[simp] theorem Category.code_toNat (c : Category) : c.code.toNat = categoryNumber c := by cases c <;> rfl

@[simp] theorem code_lossOf (k : BitVec 2) : (lossOf k).code = k := by revert k; decide

@[simp] theorem code_categoryOf (k : BitVec 2) : (categoryOf k).code = k := by revert k; decide

/-! ### Words of a wide register -/

/-- Word k of a number, as R103 writes it. -/
theorem wordOf_toNat (v k : Nat) : (wordOf v k).toNat = v / 2 ^ (32 * k) % 2 ^ 32 := by
  simp [wordOf, Nat.shiftRight_eq_div_pow]

/-- Writing a word sets it and leaves the other words (R103). -/
theorem setWord_word (v j k : Nat) (d : Word) :
    setWord v j d / 2 ^ (32 * k) % 2 ^ 32 = if k = j then d.toNat else v / 2 ^ (32 * k) % 2 ^ 32 := by
  have hd := d.isLt
  have hA : 0 < 2 ^ (32 * j) := Nat.two_pow_pos _
  have hB : 2 ^ (32 * (j + 1)) = 2 ^ (32 * j) * 2 ^ 32 := by rw [← pow_add]; congr 1
  have hL : v % 2 ^ (32 * j) < 2 ^ (32 * j) := Nat.mod_lt _ hA
  have hs : setWord v j d = v % 2 ^ (32 * j) + 2 ^ (32 * j) * (d.toNat + 2 ^ 32 * (v / 2 ^ (32 * (j + 1)))) := by
    simp only [setWord, Nat.shiftLeft_eq, Nat.shiftRight_eq_div_pow, hB]
    ring
  have hj : setWord v j d / 2 ^ (32 * j) = d.toNat + 2 ^ 32 * (v / 2 ^ (32 * (j + 1))) := by
    rw [hs, Nat.add_mul_div_left _ _ hA, Nat.div_eq_of_lt hL, zero_add]
  rcases lt_trichotomy k j with h | h | h
  · have hdvd : 2 ^ (32 * k) * 2 ^ 32 ∣ 2 ^ (32 * j) := by
      rw [← pow_add]; exact pow_dvd_pow 2 (by omega)
    rw [if_neg (by omega), ← Nat.mod_mul_right_div_self, ← Nat.mod_mul_right_div_self v, ← Nat.mod_mod_of_dvd _ hdvd,
      ← Nat.mod_mod_of_dvd v hdvd, hs, Nat.add_mul_mod_self_left, Nat.mod_mod]
  · subst h
    rw [if_pos rfl, hj]
    omega
  · obtain ⟨m, rfl⟩ := Nat.exists_eq_add_of_lt h
    have hk : 2 ^ (32 * (j + m + 1)) = 2 ^ (32 * j) * 2 ^ 32 * 2 ^ (32 * m) := by
      rw [← pow_add, ← pow_add, show 32 * (j + m + 1) = 32 * j + 32 + 32 * m by ring]
    have hdiv : (d.toNat + 2 ^ 32 * (v / 2 ^ (32 * (j + 1)))) / 2 ^ 32 = v / 2 ^ (32 * (j + 1)) := by omega
    rw [if_neg (by omega), hk, ← Nat.div_div_eq_div_mul, ← Nat.div_div_eq_div_mul, hj, hdiv, hB,
      ← Nat.div_div_eq_div_mul v (2 ^ (32 * j) * 2 ^ 32)]

/-- Writing a word that the register has keeps a W-bit value one (R52). -/
theorem setWord_lt {n v j : Nat} {d : Word} (hv : v < 2 ^ (32 * n)) (hj : j < n) : setWord v j d < 2 ^ (32 * n) := by
  obtain ⟨k, rfl⟩ := Nat.exists_eq_add_of_le (show j + 1 ≤ n from hj)
  have hd : d.toNat + 1 ≤ 2 ^ 32 := d.isLt
  have hw : 2 ^ (32 * (j + 1 + k)) = 2 ^ (32 * k) * 2 ^ (32 * (j + 1)) := by rw [← pow_add]; congr 1; ring
  have hB : 2 ^ (32 * (j + 1)) = 2 ^ 32 * 2 ^ (32 * j) := by rw [← pow_add]; congr 1; ring
  have hL : v % 2 ^ (32 * j) < 2 ^ (32 * j) := Nat.mod_lt _ (Nat.two_pow_pos _)
  have hH : v / 2 ^ (32 * (j + 1)) + 1 ≤ 2 ^ (32 * k) := by
    rw [Nat.succ_le_iff, Nat.div_lt_iff_lt_mul (Nat.two_pow_pos _)]
    exact hw ▸ hv
  have h1 := Nat.mul_le_mul_right (2 ^ (32 * (j + 1))) hH
  have h2 := Nat.mul_le_mul_right (2 ^ (32 * j)) hd
  simp only [setWord, Nat.shiftLeft_eq, Nat.shiftRight_eq_div_pow, hw]
  generalize 2 ^ (32 * (j + 1)) = B at *
  generalize 2 ^ (32 * j) = A at *
  linarith [Nat.add_mul (v / B) 1 B, Nat.add_mul d.toNat 1 A]

end Sys2Proof.Machine
end

