-- ==== Sys2Proof/Laws/PerInstr.lean ====
section
/-! SUPPORT. One family of statements about every instruction as syntax: the low byte of its word is its opcode (R151, R156). -/

namespace Sys2Proof.Laws.OpcodeByte

/-- Bits [7:0] of the encoded word are the instruction's opcode. -/
def Statement (i : Instr) : Prop := field (encode i) 0 8 = i.opcode

theorem wadd (rd : Idx) (ra : Idx) (rb : Idx) : Statement (.wadd rd ra rb) := encodeR_opcode (Instr.opcode_lt _) rd ra rb
theorem wsub (rd : Idx) (ra : Idx) (rb : Idx) : Statement (.wsub rd ra rb) := encodeR_opcode (Instr.opcode_lt _) rd ra rb
theorem wmul (rd : Idx) (ra : Idx) (rb : Idx) : Statement (.wmul rd ra rb) := encodeR_opcode (Instr.opcode_lt _) rd ra rb
theorem wshl (rd : Idx) (ra : Idx) (rb : Idx) : Statement (.wshl rd ra rb) := encodeR_opcode (Instr.opcode_lt _) rd ra rb
theorem wshr (rd : Idx) (ra : Idx) (rb : Idx) : Statement (.wshr rd ra rb) := encodeR_opcode (Instr.opcode_lt _) rd ra rb
theorem wshli (rd : Idx) (ra : Idx) (imm : BitVec 16) : Statement (.wshli rd ra imm) := encodeI_opcode (Instr.opcode_lt _) rd ra imm
theorem wshri (rd : Idx) (ra : Idx) (imm : BitVec 16) : Statement (.wshri rd ra imm) := encodeI_opcode (Instr.opcode_lt _) rd ra imm
theorem wcmp (ra : Idx) (rb : Idx) : Statement (.wcmp ra rb) := encodeR_opcode (Instr.opcode_lt _) 0 ra rb
theorem wclz (rd : Idx) (ra : Idx) : Statement (.wclz rd ra) := encodeR_opcode (Instr.opcode_lt _) rd ra 0
theorem wldi (rd : Idx) (imm : BitVec 16) : Statement (.wldi rd imm) := encodeI_opcode (Instr.opcode_lt _) rd 0 imm
theorem wmov (rd : Idx) (ra : Idx) : Statement (.wmov rd ra) := encodeR_opcode (Instr.opcode_lt _) rd ra 0
theorem eadd (rd : Idx) (ra : Idx) (rb : Idx) : Statement (.eadd rd ra rb) := encodeR_opcode (Instr.opcode_lt _) rd ra rb
theorem esub (rd : Idx) (ra : Idx) (rb : Idx) : Statement (.esub rd ra rb) := encodeR_opcode (Instr.opcode_lt _) rd ra rb
theorem eaddi (rd : Idx) (ra : Idx) (imm : BitVec 16) : Statement (.eaddi rd ra imm) := encodeI_opcode (Instr.opcode_lt _) rd ra imm
theorem ecmp (ra : Idx) (rb : Idx) : Statement (.ecmp ra rb) := encodeR_opcode (Instr.opcode_lt _) 0 ra rb
theorem eldi (rd : Idx) (imm : BitVec 16) : Statement (.eldi rd imm) := encodeI_opcode (Instr.opcode_lt _) rd 0 imm
theorem norm (rd : Idx) (ra : Idx) (rm : RmSel) (l : Bool) : Statement (.norm rd ra rm l) := encodeNorm_opcode (Instr.opcode_lt _) rd ra rm l
theorem align (rd : Idx) (ra : Idx) (rb : Idx) : Statement (.align rd ra rb) := encodeR_opcode (Instr.opcode_lt _) rd ra rb
theorem unpack (rd : Idx) (ra : Idx) : Statement (.unpack rd ra) := encodeR_opcode (Instr.opcode_lt _) rd ra 0
theorem pack (rd : Idx) (ra : Idx) : Statement (.pack rd ra) := encodeR_opcode (Instr.opcode_lt _) rd ra 0
theorem fmov (rd : Idx) (ra : Idx) : Statement (.fmov rd ra) := encodeR_opcode (Instr.opcode_lt _) rd ra 0

end Sys2Proof.Laws.OpcodeByte
end

