-- ==== Sys2Proof/Tests/Slice0.lean ====
section
/-! SUPPORT. The model's own tests. The expected values are the spec's: the words are written out from R152 to R156, the results
are rows of spec/95_test_vectors.md (the table is named at each). The witnesses show states that meet a statement's hypotheses. -/

namespace Sys2Proof.Tests

open Sys2Proof Sys2Proof.Machine

/-! ### Small states -/

def binary16 : Cfg := { eb := 5, rm := 0, mb := 10 }
def binary32 : Cfg := { eb := 8, rm := 0, mb := 23 }

/-- A float register, written (S, C, E, X) as in 95_test_vectors. -/
def tuple (sign : Bool) (cat : Category) (e : Int) (m : Nat) : FloatReg := { sign := sign, cat := cat, exp := e, man := m }

/-- F0 = f, F1 = g, the given CFG and LOSS, and a command word in the latch. -/
def floats (c : Cfg) (loss : LossFraction) (f g : FloatReg) : State :=
  { (State.reset.writeF 0 f).writeF 1 g with cfg := c, loss := loss, latch := some 0x00000120 }

/-- X0 = a, X1 = b. -/
def wides (a b : Nat) : State := (State.reset.writeX 0 a).writeX 1 b

/-- E0 = a, E1 = b, X0 = v. -/
def exps (a b : Int) (v : Nat) : State := ((State.reset.writeE 0 a).writeE 1 b).writeX 0 v

/-- A view of the state a command ends in. -/
def after {α : Type} (i : Instr) (s : State) (view : State → α) : Option α :=
  match exec i s with
  | .next t => some (view t)
  | .fault _ => none
  | .refused _ => none

/-- The error a command ends with, if its end is an error. -/
def errorAfter (i : Instr) (s : State) : Option (Option ErrCode) := after i s fun t => t.error.code

/-- NORM's outputs. -/
def normView (t : State) : FloatReg × LossFraction × Bool := (t.readF 1, t.loss, t.flags.ovf)

/-! ### Well-formedness -/

theorem test_wellFormed_refuses_odd_pair : (Instr.wmul 3 0 1).wellFormed = false := by decide
theorem test_wellFormed_accepts_even_pair : (Instr.wmul 6 0 1).wellFormed = true := by decide
theorem test_wellFormed_accepts_norm : (Instr.norm 7 7 .dyn true).wellFormed = true := by decide

/-! ### Decoding: words written out from R152, R153 and R156 -/

/-- 0000 0000 0000 000|0 11|01 0|001 | 0x01: rb 3, ra 2, rd 1 (R162). -/
theorem test_decode_wadd : decode 0b00000000000000001101000100000001 = .ok (.wadd 1 2 3) := by decide
theorem test_decode_wsub : decode 0b00000000000000000100001000000010 = .ok (.wsub 2 0 1) := by decide
theorem test_decode_wmul : decode 0b00000000000000010101001000000011 = .ok (.wmul 2 2 5) := by decide
theorem test_decode_wshl : decode 0b00000000000000000100000000000100 = .ok (.wshl 0 0 1) := by decide
theorem test_decode_wshr : decode 0b00000000000000011111111100000101 = .ok (.wshr 7 7 7) := by decide
theorem test_decode_wshli : decode 0b11111111111111110000000000000110 = .ok (.wshli 0 0 65535) := by decide
theorem test_decode_wshri : decode 0b00000000000001010000000100000111 = .ok (.wshri 1 0 5) := by decide
theorem test_decode_wcmp : decode 0b00000000000000000100000000001000 = .ok (.wcmp 0 1) := by decide
theorem test_decode_wclz : decode 0b00000000000000000000001100001001 = .ok (.wclz 3 0) := by decide
theorem test_decode_wldi : decode 0b11111111111100000000000000001010 = .ok (.wldi 0 65520) := by decide
theorem test_decode_wmov : decode 0b00000000000000000010010000001011 = .ok (.wmov 4 4) := by decide
theorem test_decode_eadd : decode 0b00000000000000000100001000010000 = .ok (.eadd 2 0 1) := by decide
theorem test_decode_esub : decode 0b00000000000000000100001000010001 = .ok (.esub 2 0 1) := by decide
theorem test_decode_eaddi : decode 0b11111111111010010001001000010010 = .ok (.eaddi 2 2 (-23)) := by decide
theorem test_decode_ecmp : decode 0b00000000000000000100000000010011 = .ok (.ecmp 0 1) := by decide
theorem test_decode_eldi : decode 0b10000000000000000000000000010100 = .ok (.eldi 0 (-32768)) := by decide
theorem test_decode_norm : decode 0b00000000000111100001101100100000 = .ok (.norm 3 3 .dyn true) := by decide
theorem test_decode_norm_rup : decode 0b00000000000001000000000100100000 = .ok (.norm 1 0 (.fixed .towardPositive) false) := by
  decide
theorem test_decode_align : decode 0b00000000000000000100001000100001 = .ok (.align 2 0 1) := by decide
theorem test_decode_unpack : decode 0b00000000000000000000000100100010 = .ok (.unpack 1 0) := by decide
theorem test_decode_pack : decode 0b00000000000000000000101000100011 = .ok (.pack 2 1) := by decide
theorem test_decode_fmov : decode 0b00000000000000000000010100100100 = .ok (.fmov 5 0) := by decide

/-- Table 2.9, R157 (a): reserved opcodes. -/
theorem test_decode_reserved_opcodes :
    [0x00000000, 0x0000000C, 0x00000015, 0x00000025, 0x000000FF].map decode =
      List.replicate 5 (.error .reservedOpcode) := by decide

/-- Table 2.9, R157 (b): reserved bits. -/
theorem test_decode_reserved_fields :
    [0x0020D101, 0x00020001, 0x00014006, 0x00004009, 0x00004020, 0x00004108].map decode =
      List.replicate 6 (.error .reservedField) := by decide

/-- Table 2.9, R157 (c) and (d). -/
theorem test_decode_pair_and_rounding :
    [0x00004303, 0x00080120, 0x000A0120, 0x000C0120].map decode =
      [.error .oddPair, .error .reservedRounding, .error .reservedRounding, .error .reservedRounding] := by decide

/-- The rm codes of table R158 in an otherwise fixed NORM word: rm is bits [19:17] (R152). -/
theorem test_decode_rounding_codes :
    [0x00000120, 0x00020120, 0x00040120, 0x00060120, 0x000E0120].map decode =
      [.ok (.norm 1 0 (.fixed .nearestTiesToEven) false), .ok (.norm 1 0 (.fixed .towardZero) false),
        .ok (.norm 1 0 (.fixed .towardPositive) false), .ok (.norm 1 0 (.fixed .towardNegative) false),
        .ok (.norm 1 0 .dyn false)] := by decide

/-- The host's numbering of a row's bits: one 32-bit word. -/
theorem test_decodeTableWord : decodeTableWord 32 0x0000D101 = some (.wadd 1 2 3) := by decide

/-! ### One step a command: rows of table 2.2 -/

theorem test_wadd_carry : after (.wadd 2 0 1) (wides (2 ^ 256 - 1) 1) (fun t => (t.readX 2, t.flags.c)) = some (0, true) := by
  decide
theorem test_wadd_same_register : after (.wadd 0 0 0) (wides (2 ^ 255) 0) (fun t => (t.readX 0, t.flags.c)) = some (0, true) := by
  decide
theorem test_wsub_borrow : after (.wsub 2 0 1) (wides 5 7) (fun t => (t.readX 2, t.flags.c)) = some (2 ^ 256 - 2, true) := by
  decide
theorem test_wmul_full_square :
    after (.wmul 2 0 0) (wides (2 ^ 256 - 1) 0) (fun t => (t.readX 2, t.readX 3)) = some (1, 2 ^ 256 - 2) := by decide
/-- The pair overwrites both sources. -/
theorem test_wmul_onto_sources :
    after (.wmul 0 0 1) (wides (2 ^ 200) (2 ^ 100)) (fun t => (t.readX 0, t.readX 1)) = some (0, 2 ^ 44) := by decide
theorem test_wshl_drops_a_bit :
    after (.wshl 0 0 1) (exps 0 256 1) (fun t => (t.readX 0, t.flags.c)) = some (0, true) := by decide
theorem test_wshl_negative : errorAfter (.wshl 0 0 1) (exps 0 (-1) 1) = some (some .shiftNeg) := by decide
theorem test_wshr_exact_half :
    after (.wshr 0 0 1) (exps 0 256 (2 ^ 255)) (fun t => (t.readX 0, t.loss)) = some (0, .exactlyHalf) := by decide
theorem test_wshr_largest_amount :
    after (.wshr 0 0 1) (exps 0 (2 ^ 31 - 1) 1) (fun t => (t.readX 0, t.loss)) = some (0, .lessThanHalf) := by decide
theorem test_wshli_to_the_top :
    after (.wshli 0 0 255) (wides 3 0) (fun t => (t.readX 0, t.flags.c)) = some (2 ^ 255, true) := by decide
theorem test_wshri_more_than_half :
    after (.wshri 1 0 3) (wides 0xD 0) (fun t => (t.readX 1, t.loss)) = some (1, .moreThanHalf) := by decide
theorem test_wcmp_is_unsigned : after (.wcmp 0 1) (wides (2 ^ 255) 1) (fun t => t.flags.cmp) = some .greater := by decide
theorem test_wclz_of_zero : after (.wclz 0 0) (wides 0 0) (fun t => t.readE 0) = some 256 := by decide
theorem test_wclz : after (.wclz 3 0) (wides 0xF00000 0) (fun t => t.readE 3) = some 232 := by decide
theorem test_wldi_zero_extends : after (.wldi 0 65520) (wides (2 ^ 256 - 1) 0) (fun t => t.readX 0) = some 0xFFF0 := by
  decide
theorem test_wmov : after (.wmov 4 0) (wides 5 9) (fun t => (t.readX 4, t.readX 0)) = some (5, 5) := by decide

/-! ### Rows of table 2.3 -/

theorem test_eadd : after (.eadd 2 0 1) (exps 3 (-5) 0) (fun t => t.readE 2) = some (-2) := by decide
theorem test_eadd_overflow : errorAfter (.eadd 2 0 1) (exps (2 ^ 31 - 1) 1 0) = some (some .expOvf) := by decide
theorem test_esub_to_the_bottom : after (.esub 2 0 1) (exps (-1) (2 ^ 31 - 1) 0) (fun t => t.readE 2) = some (-2 ^ 31) := by
  decide
theorem test_esub_overflow : errorAfter (.esub 2 0 1) (exps 0 (-2 ^ 31) 0) = some (some .expOvf) := by decide
theorem test_eaddi_sign_extends : after (.eaddi 2 0 (-23)) (exps 0 0 0) (fun t => t.readE 2) = some (-23) := by decide
theorem test_eaddi_overflow : errorAfter (.eaddi 1 0 0xFFFF) (exps (-2 ^ 31) 0 0) = some (some .expOvf) := by decide
theorem test_ecmp_is_signed : after (.ecmp 0 1) (exps (-5) 2 0) (fun t => t.flags.cmp) = some .less := by decide
theorem test_eldi_sign_extends : after (.eldi 0 0x8000) (exps 1 1 0) (fun t => t.readE 0) = some (-32768) := by decide

/-! ### Rows of tables 2.4 to 2.8 -/

/-- The rounding carry renormalizes (binary32, rne). -/
theorem test_norm_carry :
    after (.norm 1 0 (.fixed .nearestTiesToEven) false)
      (floats binary32 .exactlyZero (tuple false .normal 0 0x1FFFFFF) (tuple false .zero 0 0)) normView =
      some (tuple false .normal 2 0x800000, .exactlyHalf, false) := by decide
/-- Underflow to the smallest subnormal (binary32, rdn, negative). -/
theorem test_norm_underflow :
    after (.norm 1 0 (.fixed .towardNegative) false)
      (floats binary32 .exactlyZero (tuple true .normal (-150) 0x800000) (tuple false .zero 0 0)) normView =
      some (tuple true .normal (-126) 1, .exactlyHalf, false) := by decide
/-- A special operand: no write, SPECIAL_OPERAND. -/
theorem test_align_special :
    errorAfter (.align 2 0 1)
      (floats binary32 .exactlyZero (tuple false .normal 0 1) (tuple false .nan 128 0x400000)) = some (some .specialOperand) := by
  decide
/-- The signed compare swaps (90_conflicts C3). -/
theorem test_align_swaps :
    after (.align 2 0 1)
      (floats binary32 .exactlyZero (tuple false .normal (-5) 0x800000) (tuple false .normal 2 0x800000))
      (fun t => (t.readF 2, t.loss, t.flags.swap)) = some (tuple false .normal 2 0x10000, .exactlyZero, true) := by
  decide
theorem test_unpack : after (.unpack 1 0) (wides 0x41700000 0) (fun t => t.readF 1) = some (tuple false .normal 3 0xF00000) := by
  decide
theorem test_unpack_too_wide : errorAfter (.unpack 1 0) (wides 0x100000000 0) = some (some .rawWidth) := by decide
theorem test_pack_ignores_fields_of_infinity :
    after (.pack 2 1) (floats binary32 .exactlyZero (tuple false .zero 0 0) (tuple true .infinity 0 0x7B)) (fun t => t.readX 2) =
      some 0xFF800000 := by decide
theorem test_pack_below_range :
    errorAfter (.pack 2 1) (floats binary32 .exactlyZero (tuple false .zero 0 0) (tuple false .normal (-127) 0x800000)) =
      some (some .packRange) := by decide
theorem test_fmov :
    after (.fmov 5 0) (floats binary32 .exactlyHalf (tuple true .nan 129 0x400000) (tuple false .zero 0 0))
      (fun t => (t.readF 5, t.loss)) = some (tuple true .nan 129 0x400000, .exactlyHalf) := by decide

/-! ### Fetching -/

/-- The word placed by `withFetchWord` is the one the very next step runs. -/
theorem test_fetch_runs_first :
    (match step (State.reset.withFetchWord 32 0xFFF0000A) with
      | .next t => some (t.readX 0, t.busy)
      | .fault _ => none
      | .refused _ => none) = some (65520, false) := by decide

/-! ### Witnesses: states and operands that meet the hypotheses of the statements -/

/-- A state other than reset that has the invariant: an error is recorded, a mark is set, X0 is the largest W-bit value. -/
def lived : State :=
  { wides (2 ^ 256 - 1) 1 with error := { err := true, code := some .busyWrite, info := 0xFFFF } }

theorem witness_Inv : lived.Inv where
  params_legal := by decide
  x_bound := by decide
  marks_length := by decide
  code_iff_err := by decide
  info_zero := by decide
  busyWrite_info := by decide

theorem witness_EveryWordHasOneMeaning :
    decode 0x0000D101 = .ok (.wadd 1 2 3) ∧ (Instr.wadd 1 2 3).wellFormed = true ∧ encode (.wadd 1 2 3) = 0x0000D101 := by decide

theorem witness_StepRunsDecodedCommand :
    ({ wides 1 2 with latch := some 0x0000D101, turns := [.unitTurn] } : State).latch = some 0x0000D101 ∧
      decode 0x0000D101 = .ok (.wadd 1 2 3) := by decide

theorem witness_IllegalWordsAndIdleTurns :
    ({ wides 1 2 with latch := some 0 } : State).latch = some 0 ∧ decode 0 = .error .reservedOpcode ∧ (wides 1 2).latch = none := by
  decide

theorem witness_CommandErrorsArePrecise :
    (floats binary16 .exactlyZero (tuple false .nan 0 0) (tuple false .zero 0 0)).latch = some 0x00000120 ∧
      errorAfter (.align 2 0 1) (floats binary16 .exactlyZero (tuple false .nan 0 0) (tuple false .zero 0 0)) =
        some (some .specialOperand) := by decide

theorem witness_BusyEndsWithinTheTurns :
    ({ wides 1 2 with latch := some 0, turns := [.hostRead 3, .hostWrite 5 1] } : State).busy = true := by decide

/-- Both clauses, at the ends of the range of rd. -/
theorem witness_WmulProductPairFrame :
    (0 : Idx).val % 2 = 0 ∧ (6 : Idx).val % 2 = 0 ∧ (1 : Idx).val % 2 = 1 ∧ (7 : Idx).val % 2 = 1 := by decide

/-- Both clauses, at both ends of each range of amounts. -/
theorem witness_register_shifts :
    (exps 0 0 1).readE 1 = ((0 : Nat) : Int) ∧ (exps 0 (2 ^ 31 - 1) 1).readE 1 = ((2 ^ 31 - 1 : Nat) : Int) ∧
      (exps 0 (-1) 1).readE 1 < 0 ∧ (exps 0 (-2 ^ 31) 1).readE 1 < 0 := by decide

/-- Every class has a fraction. -/
theorem witness_CombineClassifiesTheTotal :
    LossFraction.exactlyZero.Classifies 0 ∧ LossFraction.lessThanHalf.Classifies (1 / 4) ∧
      LossFraction.exactlyHalf.Classifies (1 / 2) ∧ LossFraction.moreThanHalf.Classifies (3 / 4) := by
  simp only [LossFraction.Classifies]
  norm_num

/-- The ends of the signed range, and the values just outside it. -/
theorem witness_ExponentArithmeticIsExact :
    (exps (2 ^ 31 - 1) 0 0).readE 0 + (exps (2 ^ 31 - 1) 0 0).readE 1 = 2 ^ 31 - 1 ∧
      (exps (2 ^ 31 - 1) 1 0).readE 0 + (exps (2 ^ 31 - 1) 1 0).readE 1 = 2 ^ 31 ∧
      (exps (-2 ^ 31) 0 0).readE 0 - (exps (-2 ^ 31) 0 0).readE 1 = -2 ^ 31 ∧
      (exps (-2 ^ 31) 1 0).readE 0 - (exps (-2 ^ 31) 1 0).readE 1 = -2 ^ 31 - 1 := by decide

/-- EB and MB just outside their ranges, and CFG.RM = 4. -/
theorem witness_NormChecksConfiguration :
    ¬ ({ eb := 1, rm := 0, mb := 23 } : Cfg).Legal 256 ∧ ¬ ({ eb := 8, rm := 0, mb := 0 } : Cfg).Legal 256 ∧
      ¬ ({ eb := 8, rm := 0, mb := 256 } : Cfg).Legal 256 ∧ 3 < ({ eb := 8, rm := 4, mb := 23 } : Cfg).rm.toNat := by decide

/-- The formats at both ends of EB and MB are legal. -/
theorem witness_Legal :
    binary32.Legal 256 ∧ binary32.mode (.fixed .towardZero) = some .towardZero ∧ binary32.mode .dyn = some .nearestTiesToEven ∧
      ({ eb := 2, rm := 3, mb := 1 } : Cfg).Legal 256 ∧ ({ eb := 31, rm := 3, mb := 255 } : Cfg).Legal 256 ∧
      ({ eb := 31, rm := 3, mb := 255 } : Cfg).mode .dyn = some .towardNegative := by decide

/-- A NaN and an Infinity that are not canonical, with a loss pending. -/
def specials : State := floats binary32 .moreThanHalf (tuple true .nan 129 0x400000) (tuple false .infinity 5 7)

theorem witness_NormPassesSpecialsThrough :
    specials.cfg.Legal specials.params.w ∧ specials.cfg.mode .dyn = some .nearestTiesToEven ∧
      specials.cat.get 0 = .nan ∧ specials.cat.get 1 = .infinity := by decide

/-- Zero mantissas in both finite categories, with a loss pending. -/
def zeros : State := floats binary32 .lessThanHalf (tuple true .zero 77 0) (tuple true .normal 0 0)

/-- Both clauses: without (l = false) and with an incoming loss. -/
theorem witness_NormOfZeroMantissa :
    zeros.cfg.Legal zeros.params.w ∧ zeros.cfg.mode (.fixed .towardZero) = some .towardZero ∧
      zeros.cat.get 0 = .zero ∧ zeros.cat.get 1 = .normal ∧ zeros.readX 0 = 0 ∧ zeros.readX 1 = 0 ∧
      zeros.loss ≠ .exactlyZero := by decide

/-- F0's aligned exponent is one above e_max (table 2.4); F1 is just below 2^MB at e_min + 1. -/
def extremes : State := floats binary32 .lessThanHalf (tuple false .normal 127 0x1FFFFFF) (tuple false .normal (-125) 0x7FFFFF)

theorem witness_NormOverflowsInEveryMode :
    extremes.cfg.Legal extremes.params.w ∧ extremes.cfg.mode (.fixed .towardZero) = some .towardZero ∧
      extremes.cat.get 0 = .normal ∧ extremes.readX 0 ≠ 0 ∧
      extremes.cfg.eMax + 1 = extremes.cfg.alignedExp (extremes.readF 0) := by decide

/-- Both clauses: LOSS is pending, so l decides. -/
theorem witness_NormShiftsLeftExactly :
    extremes.cfg.Legal extremes.params.w ∧ extremes.cfg.mode .dyn = some .nearestTiesToEven ∧
      extremes.cat.get 1 = .normal ∧ extremes.readX 1 ≠ 0 ∧
      extremes.cfg.alignedExp (extremes.readF 1) ≤ extremes.cfg.eMax ∧ extremes.readX 1 < 2 ^ extremes.cfg.mbN ∧
      extremes.cfg.eMin < extremes.readE 1 ∧ extremes.loss ≠ .exactlyZero := by decide

/-- F0 has its leading bit above bit MB; F1 lies below e_min with its leading bit below bit MB. -/
def rights : State := floats binary32 .exactlyZero (tuple false .normal 0 0x1000003) (tuple false .normal (-150) 0x400000)

theorem witness_NormShiftsRightAndRounds_hypotheses :
    rights.cfg.Legal rights.params.w ∧ rights.cfg.mode .dyn = some .nearestTiesToEven ∧
      rights.cat.get 0 = .normal ∧ rights.readX 0 ≠ 0 ∧ rights.cfg.alignedExp (rights.readF 0) ≤ rights.cfg.eMax ∧
      2 ^ rights.cfg.mbN ≤ rights.readX 0 ∧
      rights.cat.get 1 = .normal ∧ rights.readX 1 ≠ 0 ∧ rights.cfg.alignedExp (rights.readF 1) ≤ rights.cfg.eMax ∧
      rights.readE 1 ≤ rights.cfg.eMin := by decide

/-- The four clauses: fold below e_max, fold at e_max, round to zero, and the plain case (rows of table 2.4, rne). -/
theorem witness_NormShiftsRightAndRounds :
    after (.norm 1 0 (.fixed .nearestTiesToEven) false)
        (floats binary16 .exactlyZero (tuple false .normal 10 0xFFF0) (tuple false .zero 0 0)) normView =
      some (tuple false .infinity 16 0, .exactlyHalf, true) ∧
    after (.norm 1 0 (.fixed .nearestTiesToEven) true)
        (floats binary32 .exactlyHalf (tuple false .normal (-126) 0xFFFFFF) (tuple false .zero 0 0)) normView =
      some (tuple false .normal (-125) 0x800000, .exactlyHalf, false) ∧
    after (.norm 1 0 (.fixed .nearestTiesToEven) false)
        (floats binary32 .exactlyZero (tuple false .normal (-150) 0x800000) (tuple false .zero 0 0)) normView =
      some (tuple false .zero (-126) 0, .exactlyHalf, false) ∧
    after (.norm 1 0 (.fixed .nearestTiesToEven) false)
        (floats binary32 .exactlyZero (tuple false .normal 0 0x1000003) (tuple false .zero 0 0)) normView =
      some (tuple false .normal 1 0x800002, .exactlyHalf, false) := by decide

/-- Each way an incoming loss is usable, with a fraction that it classifies. -/
theorem witness_LossUsable :
    binary32.LossUsable .exactlyZero (tuple false .zero 0 0) ∧
      binary32.LossUsable .exactlyHalf (tuple false .normal 1000 1) ∧
      binary32.LossUsable .exactlyHalf (tuple false .normal 0 0x800000) ∧
      binary32.LossUsable .exactlyHalf (tuple false .normal (-126) 1) ∧
      LossFraction.exactlyHalf.Classifies (1 / 2) := by
  refine ⟨.inl rfl, .inr ⟨by decide, .inl (by decide)⟩, .inr ⟨by decide, .inr (.inl (by decide))⟩,
    .inr ⟨by decide, .inr (.inr (by decide))⟩, rfl⟩

/-- One state for the statements over every usable loss: a loss is pending, and the mantissa reaches bit MB. -/
def pending : State := floats binary32 .lessThanHalf (tuple false .normal 0 0x1000001) (tuple false .zero 0 0)

theorem witness_NormRoundsCorrectly :
    pending.cfg.Legal pending.params.w ∧ pending.cfg.mode .dyn = some .nearestTiesToEven ∧ pending.cat.get 0 = .normal ∧
      pending.cfg.LossUsable (pending.incomingLoss true) (pending.readF 0) ∧ (pending.incomingLoss true).Classifies (1 / 4) := by
  refine ⟨by decide, by decide, by decide, .inr ⟨by decide, .inr (.inl (by decide))⟩, ?_⟩
  show LossFraction.lessThanHalf.Classifies (1 / 4)
  simp only [LossFraction.Classifies]
  norm_num

/-- A pattern of each of the five cases (table 2.7, binary32): sign, exponent field, fraction. -/
theorem witness_UnpackDecodesThePattern :
    binary32.LegalRaw 256 ∧
      0xFF800000 = true.toNat * 2 ^ (binary32.ebN + binary32.mbN) + 255 * 2 ^ binary32.mbN + 0 ∧
      0x7F800001 = false.toNat * 2 ^ (binary32.ebN + binary32.mbN) + 255 * 2 ^ binary32.mbN + 1 ∧
      0x80000000 = true.toNat * 2 ^ (binary32.ebN + binary32.mbN) + 0 * 2 ^ binary32.mbN + 0 ∧
      0x007FFFFF = false.toNat * 2 ^ (binary32.ebN + binary32.mbN) + 0 * 2 ^ binary32.mbN + 0x7FFFFF ∧
      0x7F7FFFFF = false.toNat * 2 ^ (binary32.ebN + binary32.mbN) + 254 * 2 ^ binary32.mbN + 0x7FFFFF := by decide

/-- The widest raw format that is legal, and one bit more. -/
theorem witness_ConversionErrorsInOrder :
    ({ eb := 16, rm := 0, mb := 239 } : Cfg).LegalRaw 256 ∧ ¬ ({ eb := 16, rm := 0, mb := 240 } : Cfg).LegalRaw 256 ∧
      2 ^ (1 + binary32.ebN + binary32.mbN) ≤ 0x100000000 ∧
      errorAfter (.pack 2 1) (floats binary32 .exactlyZero (tuple false .zero 0 0) (tuple false .zero (-126) 1)) =
        some (some .packRange) ∧
      ¬ binary32.CanonicalNormal 0 0x400000 := by decide

/-- The pattern of a state's register, under the reset configuration. -/
theorem witness_UnpackPackRoundTrip :
    (wides 0x7F800001 0).cfg.LegalRaw (wides 0x7F800001 0).params.w ∧ 255 < 2 ^ (wides 0x7F800001 0).cfg.ebN ∧
      1 < 2 ^ (wides 0x7F800001 0).cfg.mbN ∧
      (wides 0x7F800001 0).readX 0 = false.toNat * 2 ^ ((wides 0x7F800001 0).cfg.ebN + (wides 0x7F800001 0).cfg.mbN) +
        255 * 2 ^ (wides 0x7F800001 0).cfg.mbN + 1 := by decide

/-- Two canonical registers of a state. -/
theorem witness_PackUnpackRoundTrip :
    (floats binary32 .exactlyZero (tuple true .normal (-126) 1) (tuple true .infinity 128 0)).cfg.LegalRaw 256 ∧
      binary32.Canonical (tuple true .normal (-126) 1) ∧ binary32.Canonical (tuple true .infinity 128 0) := by
  refine ⟨by decide, ?_, rfl⟩
  exact (by decide : binary32.CanonicalNormal (-126) 1)

/-- A canonical float of each category, a subnormal among them. -/
theorem witness_PackEncodesTheFloat :
    binary32.CanonicalNormal (-126) 1 ∧ binary32.CanonicalNormal (-126) 0x800000 ∧ binary32.CanonicalNormal 127 0xFFFFFF ∧
      binary32.Canonical (tuple true .zero (-126) 0) ∧ binary32.Canonical (tuple true .infinity 128 0) ∧
      binary32.Canonical (tuple false .nan 128 0x400000) := by
  refine ⟨by decide, by decide, by decide, rfl, rfl, rfl⟩

/-- The largest and the smallest binary16 value, their exponents adjusted by 23 - 10. -/
def adjusted : State := floats binary32 .exactlyHalf (tuple false .normal 28 0x7FF) (tuple false .normal (-1) 1)

theorem witness_WideningCastIsExact :
    adjusted.cfg.Legal adjusted.params.w ∧ adjusted.cfg.mode .dyn = some .nearestTiesToEven ∧
      2 ≤ binary16.ebN ∧ 1 ≤ binary16.mbN ∧ binary16.ebN ≤ adjusted.cfg.ebN ∧ binary16.mbN ≤ adjusted.cfg.mbN ∧
      adjusted.cat.get 0 = .normal ∧ adjusted.cat.get 1 = .normal ∧
      binary16.CanonicalFinite (adjusted.readE 0 - ((adjusted.cfg.mbN : Int) - (binary16.mbN : Int))) (adjusted.readX 0) ∧
      binary16.CanonicalFinite (adjusted.readE 1 - ((adjusted.cfg.mbN : Int) - (binary16.mbN : Int))) (adjusted.readX 1) := by
  decide

/-- A state with the invariant whose registers are all Zero; its exponents tie. -/
theorem witness_AlignCapIsExact : lived.Inv ∧ lived.cat.get 0 = .zero ∧ lived.cat.get 1 = .zero :=
  ⟨witness_Inv, rfl, rfl⟩

/-- The smallest amount that is clamped, for the largest value. -/
theorem witness_ClassifierIsR251 : 2 ^ 256 - 1 < 2 ^ 256 ∧ 256 + 1 ≤ 257 := by decide

theorem witness_EveryStepKeepsInv : lived.Inv ∧ ∃ t, step lived = .next t := ⟨witness_Inv, lived, rfl⟩

/-- A tie, a larger F0, a larger F1, and the largest distance. -/
theorem witness_AlignShiftsTheSmallerExponent :
    after (.align 2 0 1) (floats binary32 .exactlyZero (tuple false .normal 3 0x900000) (tuple true .normal 3 0xA00000))
        (fun t => (t.readF 2, t.flags.swap)) = some (tuple true .normal 3 0xA00000, false) ∧
      after (.align 2 0 1)
        (floats binary32 .exactlyZero (tuple false .normal (2 ^ 31 - 1) 0x800000) (tuple false .normal (-2 ^ 31) 0x800000))
        (fun t => (t.readF 2, t.loss)) = some (tuple false .normal (2 ^ 31 - 1) 0, .lessThanHalf) ∧
      (tuple false .infinity 128 0).cat.special = true := by decide

theorem witness_FlagsFollowTheTable :
    errorAfter (.pack 2 1) (floats binary32 .exactlyZero (tuple false .zero 0 0) (tuple false .zero (-126) 1)) =
      some (some .packRange) ∧
    (flagRow (.pack 2 1)).ovf = false ∧ readsCfg (.wadd 0 1 2) = false := by decide

/-- An idle state with the invariant and a read, or a write, to come. -/
theorem witness_idle_port :
    ({ lived with turns := [.hostRead 0x1707] } : State).Inv ∧ lived.latch = none ∧
      (0x1707 : Addr).toNat = 0x1000 + 0x100 * (7 : Idx).val + 7 ∧ 7 < lived.params.words ∧
      (0x0017 : Addr).toNat = 0x0010 + (7 : Idx).val ∧ (0x001F : Addr).toNat = 0x0018 + (7 : Idx).val := by
  refine ⟨⟨witness_Inv.1, witness_Inv.2, witness_Inv.3, witness_Inv.4, witness_Inv.5, witness_Inv.6⟩, ?_⟩
  decide

/-- The ends of the four ranges of reserved addresses, for 8 words a register; just outside them the register map names registers. -/
theorem witness_ReservedAndReadOnlyAddresses :
    portReg 8 0x0008 = .reserved ∧ portReg 8 0x000F = .reserved ∧ portReg 8 0x0010 = .e 0 ∧ portReg 8 0x001F = .metaReg 7 ∧
      portReg 8 0x0020 = .reserved ∧ portReg 8 0x0FFF = .reserved ∧ portReg 8 0x1000 = .xWord 0 0 ∧
      portReg 8 0x1007 = .xWord 0 7 ∧ portReg 8 0x1008 = .reserved ∧ portReg 8 0x17FF = .reserved ∧
      portReg 8 0x1800 = .reserved ∧ portReg 8 0xFFFF = .reserved := by decide

/-- A busy state with the invariant. -/
theorem witness_busy_port :
    ({ lived with latch := some 0x00000120, turns := [.hostRead 3] } : State).Inv ∧
      ({ lived with latch := some 0x00000120, turns := [.hostRead 3] } : State).busy = true :=
  ⟨⟨witness_Inv.1, witness_Inv.2, witness_Inv.3, witness_Inv.4, witness_Inv.5, witness_Inv.6⟩, rfl⟩

/-- STATUS: CMP greater is 2 in bits [4:3] (R74), and BUSY_WRITE is 9 in bits [15:8] (R451). -/
theorem test_status_numbers :
    ({ State.reset with flags := { State.reset.flags with cmp := .greater } } : State).statusWord = 0x00000010 ∧
      ({ State.reset with error := { err := true, code := some .busyWrite, info := 5 } } : State).statusWord = 0x00000902 := by
  decide

/-- Two writes of a field: META bits [2:1] = 3 is NaN (R55), LOSS = 2 is ExactlyHalf (R250). -/
theorem witness_FieldWritesReadBack :
    (State.reset.portWrite 0x00000007 (portReg 8 0x001F)).cat.get 7 = .nan ∧
      (State.reset.portWrite 0x00000002 (portReg 8 0x0004)).loss = .exactlyHalf ∧
      State.reset.latch = none := by decide

/-- The three cases of a CMD write. -/
theorem witness_CommandSubmission :
    lived.error.err = true ∧ (wides 1 2).error.err = false ∧ (wides 1 2).busy = false ∧
      ({ wides 1 2 with latch := some 0 } : State).busy = true := by decide

theorem witness_ErrorStaysUntilReset :
    ({ lived with turns := [.hostWrite 6 0] } : State).error.err = true ∧ (0 : Word).getLsbD 0 = false ∧
      (match step { lived with turns := [.hostWrite 6 0] } with
        | .next t => some t.error.code
        | .fault _ => none
        | .refused _ => none) = some (some .busyWrite) := by decide

theorem witness_SoftResetFromEveryState : (1 : Word).getLsbD 0 = true ∧ (0xFFFFFFFE : Word).getLsbD 0 = false := by decide

/-- Two states with the invariant that differ in the value of a word nothing has written. -/
def unwrittenSix : State := { State.reset with x := State.reset.x.set 3 6 }

theorem witness_StrictRunsIgnoreUnwrittenValues :
    unwrittenSix.Inv ∧ ({ unwrittenSix with x := unwrittenSix.x.set 3 7 } : State).Inv ∧
      AgreeOnWritten unwrittenSix { unwrittenSix with x := unwrittenSix.x.set 3 7 } ∧
      unwrittenSix ≠ { unwrittenSix with x := unwrittenSix.x.set 3 7 } := by
  refine ⟨⟨by decide, by decide, by decide, by decide, by decide, by decide⟩,
    ⟨by decide, by decide, by decide, by decide, by decide, by decide⟩, ?_, by decide⟩
  refine ⟨rfl, rfl, rfl, rfl, rfl, rfl, rfl, rfl, rfl, rfl, fun i j h => ?_, fun _ _ => rfl, fun _ _ => ⟨rfl, rfl⟩⟩
  have hm : ∀ i, unwrittenSix.marks.x.get i = List.replicate 8 false := by decide
  rw [hm i, List.getElem?_replicate] at h
  split at h <;> cases h

end Sys2Proof.Tests
end

section
/-! PROOFS. The invariant of Safety.lean is kept by each operation, by each agent's turn, and so by every step (O57). -/

namespace Sys2Proof.Machine

/-! ### Operations that keep the invariant -/

/-- The invariant speaks of the parameters, the X registers with their marks, and the error state only. -/
theorem State.Inv.of_eq {s t : State} (h : s.Inv) (hparams : t.params = s.params) (hx : t.x = s.x)
    (hmarks : t.marks.x = s.marks.x) (herror : t.error = s.error) : t.Inv where
  params_legal := hparams ▸ h.params_legal
  x_bound := by
    rw [hparams]
    intro i
    rw [State.readX, hx]
    exact h.x_bound i
  marks_length := by rw [hparams, hmarks]; exact h.marks_length
  code_iff_err := herror ▸ h.code_iff_err
  info_zero := herror ▸ h.info_zero
  busyWrite_info := herror ▸ h.busyWrite_info

theorem State.Inv.commits {s t : State} (h : s.Inv) (c : Commits s t) : t.Inv where
  params_legal := c.params ▸ h.params_legal
  x_bound := c.params ▸ c.x_bound h.x_bound
  marks_length := c.params ▸ c.marks_length h.marks_length
  code_iff_err := c.error ▸ h.code_iff_err
  info_zero := c.error ▸ h.info_zero
  busyWrite_info := c.error ▸ h.busyWrite_info

theorem State.Inv.retire {s : State} (h : s.Inv) : s.retire.Inv := h.of_eq rfl rfl rfl rfl

theorem State.Inv.withTurns {s : State} (h : s.Inv) (ts : List Turn) : (s.withTurns ts).Inv := h.of_eq rfl rfl rfl rfl

/-- The first error since reset is kept (R452). -/
theorem ErrorState.raise_of_err {r : ErrorState} (h : r.err = true) (k : ErrCode) (w : Word) : r.raise k w = r := by
  cases r
  simp_all [ErrorState.raise]

theorem ErrorState.raise_of_no_err {r : ErrorState} (h : r.err = false) (k : ErrCode) (w : Word) :
    r.raise k w = { err := true, code := some k, info := w } := by
  simp [ErrorState.raise, h]

/-- Raising an error keeps the invariant, where a BUSY_WRITE records an address (R78). -/
theorem State.Inv.raiseByPort {s : State} (h : s.Inv) {k : ErrCode} {w : Word}
    (hw : k = .busyWrite → w.toNat < 2 ^ 16) : (s.raiseByPort k w).Inv := by
  cases herr : s.error.err with
  | true => exact h.of_eq rfl rfl rfl (ErrorState.raise_of_err herr k w)
  | false =>
    have hraise : (s.raiseByPort k w).error = { err := true, code := some k, info := w } :=
      ErrorState.raise_of_no_err herr k w
    exact
      { params_legal := h.params_legal
        x_bound := h.x_bound
        marks_length := h.marks_length
        code_iff_err := by rw [hraise]; rfl
        info_zero := by rw [hraise]; nofun
        busyWrite_info := by rw [hraise]; exact fun hk => hw (Option.some.inj hk) }

/-- An error of a command is never BUSY_WRITE (R451, R455), so its command word is no address. -/
theorem State.Inv.raiseByCommand {s : State} (h : s.Inv) {k : ErrCode} (hk : k ≠ .busyWrite) :
    (s.raiseByCommand k).Inv :=
  (h.raiseByPort fun hb => absurd hb hk).retire

/-- The state of R85 has the invariant for every legal choice of the parameters. -/
theorem inv_resetWith {p : Params} (h : p.Legal) : (State.resetWith p).Inv where
  params_legal := h
  x_bound i := by simp [State.readX, State.resetWith]
  marks_length i := by simp [State.resetWith, Marks.none]
  code_iff_err := rfl
  info_zero _ := rfl
  busyWrite_info := nofun

theorem State.Inv.doReset {s : State} (h : s.Inv) : s.doReset.Inv :=
  (inv_resetWith h.params_legal).of_eq rfl rfl rfl rfl

/-! ### The unit's turn -/

/-- Every command keeps the invariant: it ends in an error that is not BUSY_WRITE or in a commit of W-bit values. -/
theorem exec_keeps_inv {i : Instr} {s t : State} (h : s.Inv) (hstep : exec i s = .next t) : t.Inv := by
  obtain ⟨-, -, hw32, -⟩ := h.params_legal
  obtain ⟨k, hk, hend⟩ | ⟨u, hend, hc⟩ := exec_cases i s (by omega)
  · obtain rfl : s.raiseByCommand k = t := by simpa [hend] using hstep
    exact h.raiseByCommand hk
  · obtain rfl : u.retire = t := by simpa [hend] using hstep
    exact (h.commits hc).retire

/-- What the unit's turn can be (R150, R157, R476): idle, a command's execution, or ILLEGAL. -/
theorem unitStep_cases {s t : State} (h : unitStep s = .next t) :
    t = s ∨ (∃ i, exec i s = .next t) ∨ t = s.raiseByCommand .illegal := by
  unfold unitStep at h
  split at h
  · cases h; exact .inl rfl
  · split at h
    · exact .inr (.inl ⟨_, h⟩)
    · cases h; exact .inr (.inr rfl)

theorem unitStep_keeps_inv {s t : State} (h : s.Inv) (hstep : unitStep s = .next t) : t.Inv := by
  obtain rfl | ⟨i, hexec⟩ | rfl := unitStep_cases hstep
  · exact h
  · exact exec_keeps_inv h hexec
  · exact h.raiseByCommand (by decide)

/-! ### The host's accesses -/

/-- A wide register is a whole number of 32-bit host words (R7, R52). -/
theorem w_eq_mul_words_of_legal {p : Params} (h : p.Legal) : p.w = 32 * p.words := by
  have hdvd : 32 ∣ p.w := by
    obtain ⟨hlimb | hlimb, -⟩ := h <;> rw [Params.w, hlimb]
    · exact Nat.dvd_mul_left 32 p.limbN
    · exact Dvd.dvd.mul_left (by decide) p.limbN
  exact (Nat.mul_div_cancel' hdvd).symm

theorem State.Inv.hostRead {s : State} (h : s.Inv) (a : Addr) : (hostRead a s).Inv := by
  unfold Machine.hostRead
  split
  · exact h.of_eq rfl rfl rfl rfl
  · exact h.of_eq rfl rfl rfl rfl

/-- Writing a word that the register has keeps the value within W bits and one mark a word (R52, R81, R103). -/
theorem State.Inv.writeXWord {s : State} (h : s.Inv) (i : Idx) {j : Nat} (hj : j < s.params.words) (d : Word) :
    (s.writeXWord i j d).Inv where
  params_legal := h.params_legal
  x_bound k := by
    simp only [State.readX, State.writeXWord, Bank.get_set]
    split
    · have hi := h.x_bound i
      rw [w_eq_mul_words_of_legal h.params_legal] at hi ⊢
      exact setWord_lt hi hj
    · exact h.x_bound k
  marks_length k := by
    simp only [State.writeXWord, Bank.get_set]
    split
    · rw [List.length_set]
      exact h.marks_length i
    · exact h.marks_length k
  code_iff_err := h.code_iff_err
  info_zero := h.info_zero
  busyWrite_info := h.busyWrite_info

theorem State.Inv.submit {s : State} (h : s.Inv) (d : Word) : (s.submit d).Inv := by
  unfold State.submit
  split
  · exact h
  · exact h.of_eq rfl rfl rfl rfl

/-- A write while BUSY = 0 keeps the invariant, where a word address names a word that the register has. -/
theorem State.Inv.portWrite {s : State} (h : s.Inv) (d : Word) {r : PortReg}
    (hr : ∀ i j, r = .xWord i j → j < s.params.words) : (s.portWrite d r).Inv := by
  cases r with
  | id | param | status | ctrl | errinfo | reserved => exact h
  | cfg => exact h.of_eq rfl rfl rfl rfl
  | loss => exact h.commits (commits_writeLoss s _)
  | cmd => exact h.submit d
  | e i => exact h.commits (commits_writeE s i _)
  | metaReg i => exact h.commits (commits_writeMeta s i _ _)
  | xWord i j => exact h.writeXWord i (hr i j rfl) d

theorem State.Inv.ctrlWrite {s : State} (h : s.Inv) (d : Word) : (s.ctrlWrite d).Inv := by
  unfold State.ctrlWrite
  split
  · exact h.doReset
  · exact h

/-- BUSY_WRITE records the 16-bit address of the write it drops (R78, R109). -/
theorem State.Inv.busyWrite {s : State} (h : s.Inv) (a : Addr) : (s.busyWrite a).Inv := by
  unfold State.busyWrite
  split
  · exact h
  · refine h.raiseByPort fun _ => ?_
    rw [BitVec.toNat_setWidth_of_le (by decide)]
    exact a.isLt

theorem State.Inv.hostWrite {s : State} (h : s.Inv) (a : Addr) (d : Word) : (hostWrite a d s).Inv := by
  unfold Machine.hostWrite
  split
  · exact h.ctrlWrite d
  · split
    · exact h.busyWrite a
    · exact h.portWrite d fun _ _ => portReg_xWord_lt

/-! ### One step -/

theorem takeTurn_keeps_inv {u : Turn} {s t : State} (h : s.Inv) (hturn : takeTurn u s = .next t) : t.Inv := by
  cases u with
  | hostRead a => cases hturn; exact h.hostRead a
  | hostWrite a d => cases hturn; exact h.hostWrite a d
  | hardReset => cases hturn; exact h.doReset
  | unitTurn => exact unitStep_keeps_inv h hturn

theorem step_keeps_inv {s t : State} (h : s.Inv) (hstep : step s = .next t) : t.Inv := by
  unfold step nextTurn at hstep
  split at hstep
  · exact unitStep_keeps_inv h hstep
  · exact takeTurn_keeps_inv (h.withTurns _) hstep

/-- Settles O57: the next turn is the unit's or the first of the list, and each agent's turn keeps the invariant. -/
theorem everyStepKeepsInv : Obligations.EveryStepKeepsInv := fun _ _ => step_keeps_inv

end Sys2Proof.Machine
end

section
/-! PROOFS. What a step is for the turn it takes, and what a reset leaves (O6, O55, O56, O58). -/

namespace Sys2Proof.Machine

/-! ### The turn that a step takes (log 2) -/

theorem step_of_no_turn {s : State} (h : s.turns = []) : step s = unitStep s := by
  simp [step, nextTurn, h]

theorem step_of_turn {s : State} {u : Turn} {ts : List Turn} (h : s.turns = u :: ts) :
    step s = takeTurn u (s.withTurns ts) := by
  simp [step, nextTurn, h]

theorem unitStep_of_decode {s : State} {w : Word} {i : Instr} (hl : s.latch = some w) (hd : decode w = .ok i) :
    unitStep s = exec i s := by
  simp [unitStep, hl, hd]

/-- Settles O6: a step is the unit's turn in both cases, and the unit's turn runs the command that the latch decodes to. -/
theorem stepRunsDecodedCommand : Obligations.StepRunsDecodedCommand := fun s _ _ hl hd =>
  ⟨fun ts h => (step_of_turn h).trans (unitStep_of_decode (s := s.withTurns ts) hl hd),
    fun h => (step_of_no_turn h).trans (unitStep_of_decode hl hd)⟩

/-! ### Reset -/

theorem marks_none_x_ne (p : Params) (i : Idx) (j : Nat) : ((Marks.none p).x.get i)[j]? ≠ some true := by
  simp [Marks.none, List.getElem?_replicate]

theorem marks_none_e (p : Params) (i : Idx) : (Marks.none p).e.get i = false := by simp [Marks.none]

theorem marks_none_metaReg (p : Params) (i : Idx) : (Marks.none p).metaReg.get i = false := by simp [Marks.none]

theorem word_cfg_reset : Cfg.reset.word = 0x00170008 := by decide

theorem statusWord_resetWith (p : Params) : (State.resetWith p).statusWord = 0 :=
  (by decide : State.reset.statusWord = 0)

/-- Settles O55: the fields are those of `State.resetWith`, and no mark of `Marks.none` is set. -/
theorem resetState : Obligations.ResetState :=
  ⟨word_cfg_reset, statusWord_resetWith _, rfl, rfl, rfl, marks_none_x_ne _, fun i => ⟨marks_none_e _ i, marks_none_metaReg _ i⟩⟩

/-- Settles O58: the default parameters of R7 are legal. -/
theorem invHoldsAtReset : Obligations.InvHoldsAtReset := inv_resetWith (by decide)

theorem hostWrite_ctrl {a : Addr} (d : Word) (s : State) (h : a.toNat = 6) : hostWrite a d s = s.ctrlWrite d :=
  if_pos (portReg_ctrl h)

theorem step_of_ctrlWrite {s : State} {d : Word} {ts : List Turn} (h : s.turns = .hostWrite 0x0006 d :: ts) :
    step s = .next ((s.withTurns ts).ctrlWrite d) := by
  rw [step_of_turn h, takeTurn, hostWrite_ctrl d _ rfl]

/-- Settles O56: bit 0 decides between the reset of the hardware's reset line and nothing. -/
theorem softResetFromEveryState : Obligations.SoftResetFromEveryState := by
  intro s ts
  constructor
  · intro d hd h
    have hstep : step s = .next (s.withTurns ts).doReset := by
      rw [step_of_ctrlWrite h, State.ctrlWrite, if_pos hd]
    exact ⟨_, hstep, word_cfg_reset, statusWord_resetWith s.params, rfl, rfl, rfl, rfl, rfl, marks_none_x_ne _,
      fun i => ⟨marks_none_e _ i, marks_none_metaReg _ i⟩, rfl⟩
  · intro d hd h
    rw [step_of_ctrlWrite h, State.ctrlWrite, if_neg (ne_true_of_eq_false hd)]
    rfl

end Sys2Proof.Machine
end

section
/-! PROOFS. One lemma over all commands: a command does the same to two states that agree on what it reads. Strict runs
(O59) and what commands do not read (O44) follow from it, each with its own relation between states. -/

namespace Sys2Proof.Machine

/-! ### Relations that commands keep -/

/-- A relation between two states that fixes the parameters and LOSS, and that every write and end of a command keeps. -/
structure KeptByWrites (R : State → State → Prop) : Prop where
  params : ∀ {s t}, R s t → s.params = t.params
  loss : ∀ {s t}, R s t → s.loss = t.loss
  writeX : ∀ {s t}, R s t → ∀ i v, R (s.writeX i v) (t.writeX i v)
  writeE : ∀ {s t}, R s t → ∀ i v, R (s.writeE i v) (t.writeE i v)
  writeMeta : ∀ {s t}, R s t → ∀ i g c, R (s.writeMeta i g c) (t.writeMeta i g c)
  writeLoss : ∀ {s t}, R s t → ∀ l, R (s.writeLoss l) (t.writeLoss l)
  writeC : ∀ {s t}, R s t → ∀ v, R (s.writeC v) (t.writeC v)
  writeCmp : ∀ {s t}, R s t → ∀ v, R (s.writeCmp v) (t.writeCmp v)
  writeOvf : ∀ {s t}, R s t → ∀ v, R (s.writeOvf v) (t.writeOvf v)
  writeSwap : ∀ {s t}, R s t → ∀ v, R (s.writeSwap v) (t.writeSwap v)
  retire : ∀ {s t}, R s t → R s.retire t.retire
  raiseByCommand : ∀ {s t}, R s t → ∀ k, R (s.raiseByCommand k) (t.raiseByCommand k)

/-- Both outcomes are next states, and the relation holds of them. -/
def NextRelated (R : State → State → Prop) (a b : Host.Outcome State Fault Refusal) : Prop :=
  ∃ u v, a = .next u ∧ b = .next v ∧ R u v

/-- Two states have the same value in a register operand. -/
def SameOperand (s t : State) : Operand → Prop
  | .x i => s.readX i = t.readX i
  | .e i => s.readE i = t.readE i
  | .metaReg i => s.sgn.get i = t.sgn.get i ∧ s.cat.get i = t.cat.get i

namespace KeptByWrites

variable {R : State → State → Prop} {s t : State}

theorem writeF (hR : KeptByWrites R) (h : R s t) (i : Idx) (f : FloatReg) : R (s.writeF i f) (t.writeF i f) :=
  hR.writeX (hR.writeE (hR.writeMeta h i f.sign f.cat) i f.exp) i f.man

theorem writeNorm (hR : KeptByWrites R) (h : R s t) (i : Idx) (r : NormResult) : R (s.writeNorm i r) (t.writeNorm i r) :=
  hR.writeOvf (hR.writeLoss (hR.writeF h i r.val) r.loss) r.ovf

theorem writeAlign (hR : KeptByWrites R) (h : R s t) (i : Idx) (r : AlignResult) :
    R (s.writeAlign i r) (t.writeAlign i r) :=
  hR.writeSwap (hR.writeLoss (hR.writeF h i r.val) r.loss) r.swap

theorem shiftLeftInto (hR : KeptByWrites R) (h : R s t) (rd : Idx) {ra : Idx} (hx : s.readX ra = t.readX ra) (n : Nat) :
    R (s.shiftLeftInto rd ra n) (t.shiftLeftInto rd ra n) := by
  simp only [State.shiftLeftInto, hx, hR.params h]
  exact hR.writeC (hR.writeX h _ _) _

theorem shiftRightInto (hR : KeptByWrites R) (h : R s t) (rd : Idx) {ra : Idx} (hx : s.readX ra = t.readX ra) (n : Nat) :
    R (s.shiftRightInto rd ra n) (t.shiftRightInto rd ra n) := by
  simp only [State.shiftRightInto, hx]
  exact hR.writeLoss (hR.writeX h _ _) _

/-! The ends of a command. -/

theorem finish_ok (hR : KeptByWrites R) (s t : State) {u v : State} (h : R u v) :
    NextRelated R (s.finish (.ok u)) (t.finish (.ok v)) :=
  ⟨_, _, rfl, rfl, hR.retire h⟩

theorem finish_error (hR : KeptByWrites R) (h : R s t) (k : ErrCode) :
    NextRelated R (s.finish (.error k)) (t.finish (.error k)) :=
  ⟨_, _, rfl, rfl, hR.raiseByCommand h k⟩

theorem finish_map (hR : KeptByWrites R) (h : R s t) {α : Type} {r : Except ErrCode α} {f g : α → State}
    (hfg : ∀ a, r = .ok a → R (f a) (g a)) : NextRelated R (s.finish (r.map f)) (t.finish (r.map g)) := by
  cases r with
  | ok a => exact hR.finish_ok s t (hfg a rfl)
  | error k => exact hR.finish_error h k

end KeptByWrites

/-! ### What a command reads -/

section Reads

variable {s t : State}

theorem readF_eq_of_sameOperand {i : Idx} (h : ∀ o ∈ floatOperand i, SameOperand s t o) : s.readF i = t.readF i := by
  obtain ⟨hs, hc⟩ : SameOperand s t (.metaReg i) := h _ (by simp [floatOperand])
  have he : s.readE i = t.readE i := h (.e i) (by simp [floatOperand])
  have hx : s.readX i = t.readX i := h (.x i) (by simp [floatOperand])
  simp only [State.readF, hs, hc, he, hx]

theorem shiftAmount_congr {rb : Idx} (h : s.readE rb = t.readE rb) : s.shiftAmount rb = t.shiftAmount rb := by
  simp only [State.shiftAmount, h]

theorem readE_nonneg_of_shiftAmount {rb : Idx} {n : Nat} (h : s.shiftAmount rb = .ok n) : ¬ s.readE rb < 0 := by
  intro hneg
  simp [State.shiftAmount, hneg] at h

theorem normMode_congr {rm : RmSel} (hc : s.cfg = t.cfg) (hp : s.params = t.params) : s.normMode rm = t.normMode rm := by
  simp only [State.normMode, hc, hp]

theorem normMode_eq_ok_iff {rm : RmSel} {mode : RoundingMode} :
    s.normMode rm = .ok mode ↔ s.cfg.Legal s.params.w ∧ s.cfg.mode rm = some mode := by
  by_cases hl : s.cfg.Legal s.params.w
  · rw [State.normMode, if_pos hl, and_iff_right hl]
    cases s.cfg.mode rm <;> simp
  · rw [State.normMode, if_neg hl]
    exact ⟨nofun, fun h => absurd h.1 hl⟩

theorem unpackValue_congr {ra : Idx} (hc : s.cfg = t.cfg) (hp : s.params = t.params)
    (hx : s.cfg.LegalRaw s.params.w → s.readX ra = t.readX ra) : s.unpackValue ra = t.unpackValue ra := by
  by_cases hl : s.cfg.LegalRaw s.params.w
  · simp only [State.unpackValue, hx hl, hc, hp]
  · have hl' : ¬ t.cfg.LegalRaw t.params.w := hc ▸ hp ▸ hl
    simp only [State.unpackValue, if_neg hl, if_neg hl']

/-- PACK reads of F[ra] what R356 says: by category, and neither the exponent of a Zero nor the E and X of a special. -/
theorem packBits_congr {c : Cfg} {ra : Idx} (h : ∀ o ∈ packReads (s.cat.get ra) ra, SameOperand s t o) :
    packBits c (s.readF ra) = packBits c (t.readF ra) := by
  obtain ⟨hs, hc⟩ : SameOperand s t (.metaReg ra) := h _ (by cases s.cat.get ra <;> simp [packReads])
  cases hcat : s.cat.get ra with
  | zero =>
    have hx : s.readX ra = t.readX ra := h (.x ra) (by simp [hcat, packReads])
    simp only [packBits, State.readF, ← hc, hcat, hs, hx]
  | normal =>
    rw [hcat] at h
    rw [readF_eq_of_sameOperand h]
  | infinity => simp only [packBits, State.readF, ← hc, hcat, hs]
  | nan => simp only [packBits, State.readF, ← hc, hcat, hs]

theorem packValue_congr {ra : Idx} (hc : s.cfg = t.cfg) (hp : s.params = t.params)
    (h : s.cfg.LegalRaw s.params.w → ∀ o ∈ packReads (s.cat.get ra) ra, SameOperand s t o) :
    s.packValue ra = t.packValue ra := by
  by_cases hl : s.cfg.LegalRaw s.params.w
  · simp only [State.packValue, packBits_congr (h hl), hc, hp]
  · have hl' : ¬ t.cfg.LegalRaw t.params.w := hc ▸ hp ▸ hl
    simp only [State.packValue, if_neg hl, if_neg hl']

end Reads

/-! ### All commands -/

/-- A command does the same to two related states that agree on the operands `commandReads` lists, and on CFG if it reads CFG. -/
theorem exec_related {R : State → State → Prop} (hR : KeptByWrites R) {s t : State} (h : R s t) (i : Instr)
    (hread : ∀ o ∈ commandReads i s, SameOperand s t o) (hcfg : readsCfg i = true → s.cfg = t.cfg) :
    NextRelated R (exec i s) (exec i t) := by
  have hp := hR.params h
  cases i with
  | wadd rd ra rb =>
    have ha : s.readX ra = t.readX ra := hread (.x ra) (by simp [commandReads])
    have hb : s.readX rb = t.readX rb := hread (.x rb) (by simp [commandReads])
    simp only [exec, execWadd, ha, hb, hp]
    exact hR.finish_ok s t (hR.writeC (hR.writeX h _ _) _)
  | wsub rd ra rb =>
    have ha : s.readX ra = t.readX ra := hread (.x ra) (by simp [commandReads])
    have hb : s.readX rb = t.readX rb := hread (.x rb) (by simp [commandReads])
    simp only [exec, execWsub, ha, hb, hp]
    exact hR.finish_ok s t (hR.writeC (hR.writeX h _ _) _)
  | wmul rd ra rb =>
    cases hev : evenPair rd with
    | false =>
      simp only [exec, execWmul, hev]
      exact hR.finish_error h _
    | true =>
      have ha : s.readX ra = t.readX ra := hread (.x ra) (by simp [commandReads, hev])
      have hb : s.readX rb = t.readX rb := hread (.x rb) (by simp [commandReads, hev])
      simp only [exec, execWmul, hev, if_true, ha, hb, hp]
      exact hR.finish_ok s t (hR.writeX (hR.writeX h _ _) _ _)
  | wshl rd ra rb =>
    have he : s.readE rb = t.readE rb := hread (.e rb) (by simp only [commandReads]; split <;> simp)
    simp only [exec, execWshl, ← shiftAmount_congr he]
    exact hR.finish_map h fun n hn =>
      hR.shiftLeftInto h rd (hread (.x ra) (by simp [commandReads, readE_nonneg_of_shiftAmount hn])) n
  | wshr rd ra rb =>
    have he : s.readE rb = t.readE rb := hread (.e rb) (by simp only [commandReads]; split <;> simp)
    simp only [exec, execWshr, ← shiftAmount_congr he]
    exact hR.finish_map h fun n hn =>
      hR.shiftRightInto h rd (hread (.x ra) (by simp [commandReads, readE_nonneg_of_shiftAmount hn])) n
  | wshli rd ra imm => exact hR.finish_ok s t (hR.shiftLeftInto h rd (hread (.x ra) (by simp [commandReads])) _)
  | wshri rd ra imm => exact hR.finish_ok s t (hR.shiftRightInto h rd (hread (.x ra) (by simp [commandReads])) _)
  | wcmp ra rb =>
    have ha : s.readX ra = t.readX ra := hread (.x ra) (by simp [commandReads])
    have hb : s.readX rb = t.readX rb := hread (.x rb) (by simp [commandReads])
    simp only [exec, execWcmp, ha, hb]
    exact hR.finish_ok s t (hR.writeCmp h _)
  | wclz rd ra =>
    have ha : s.readX ra = t.readX ra := hread (.x ra) (by simp [commandReads])
    simp only [exec, execWclz, ha, hp]
    exact hR.finish_ok s t (hR.writeE h _ _)
  | wldi rd imm => exact hR.finish_ok s t (hR.writeX h _ _)
  | wmov rd ra =>
    have ha : s.readX ra = t.readX ra := hread (.x ra) (by simp [commandReads])
    simp only [exec, execWmov, ha]
    exact hR.finish_ok s t (hR.writeX h _ _)
  | eadd rd ra rb =>
    have ha : s.readE ra = t.readE ra := hread (.e ra) (by simp [commandReads])
    have hb : s.readE rb = t.readE rb := hread (.e rb) (by simp [commandReads])
    simp only [exec, execEadd, State.writeExact, ha, hb]
    exact hR.finish_map h fun v _ => hR.writeE h _ v
  | esub rd ra rb =>
    have ha : s.readE ra = t.readE ra := hread (.e ra) (by simp [commandReads])
    have hb : s.readE rb = t.readE rb := hread (.e rb) (by simp [commandReads])
    simp only [exec, execEsub, State.writeExact, ha, hb]
    exact hR.finish_map h fun v _ => hR.writeE h _ v
  | eaddi rd ra imm =>
    have ha : s.readE ra = t.readE ra := hread (.e ra) (by simp [commandReads])
    simp only [exec, execEaddi, State.writeExact, ha]
    exact hR.finish_map h fun v _ => hR.writeE h _ v
  | ecmp ra rb =>
    have ha : s.readE ra = t.readE ra := hread (.e ra) (by simp [commandReads])
    have hb : s.readE rb = t.readE rb := hread (.e rb) (by simp [commandReads])
    simp only [exec, execEcmp, ha, hb]
    exact hR.finish_ok s t (hR.writeCmp h _)
  | eldi rd imm => exact hR.finish_ok s t (hR.writeE h _ _)
  | norm rd ra rm l =>
    have hc : s.cfg = t.cfg := hcfg rfl
    have hloss : s.incomingLoss l = t.incomingLoss l := by simp only [State.incomingLoss, hR.loss h]
    simp only [exec, execNorm, ← normMode_congr hc hp]
    cases hm : s.normMode rm with
    | error k => exact hR.finish_error h k
    | ok mode =>
      obtain ⟨hl, hmode⟩ := normMode_eq_ok_iff.mp hm
      have hreads : commandReads (.norm rd ra rm l) s = floatOperand ra := if_pos ⟨hl, by rw [hmode]; rfl⟩
      have hf : s.readF ra = t.readF ra := readF_eq_of_sameOperand (hreads ▸ hread)
      simp only [Except.bind, hf, hloss, hc]
      exact hR.finish_map h fun r _ => hR.writeNorm h rd r
  | align rd ra rb =>
    have ha : s.readF ra = t.readF ra := readF_eq_of_sameOperand fun o ho => hread o (List.mem_append_left _ ho)
    have hb : s.readF rb = t.readF rb := readF_eq_of_sameOperand fun o ho => hread o (List.mem_append_right _ ho)
    simp only [exec, execAlign, ha, hb, hp]
    exact hR.finish_map h fun r _ => hR.writeAlign h rd r
  | unpack rd ra =>
    have hv : s.unpackValue ra = t.unpackValue ra :=
      unpackValue_congr (hcfg rfl) hp fun hl => hread (.x ra) (by rw [commandReads, if_pos hl]; simp)
    simp only [exec, execUnpack, hv]
    exact hR.finish_map h fun f _ => hR.writeF h rd f
  | pack rd ra =>
    have hv : s.packValue ra = t.packValue ra :=
      packValue_congr (hcfg rfl) hp fun hl o ho => hread o (by rwa [commandReads, if_pos hl])
    simp only [exec, execPack, hv]
    exact hR.finish_map h fun v _ => hR.writeX h rd v
  | fmov rd ra =>
    simp only [exec, execFmov, readF_eq_of_sameOperand hread]
    exact hR.finish_ok s t (hR.writeF h rd _)

end Sys2Proof.Machine
end

section
/-! PROOFS. A strict step does not tell apart two states that agree on the written words (O59). -/

namespace Sys2Proof.Machine

/-! ### A register whose words are all written has one value -/

theorem testBit_eq_wordOf_getLsbD (v k : Nat) : v.testBit k = (wordOf v (k / 32)).getLsbD (k % 32) := by
  rw [wordOf, BitVec.getLsbD_ofNat, Nat.testBit_shiftRight, Nat.div_add_mod]
  simp [Nat.mod_lt]

/-- A W-bit value is its host words (R52, R103). -/
theorem eq_of_wordOf_eq {n v v' : Nat} (hv : v < 2 ^ (32 * n)) (hv' : v' < 2 ^ (32 * n))
    (h : ∀ j < n, wordOf v j = wordOf v' j) : v = v' := by
  refine Nat.eq_of_testBit_eq fun k => ?_
  rcases Nat.lt_or_ge k (32 * n) with hk | hk
  · rw [testBit_eq_wordOf_getLsbD, testBit_eq_wordOf_getLsbD v', h _ (by omega)]
  · have hpow := Nat.pow_le_pow_right (show 0 < 2 by decide) hk
    rw [Nat.testBit_lt_two_pow (hv.trans_le hpow), Nat.testBit_lt_two_pow (hv'.trans_le hpow)]

/-- Writing a word writes it alone (R103). -/
theorem wordOf_setWord (v j k : Nat) (d : Word) : wordOf (setWord v j d) k = if k = j then d else wordOf v k := by
  apply BitVec.eq_of_toNat_eq
  rw [wordOf_toNat, setWord_word]
  split <;> simp [wordOf_toNat]

namespace AgreeOnWritten

variable {s t : State}

/-! ### Operations that keep the agreement -/

theorem writeX (h : AgreeOnWritten s t) (i : Idx) (v : Nat) : AgreeOnWritten (s.writeX i v) (t.writeX i v) :=
  { h with
    marks := by simp only [State.writeX_marks, h.marks, h.params]
    x := fun k j hm => by
      simp only [State.writeX_marks, State.readX_writeX, Bank.get_set] at hm ⊢
      split at hm
      · rename_i hk; simp only [hk, if_true]
      · rename_i hk; simp only [hk, if_false]; exact h.x k j hm }

theorem writeE (h : AgreeOnWritten s t) (i : Idx) (v : Int) : AgreeOnWritten (s.writeE i v) (t.writeE i v) :=
  { h with
    marks := by simp only [State.writeE_marks, h.marks]
    e := fun k hm => by
      simp only [State.writeE_marks, State.writeE_e, Bank.get_set] at hm ⊢
      split at hm
      · rename_i hk; simp only [hk, if_true]
      · rename_i hk; simp only [hk, if_false]; exact h.e k hm }

theorem writeMeta (h : AgreeOnWritten s t) (i : Idx) (g : Bool) (c : Category) :
    AgreeOnWritten (s.writeMeta i g c) (t.writeMeta i g c) :=
  { h with
    marks := by simp only [State.writeMeta_marks, h.marks]
    metaReg := fun k hm => by
      simp only [State.writeMeta_marks, State.writeMeta_sgn, State.writeMeta_cat, Bank.get_set] at hm ⊢
      split at hm
      · rename_i hk; simp only [hk, if_true, and_self]
      · rename_i hk; simp only [hk, if_false]; exact h.metaReg k hm }

/-- A host write of one word of X[i] (R103). -/
theorem writeXWord (h : AgreeOnWritten s t) (i : Idx) (j : Nat) (d : Word) :
    AgreeOnWritten (s.writeXWord i j d) (t.writeXWord i j d) :=
  { h with
    marks := by simp only [State.writeXWord, h.marks]
    x := fun k m hm => by
      simp only [State.writeXWord, State.readX, Bank.get_set] at hm ⊢
      split at hm
      · rename_i hk
        subst hk
        simp only [if_true, wordOf_setWord]
        split
        · rfl
        · rename_i hne
          rw [List.getElem?_set_ne (Ne.symm hne)] at hm
          exact h.x k m hm
      · rename_i hk; simp only [hk, if_false]; exact h.x k m hm }

theorem raiseByPort (h : AgreeOnWritten s t) (k : ErrCode) (w : Word) :
    AgreeOnWritten (s.raiseByPort k w) (t.raiseByPort k w) :=
  { h with error := by simp only [State.raiseByPort_error, h.error] }

theorem withTurns (h : AgreeOnWritten s t) (ts : List Turn) : AgreeOnWritten (s.withTurns ts) (t.withTurns ts) :=
  { h with turns := rfl }

/-- After a reset no word is written, and the rest is that of the parameters (R85). -/
theorem doReset (h : AgreeOnWritten s t) : AgreeOnWritten s.doReset t.doReset := by
  simp only [State.doReset, h.params, h.rdata, h.turns, h.draws]
  exact ⟨rfl, rfl, rfl, rfl, rfl, rfl, rfl, rfl, rfl, rfl, fun _ _ _ => rfl, fun _ _ => rfl, fun _ _ => ⟨rfl, rfl⟩⟩

theorem keptByWrites : KeptByWrites AgreeOnWritten where
  params h := h.params
  loss h := h.loss
  writeX := writeX
  writeE := writeE
  writeMeta := writeMeta
  writeLoss h l := { h with loss := rfl }
  writeC h v := { h with flags := by simp only [State.writeC_flags, h.flags] }
  writeCmp h v := { h with flags := by simp only [State.writeCmp_flags, h.flags] }
  writeOvf h v := { h with flags := by simp only [State.writeOvf_flags, h.flags] }
  writeSwap h v := { h with flags := by simp only [State.writeSwap_flags, h.flags] }
  retire h := { h with latch := rfl }
  raiseByCommand h k := by
    simp only [State.raiseByCommand, State.commandWord, h.latch]
    exact { h.raiseByPort k _ with latch := rfl }

/-! ### The unit's turn -/

theorem unwrittenIn_eq (h : AgreeOnWritten s t) : s.unwrittenIn = t.unwrittenIn := by
  funext o
  cases o <;> simp only [State.unwrittenIn, h.marks]

theorem readE_eq (h : AgreeOnWritten s t) {i : Idx} (hm : s.unwrittenIn (.e i) = none) : s.readE i = t.readE i := by
  have hm' : s.marks.e.get i = true := by simpa [State.unwrittenIn] using hm
  simp only [State.readE, h.e i hm']

theorem meta_eq (h : AgreeOnWritten s t) {i : Idx} (hm : s.unwrittenIn (.metaReg i) = none) :
    s.sgn.get i = t.sgn.get i ∧ s.cat.get i = t.cat.get i :=
  h.metaReg i (by simpa [State.unwrittenIn] using hm)

theorem readX_eq (h : AgreeOnWritten s t) (hs : s.Inv) (ht : t.Inv) {i : Idx} (hm : s.unwrittenIn (.x i) = none) :
    s.readX i = t.readX i := by
  have hw := w_eq_mul_words_of_legal hs.params_legal
  refine eq_of_wordOf_eq (hw ▸ hs.x_bound i) (hw ▸ h.params ▸ ht.x_bound i) fun j hj => h.x i j ?_
  have hlt : j < (s.marks.x.get i).length := (hs.marks_length i).symm ▸ hj
  simp only [State.unwrittenIn, Option.map_eq_none_iff, List.findIdx?_eq_none_iff] at hm
  simpa [List.getElem?_eq_getElem hlt] using hm _ (List.getElem_mem hlt)

theorem sameOperand (h : AgreeOnWritten s t) (hs : s.Inv) (ht : t.Inv) {o : Operand} (ho : s.unwrittenIn o = none) :
    SameOperand s t o := by
  cases o with
  | x i => exact h.readX_eq hs ht ho
  | e i => exact h.readE_eq ho
  | metaReg i => exact h.meta_eq ho

/-- An operand that decides what is read after it comes first, and a strict run stops there when it is unwritten. -/
theorem findSome?_cons_congr {f : Operand → Option RegWord} {o : Operand} {l m : List Operand}
    (h : f o = none → l = m) : (o :: l).findSome? f = (o :: m).findSome? f := by
  cases ho : f o with
  | none => rw [h ho]
  | some w => simp only [List.findSome?_cons, ho]

/-- WSHL and WSHR read the amount first, and it decides whether they read the value. -/
theorem firstUnwritten_shift_eq (h : AgreeOnWritten s t) (rb ra : Idx) :
    s.firstUnwritten (if s.readE rb < 0 then [.e rb] else [.e rb, .x ra]) =
      s.firstUnwritten (if t.readE rb < 0 then [.e rb] else [.e rb, .x ra]) := by
  simp only [← apply_ite (Operand.e rb :: ·)]
  exact findSome?_cons_congr fun ho => by rw [h.readE_eq ho]

/-- PACK reads META first, and the category decides what it reads next (R356). -/
theorem firstUnwritten_pack_eq (h : AgreeOnWritten s t) (ra : Idx) :
    s.firstUnwritten (packReads (s.cat.get ra) ra) = s.firstUnwritten (packReads (t.cat.get ra) ra) := by
  have hhead (c : Category) : packReads c ra = .metaReg ra :: (packReads c ra).tail := by cases c <;> rfl
  rw [hhead, hhead (t.cat.get ra)]
  exact findSome?_cons_congr fun ho => by rw [(h.meta_eq ho).2]

/-- The two states stop at the same unwritten word of a command's operands, or at none. -/
theorem firstUnwritten_eq (h : AgreeOnWritten s t) (i : Instr) :
    s.firstUnwritten (commandReads i s) = t.firstUnwritten (commandReads i t) := by
  have hop : t.firstUnwritten = s.firstUnwritten := by
    funext ops
    simp only [State.firstUnwritten, h.unwrittenIn_eq]
  rw [hop]
  cases i with
  | wshl rd ra rb => exact h.firstUnwritten_shift_eq rb ra
  | wshr rd ra rb => exact h.firstUnwritten_shift_eq rb ra
  | norm rd ra rm l => simp only [commandReads, h.cfg, h.params]
  | unpack rd ra => simp only [commandReads, h.cfg, h.params]
  | pack rd ra =>
    simp only [commandReads, h.cfg, h.params]
    split
    · exact h.firstUnwritten_pack_eq ra
    · rfl
  | _ => rfl

theorem unitUnwritten_eq (h : AgreeOnWritten s t) : s.unitUnwritten = t.unitUnwritten := by
  simp only [State.unitUnwritten, h.latch, h.firstUnwritten_eq]

/-- A command that reads written words only gives outcomes that agree. -/
theorem exec_related (h : AgreeOnWritten s t) (hs : s.Inv) (ht : t.Inv) {i : Instr}
    (hw : s.firstUnwritten (commandReads i s) = none) : NextRelated AgreeOnWritten (exec i s) (exec i t) := by
  rw [State.firstUnwritten, List.findSome?_eq_none_iff] at hw
  exact Machine.exec_related keptByWrites h i (fun o ho => h.sameOperand hs ht (hw o ho)) fun _ => h.cfg

theorem unitStep_related (h : AgreeOnWritten s t) (hs : s.Inv) (ht : t.Inv) (hw : s.unitUnwritten = none) :
    NextRelated AgreeOnWritten (unitStep s) (unitStep t) := by
  cases hl : s.latch with
  | none =>
    simp only [unitStep, ← h.latch, hl]
    exact ⟨_, _, rfl, rfl, h⟩
  | some w =>
    cases hd : decode w with
    | error r =>
      simp only [unitStep, ← h.latch, hl, hd]
      exact ⟨_, _, rfl, rfl, keptByWrites.raiseByCommand h _⟩
    | ok i =>
      simp only [unitStep, ← h.latch, hl, hd]
      exact h.exec_related hs ht (by simpa only [State.unitUnwritten, hl, hd] using hw)

/-! ### The host's accesses -/

theorem busy_eq (h : AgreeOnWritten s t) : s.busy = t.busy := by simp only [State.busy, h.latch]

theorem portRegAt_eq (h : AgreeOnWritten s t) (a : Addr) : s.portRegAt a = t.portRegAt a := by
  simp only [State.portRegAt, h.params]

theorem unwrittenAt_eq (h : AgreeOnWritten s t) (r : PortReg) : s.unwrittenAt r = t.unwrittenAt r := by
  cases r <;> simp only [State.unwrittenAt, h.marks]

/-- A register that is no unwritten word answers the same. -/
theorem portValue_eq (h : AgreeOnWritten s t) {r : PortReg} (hr : s.unwrittenAt r = none) :
    s.portValue r = t.portValue r := by
  cases r with
  | id | cmd | ctrl | reserved => rfl
  | param => simp only [State.portValue, h.params]
  | cfg => simp only [State.portValue, h.cfg]
  | status => simp only [State.portValue, State.statusWord, h.flags, h.error, h.busy_eq]
  | loss => simp only [State.portValue, h.loss]
  | errinfo => simp only [State.portValue, h.error]
  | e i => exact h.e i (by simpa [State.unwrittenAt] using hr)
  | metaReg i =>
    obtain ⟨hs, hc⟩ := h.metaReg i (by simpa [State.unwrittenAt] using hr)
    simp only [State.portValue, State.metaWord, hs, hc]
  | xWord i j => exact h.x i j (by simpa [State.unwrittenAt] using hr)

/-- A read while busy that answers no free value asks for no word that reset leaves unspecified (R110). -/
theorem unwrittenAt_of_not_free {r : PortReg} (hr : r.freeWhileBusy = false) : s.unwrittenAt r = none := by
  cases r with
  | id | param | status | cmd | ctrl | reserved => rfl
  | _ => cases hr

theorem hostRead (h : AgreeOnWritten s t) {a : Addr} (hw : s.turnUnwritten (.hostRead a) = none) :
    AgreeOnWritten (hostRead a s) (hostRead a t) := by
  have hanswer (hr : s.unwrittenAt (s.portRegAt a) = none) :
      AgreeOnWritten { s with rdata := s.portValue (s.portRegAt a) } { t with rdata := t.portValue (s.portRegAt a) } :=
    { h with rdata := h.portValue_eq hr }
  simp only [Machine.hostRead, ← h.busy_eq, ← h.portRegAt_eq]
  cases hb : s.busy with
  | false => exact hanswer (by simpa [State.turnUnwritten, hb] using hw)
  | true =>
    cases hf : (s.portRegAt a).freeWhileBusy with
    | false => exact hanswer (unwrittenAt_of_not_free hf)
    | true =>
      exact { h with
        rdata := by simp only [Bool.and_self, if_true, State.drawRead, h.draws]
        draws := by simp only [Bool.and_self, if_true, State.drawRead, h.draws] }

theorem submit (h : AgreeOnWritten s t) (d : Word) : AgreeOnWritten (s.submit d) (t.submit d) := by
  have herr : t.error.err = s.error.err := by rw [h.error]
  simp only [State.submit, herr]
  split
  · exact h
  · exact { h with latch := rfl }

theorem portWrite (h : AgreeOnWritten s t) (d : Word) (r : PortReg) :
    AgreeOnWritten (s.portWrite d r) (t.portWrite d r) := by
  cases r with
  | id | param | status | ctrl | errinfo | reserved => exact h
  | cfg => exact { h with cfg := rfl }
  | loss => exact keptByWrites.writeLoss h _
  | cmd => exact h.submit d
  | e i => exact h.writeE i _
  | metaReg i => exact h.writeMeta i _ _
  | xWord i j => exact h.writeXWord i j d

theorem hostWrite (h : AgreeOnWritten s t) (a : Addr) (d : Word) : AgreeOnWritten (hostWrite a d s) (hostWrite a d t) := by
  simp only [Machine.hostWrite, State.ctrlWrite, State.busyWrite, ← h.portRegAt_eq, ← h.busy_eq, ← h.error]
  split_ifs
  · exact h.doReset
  · exact h
  · exact h
  · exact h.raiseByPort _ _
  · exact h.portWrite d _

/-! ### One step -/

theorem turnUnwritten_eq (h : AgreeOnWritten s t) (u : Turn) : s.turnUnwritten u = t.turnUnwritten u := by
  cases u with
  | hostRead a => simp only [State.turnUnwritten, h.busy_eq, h.portRegAt_eq, h.unwrittenAt_eq]
  | hostWrite a d => rfl
  | hardReset => rfl
  | unitTurn => exact h.unitUnwritten_eq

theorem nextUnwritten_eq (h : AgreeOnWritten s t) : s.nextUnwritten = t.nextUnwritten := by
  simp only [State.nextUnwritten, h.turns, h.unitUnwritten_eq, h.turnUnwritten_eq]

theorem takeTurn_related (h : AgreeOnWritten s t) (hs : s.Inv) (ht : t.Inv) {u : Turn} (hw : s.turnUnwritten u = none) :
    NextRelated AgreeOnWritten (takeTurn u s) (takeTurn u t) := by
  cases u with
  | hostRead a => exact ⟨_, _, rfl, rfl, h.hostRead hw⟩
  | hostWrite a d => exact ⟨_, _, rfl, rfl, h.hostWrite a d⟩
  | hardReset => exact ⟨_, _, rfl, rfl, h.doReset⟩
  | unitTurn => exact h.unitStep_related hs ht hw

theorem step_related (h : AgreeOnWritten s t) (hs : s.Inv) (ht : t.Inv) (hw : s.nextUnwritten = none) :
    NextRelated AgreeOnWritten (step s) (step t) := by
  cases hts : s.turns with
  | nil =>
    rw [step_of_no_turn hts, step_of_no_turn (h.turns ▸ hts)]
    exact h.unitStep_related hs ht (by simpa only [State.nextUnwritten, hts] using hw)
  | cons u ts =>
    have hturn : (s.withTurns ts).turnUnwritten u = none := by
      rw [State.nextUnwritten, hts] at hw
      cases u <;> exact hw
    rw [step_of_turn hts, step_of_turn (h.turns ▸ hts)]
    exact (h.withTurns ts).takeTurn_related (hs.withTurns ts) (ht.withTurns ts) hturn

end AgreeOnWritten

/-- Settles O59: both steps stop at the same unwritten word, or read written words only, on which the two states agree. -/
theorem strictRunsIgnoreUnwrittenValues : Obligations.StrictRunsIgnoreUnwrittenValues := by
  intro s t hs ht h
  simp only [strictStep, ← h.nextUnwritten_eq]
  cases hw : s.nextUnwritten with
  | some w => rfl
  | none =>
    obtain ⟨u, v, hu, hv, huv⟩ := h.step_related hs ht hw
    simp only [hu, hv]
    exact huv

end Sys2Proof.Machine
end

section
/-! PROOFS. Rules over all commands: which flags a command writes (O43), and that the rest read neither CFG nor STATUS (O44). -/

namespace Sys2Proof.Machine

/-! ### The flags that a command writes (R79) -/

/-- From `s` to `t`, the flags and LOSS outside a row of the table are as before, and so is the error state. -/
structure KeepsOutside (row : FlagRow) (s t : State) : Prop where
  c : row.c = false → t.flags.c = s.flags.c
  cmp : row.cmp = false → t.flags.cmp = s.flags.cmp
  ovf : row.ovf = false → t.flags.ovf = s.flags.ovf
  swap : row.swap = false → t.flags.swap = s.flags.swap
  loss : row.loss = false → t.loss = s.loss
  error : t.error = s.error

namespace KeepsOutside

variable {row : FlagRow} {s t : State}

theorem refl (row : FlagRow) (s : State) : KeepsOutside row s s :=
  ⟨fun _ => rfl, fun _ => rfl, fun _ => rfl, fun _ => rfl, fun _ => rfl, rfl⟩

theorem writeX (h : KeepsOutside row s t) (i : Idx) (v : Nat) : KeepsOutside row s (t.writeX i v) := { h with }

theorem writeE (h : KeepsOutside row s t) (i : Idx) (v : Int) : KeepsOutside row s (t.writeE i v) := { h with }

theorem writeF (h : KeepsOutside row s t) (i : Idx) (f : FloatReg) : KeepsOutside row s (t.writeF i f) := { h with }

theorem writeC (h : KeepsOutside row s t) (hrow : row.c = true) (v : Bool) : KeepsOutside row s (t.writeC v) :=
  { h with c := fun hc => absurd (hrow.symm.trans hc) nofun }

theorem writeCmp (h : KeepsOutside row s t) (hrow : row.cmp = true) (v : CmpFlag) : KeepsOutside row s (t.writeCmp v) :=
  { h with cmp := fun hc => absurd (hrow.symm.trans hc) nofun }

theorem writeOvf (h : KeepsOutside row s t) (hrow : row.ovf = true) (v : Bool) : KeepsOutside row s (t.writeOvf v) :=
  { h with ovf := fun hc => absurd (hrow.symm.trans hc) nofun }

theorem writeSwap (h : KeepsOutside row s t) (hrow : row.swap = true) (v : Bool) : KeepsOutside row s (t.writeSwap v) :=
  { h with swap := fun hc => absurd (hrow.symm.trans hc) nofun }

theorem writeLoss (h : KeepsOutside row s t) (hrow : row.loss = true) (l : LossFraction) :
    KeepsOutside row s (t.writeLoss l) :=
  { h with loss := fun hc => absurd (hrow.symm.trans hc) nofun }

end KeepsOutside

/-- The outcome is the end of a command begun in `s`, and what it commits keeps the flags outside the row. -/
def EndsKeepingFlags (row : FlagRow) (s : State) (o : Host.Outcome State Fault Refusal) : Prop :=
  ∃ r, o = s.finish r ∧ ∀ u, r = .ok u → KeepsOutside row s u

theorem endsKeepingFlags_ok {row : FlagRow} {s u : State} (h : KeepsOutside row s u) :
    EndsKeepingFlags row s (s.finish (.ok u)) :=
  ⟨_, rfl, fun _ hu => Except.ok.inj hu ▸ h⟩

theorem endsKeepingFlags_error (row : FlagRow) (s : State) (k : ErrCode) :
    EndsKeepingFlags row s (s.finish (.error k)) :=
  ⟨.error k, rfl, fun _ hu => by cases hu⟩

theorem endsKeepingFlags_map {row : FlagRow} {s : State} {α : Type} (r : Except ErrCode α) {f : α → State}
    (h : ∀ a, KeepsOutside row s (f a)) : EndsKeepingFlags row s (s.finish (r.map f)) := by
  cases r with
  | ok a => exact endsKeepingFlags_ok (h a)
  | error k => exact endsKeepingFlags_error row s k

theorem exec_endsKeepingFlags (i : Instr) (s : State) : EndsKeepingFlags (flagRow i) s (exec i s) := by
  have hs := KeepsOutside.refl (flagRow i) s
  cases i with
  | wadd rd ra rb => exact endsKeepingFlags_ok ((hs.writeX _ _).writeC rfl _)
  | wsub rd ra rb => exact endsKeepingFlags_ok ((hs.writeX _ _).writeC rfl _)
  | wmul rd ra rb =>
    simp only [exec, execWmul]
    split
    · exact endsKeepingFlags_ok ((hs.writeX _ _).writeX _ _)
    · exact endsKeepingFlags_error _ s _
  | wshl rd ra rb => exact endsKeepingFlags_map _ fun _ => (hs.writeX _ _).writeC rfl _
  | wshr rd ra rb => exact endsKeepingFlags_map _ fun _ => (hs.writeX _ _).writeLoss rfl _
  | wshli rd ra imm => exact endsKeepingFlags_ok ((hs.writeX _ _).writeC rfl _)
  | wshri rd ra imm => exact endsKeepingFlags_ok ((hs.writeX _ _).writeLoss rfl _)
  | wcmp ra rb => exact endsKeepingFlags_ok (hs.writeCmp rfl _)
  | wclz rd ra => exact endsKeepingFlags_ok (hs.writeE _ _)
  | wldi rd imm => exact endsKeepingFlags_ok (hs.writeX _ _)
  | wmov rd ra => exact endsKeepingFlags_ok (hs.writeX _ _)
  | eadd rd ra rb => exact endsKeepingFlags_map _ fun _ => hs.writeE _ _
  | esub rd ra rb => exact endsKeepingFlags_map _ fun _ => hs.writeE _ _
  | eaddi rd ra imm => exact endsKeepingFlags_map _ fun _ => hs.writeE _ _
  | ecmp ra rb => exact endsKeepingFlags_ok (hs.writeCmp rfl _)
  | eldi rd imm => exact endsKeepingFlags_ok (hs.writeE _ _)
  | norm rd ra rm l =>
    simp only [exec, execNorm]
    cases s.normMode rm with
    | error k => exact endsKeepingFlags_error _ s k
    | ok mode => exact endsKeepingFlags_map _ fun _ => ((hs.writeF _ _).writeLoss rfl _).writeOvf rfl _
  | align rd ra rb => exact endsKeepingFlags_map _ fun _ => ((hs.writeF _ _).writeLoss rfl _).writeSwap rfl _
  | unpack rd ra => exact endsKeepingFlags_map _ fun _ => hs.writeF _ _
  | pack rd ra => exact endsKeepingFlags_map _ fun _ => hs.writeX _ _
  | fmov rd ra => exact endsKeepingFlags_ok (hs.writeF _ _)

/-- Settles O43: a commit keeps the flags outside its row and raises no error, and an error entry keeps all flags. -/
theorem flagsFollowTheTable : Obligations.FlagsFollowTheTable := by
  intro i s t hstep
  obtain ⟨r, hend, hflags⟩ := exec_endsKeepingFlags i s
  obtain ⟨u, hr, rfl⟩ | ⟨k, -, rfl⟩ := State.finish_cases (hend.symm.trans hstep)
  · obtain ⟨hc, hcmp, hovf, hswap, hloss, herror⟩ := hflags u hr
    refine ⟨hc, hcmp, hovf, hswap, hloss, fun hno herr => ?_⟩
    rw [State.retire_error, herror, hno] at herr
    cases herr
  · exact ⟨fun _ => rfl, fun _ => rfl, fun _ => rfl, fun _ => rfl, fun _ => rfl, fun _ _ => ⟨rfl, rfl⟩⟩

/-! ### What commands do not read (R73, R79) -/

theorem NextRelated.of_next {R : State → State → Prop} {a b : Host.Outcome State Fault Refusal} {u : State}
    (h : NextRelated R a b) (ha : a = .next u) : ∃ v, b = .next v ∧ R u v := by
  obtain ⟨u', v, rfl, hb, huv⟩ := h
  cases ha
  exact ⟨v, hb, huv⟩

theorem keptByWrites_withCfg (c : Cfg) : KeptByWrites fun s t => t = { s with cfg := c } where
  params := by rintro s _ rfl; rfl
  loss := by rintro s _ rfl; rfl
  writeX := by rintro s _ rfl i v; rfl
  writeE := by rintro s _ rfl i v; rfl
  writeMeta := by rintro s _ rfl i g k; rfl
  writeLoss := by rintro s _ rfl l; rfl
  writeC := by rintro s _ rfl v; rfl
  writeCmp := by rintro s _ rfl v; rfl
  writeOvf := by rintro s _ rfl v; rfl
  writeSwap := by rintro s _ rfl v; rfl
  retire := by rintro s _ rfl; rfl
  raiseByCommand := by rintro s _ rfl k; rfl

/-- Two states differ at most in the flags, the error state and the latch, and in what belongs to the host and its port. -/
structure SameButStatus (s t : State) : Prop where
  params : s.params = t.params
  x : s.x = t.x
  e : s.e = t.e
  sgn : s.sgn = t.sgn
  cat : s.cat = t.cat
  cfg : s.cfg = t.cfg
  loss : s.loss = t.loss
  marks : s.marks = t.marks

theorem keptByWrites_sameButStatus : KeptByWrites SameButStatus where
  params h := h.params
  loss h := h.loss
  writeX h i v :=
    { h with
      x := by simp only [State.writeX_x, h.x]
      marks := by simp only [State.writeX_marks, h.marks, h.params] }
  writeE h i v :=
    { h with
      e := by simp only [State.writeE_e, h.e]
      marks := by simp only [State.writeE_marks, h.marks] }
  writeMeta h i g k :=
    { h with
      sgn := by simp only [State.writeMeta_sgn, h.sgn]
      cat := by simp only [State.writeMeta_cat, h.cat]
      marks := by simp only [State.writeMeta_marks, h.marks] }
  writeLoss h l := { h with loss := rfl }
  writeC h v := { h with }
  writeCmp h v := { h with }
  writeOvf h v := { h with }
  writeSwap h v := { h with }
  retire h := { h with }
  raiseByCommand h k := { h with }

theorem sameOperand_of_eq {s t : State} (hx : s.x = t.x) (he : s.e = t.e) (hs : s.sgn = t.sgn) (hc : s.cat = t.cat)
    (o : Operand) : SameOperand s t o := by
  cases o <;> simp only [SameOperand, State.readX, State.readE, hx, he, hs, hc, and_self]

/-- Settles O44: another CFG, or another STATUS, agrees on every operand, and the commands keep the relation. -/
theorem cfgAndStatusAreReadByNoOther : Obligations.CfgAndStatusAreReadByNoOther := by
  constructor
  · intro i s t c hcfg hstep
    obtain ⟨v, hv, rfl⟩ := (exec_related (keptByWrites_withCfg c) (t := { s with cfg := c }) rfl i
      (fun o _ => sameOperand_of_eq rfl rfl rfl rfl o) fun h => absurd (hcfg.symm.trans h) nofun).of_next hstep
    exact hv
  · intro i s t f r w hstep
    have hsame : SameButStatus s { s with flags := f, error := r, latch := w } := ⟨rfl, rfl, rfl, rfl, rfl, rfl, rfl, rfl⟩
    obtain ⟨u, hu, -, hx, he, hsgn, hcat, hc, hloss, hmarks⟩ := (exec_related keptByWrites_sameButStatus hsame i
      (fun o _ => sameOperand_of_eq rfl rfl rfl rfl o) fun _ => rfl).of_next hstep
    exact ⟨u, hu, hx.symm, he.symm, hsgn.symm, hcat.symm, hloss.symm, hc.symm, hmarks.symm⟩

end Sys2Proof.Machine
end

section
/-! PROOFS. What a host access to an idle unit answers and stores (O45, O46, O47, O48). -/

namespace Sys2Proof.Machine

/-! ### The step of a host access to an idle unit -/

@[simp] theorem State.portValue_withTurns (s : State) (ts : List Turn) (r : PortReg) :
    (s.withTurns ts).portValue r = s.portValue r := by
  cases r <;> rfl

theorem hostRead_of_idle {s : State} (h : s.latch = none) (a : Addr) :
    hostRead a s = { s with rdata := s.portValue (s.portRegAt a) } := by
  simp [hostRead, State.busy, h]

theorem step_of_idle_read {s : State} {a : Addr} {ts : List Turn} (h : s.latch = none) (ht : s.turns = .hostRead a :: ts) :
    step s = .next { s with turns := ts, rdata := s.portValue (s.portRegAt a) } := by
  rw [step_of_turn ht, takeTurn, hostRead_of_idle (s := s.withTurns ts) h, State.portValue_withTurns]
  rfl

theorem hostWrite_of_idle {s : State} (h : s.latch = none) (d : Word) {a : Addr} (ha : s.portRegAt a ≠ .ctrl) :
    hostWrite a d s = s.portWrite d (s.portRegAt a) := by
  simp [hostWrite, State.busy, h, ha]

theorem step_of_idle_write {s : State} {a : Addr} {d : Word} {ts : List Turn} {r : PortReg} (h : s.latch = none)
    (ht : s.turns = .hostWrite a d :: ts) (hr : s.portRegAt a = r) (hctrl : r ≠ .ctrl) :
    step s = .next ((s.withTurns ts).portWrite d r) := by
  subst hr
  rw [step_of_turn ht, takeTurn, hostWrite_of_idle (s := s.withTurns ts) h d hctrl]
  rfl

/-! ### The words of the control registers as numbers -/

/-- The value of two bit strings side by side (R9). -/
theorem append_toNat {m n : Nat} (x : BitVec m) (y : BitVec n) : (x ++ y).toNat = x.toNat * 2 ^ n + y.toNat := by
  rw [BitVec.toNat_append, ← Nat.shiftLeft_add_eq_or_of_lt y.isLt, Nat.shiftLeft_eq]

@[simp] theorem bit_toNat (b : Bool) : (bit b).toNat = b.toNat := BitVec.toNat_ofBool b

theorem legal_limbW_lt_and_w_lt {p : Params} (h : p.Legal) : p.limbW < 2 ^ 8 ∧ p.w < 2 ^ 16 := by
  obtain ⟨hlimb, -, -, hw⟩ := h
  omega

theorem paramWord_toNat {p : Params} (h : p.Legal) : (paramWord p).toNat = p.w + 2 ^ 16 * p.limbW := by
  obtain ⟨hl, hw⟩ := legal_limbW_lt_and_w_lt h
  simp only [paramWord, append_toNat, BitVec.ofNat_eq_ofNat, BitVec.toNat_ofNat, Nat.mod_eq_of_lt hl, Nat.mod_eq_of_lt hw]
  omega

theorem Cfg.word_toNat (c : Cfg) : c.word.toNat = c.eb.toNat + 2 ^ 8 * c.rm.toNat + 2 ^ 16 * c.mb.toNat := by
  simp only [Cfg.word, append_toNat, BitVec.ofNat_eq_ofNat, BitVec.toNat_zero]
  omega

theorem State.statusWord_toNat (s : State) : s.statusWord.toNat =
    s.busy.toNat + 2 * s.error.err.toNat + 4 * s.flags.c.toNat + 8 * cmpNumber s.flags.cmp +
      32 * s.flags.ovf.toNat + 64 * s.flags.swap.toNat + 2 ^ 8 * errorNumber s.error.code := by
  simp only [State.statusWord, append_toNat, BitVec.ofNat_eq_ofNat, BitVec.toNat_zero, bit_toNat, errCodeField_toNat, CmpFlag.code_toNat]
  omega

theorem lossWord_toNat (l : LossFraction) : ((0 : BitVec 30) ++ l.code).toNat = lossNumber l := by
  rw [append_toNat, BitVec.ofNat_eq_ofNat, BitVec.toNat_zero, LossFraction.code_toNat, Nat.zero_mul, Nat.zero_add]

theorem State.metaWord_toNat (s : State) (i : Idx) :
    (s.metaWord i).toNat = (s.sgn.get i).toNat + 2 * categoryNumber (s.cat.get i) := by
  simp only [State.metaWord, append_toNat, BitVec.ofNat_eq_ofNat, BitVec.toNat_zero, bit_toNat, Category.code_toNat]
  omega

theorem State.metaWord_writeMeta (s : State) (i : Idx) (g : Bool) (c : Category) :
    (s.writeMeta i g c).metaWord i = (0 : BitVec 29) ++ c.code ++ bit g := by
  simp only [State.metaWord, State.writeMeta_cat, State.writeMeta_sgn, Bank.get_set_self]

/-- Settles O45: each address names its register, whose word is its fields at their places. -/
theorem controlRegisterReads : Obligations.ControlRegisterReads := by
  intro s a ts hs hl ht
  refine ⟨_, step_of_idle_read hl ht, ?_⟩
  simp only [State.portRegAt]
  refine ⟨fun ha => ?_, fun ha => ?_, fun ha => ?_, fun ha => ?_, fun ha => ?_, fun ha => ?_, fun ha => ?_⟩
  · rw [portReg_id ha]; rfl
  · rw [portReg_param ha]; exact paramWord_toNat hs.params_legal
  · rw [portReg_cfg ha]; exact s.cfg.word_toNat
  · have hb : s.busy = false := by rw [State.busy, hl]; rfl
    rw [portReg_status ha, State.portValue, State.statusWord_toNat, hb]
    simp
  · rw [portReg_loss ha]; exact lossWord_toNat s.loss
  · obtain ha | ha := ha
    · rw [portReg_cmd ha]; rfl
    · rw [portReg_ctrl ha]; rfl
  · rw [portReg_errinfo ha]; rfl

/-- Settles O46: each address names its register, whose word is read as a number. -/
theorem dataRegisterReads : Obligations.DataRegisterReads := by
  intro s a ts i j hl ht
  refine ⟨_, step_of_idle_read hl ht, ?_⟩
  simp only [State.portRegAt]
  refine ⟨fun ha => ?_, fun ha => ?_, fun hj hj' ha => ?_⟩
  · rw [portReg_e ha]; rfl
  · rw [portReg_metaReg ha]; exact s.metaWord_toNat i
  · rw [portReg_xWord ha hj' hj]; exact wordOf_toNat _ _

/-! ### Writes -/

/-- Settles O47: the write is `writeXWord`, whose value is `setWord` and whose mark is that of the word. -/
theorem wideWordWriteSetsThatWord : Obligations.WideWordWriteSetsThatWord := by
  intro s a d ts i j hs hl ht hj ha
  have hj' : j < 0x100 := by
    obtain ⟨-, -, -, hw⟩ := hs.params_legal
    simp only [Params.words] at hj
    omega
  have hstep : step s = .next ((s.withTurns ts).writeXWord i j d) := by
    rw [step_of_idle_write hl ht (portReg_xWord ha hj' hj) nofun, State.portWrite]
  have hx : ((s.withTurns ts).writeXWord i j d).readX i = setWord (s.readX i) j d := Bank.get_set_self _ _ _
  have hm : ((s.withTurns ts).writeXWord i j d).marks.x.get i = (s.marks.x.get i).set j true := Bank.get_set_self _ _ _
  refine ⟨_, hstep, ?_, fun k hk => ?_, fun k hk => Bank.get_set_ne _ _ hk, rfl, rfl, rfl, rfl, rfl, rfl, rfl, hl, rfl,
    rfl, rfl, rfl, ?_, fun k hk => ?_, fun k hk => Bank.get_set_ne _ _ hk, rfl, rfl⟩
  · rw [hx, setWord_word, if_pos rfl]
  · rw [hx, setWord_word, if_neg hk]
  · rw [hm, List.getElem?_set_self ((hs.marks_length i).symm ▸ hj)]
  · rw [hm, List.getElem?_set_ne (Ne.symm hk)]

/-- A write to an idle unit of any register but CMD leaves it idle. -/
theorem State.portWrite_latch (s : State) (d : Word) {r : PortReg} (h : r ≠ .cmd) : (s.portWrite d r).latch = s.latch := by
  cases r with
  | cmd => exact absurd rfl h
  | _ => rfl

theorem State.portWrite_params (s : State) (d : Word) (r : PortReg) : (s.portWrite d r).params = s.params := by
  cases r with
  | cmd => simp only [State.portWrite, State.submit]; split <;> rfl
  | _ => rfl

theorem State.portWrite_turns (s : State) (d : Word) (r : PortReg) : (s.portWrite d r).turns = s.turns := by
  cases r with
  | cmd => simp only [State.portWrite, State.submit]; split <;> rfl
  | _ => rfl

theorem step_of_idle_write_read {s : State} {a : Addr} {d : Word} {ts : List Turn} {r : PortReg} (h : s.latch = none)
    (ht : s.turns = .hostWrite a d :: .hostRead a :: ts) (hr : s.portRegAt a = r) (hctrl : r ≠ .ctrl) (hcmd : r ≠ .cmd) :
    ∃ t, t = (s.withTurns (.hostRead a :: ts)).portWrite d r ∧ step s = .next t ∧
      step t = .next { t with turns := ts, rdata := t.portValue r } := by
  have hreg : ((s.withTurns (.hostRead a :: ts)).portWrite d r).portRegAt a = r := by
    rw [State.portRegAt, State.portWrite_params]
    exact hr
  refine ⟨_, rfl, step_of_idle_write h ht hr hctrl, ?_⟩
  have hlatch : ((s.withTurns (.hostRead a :: ts)).portWrite d r).latch = none := (State.portWrite_latch _ d hcmd).trans h
  rw [step_of_idle_read hlatch (State.portWrite_turns _ d r), hreg]

/-! A register read back keeps the bits of its fields and no other: one bit of the word at a time. -/

theorem word_cfgOf (d : Word) : (cfgOf d).word = d &&& 0xFFFF071F := by
  refine BitVec.eq_of_getLsbD_eq fun k hk => ?_
  simp only [Cfg.word, cfgOf, BitVec.getLsbD_append, BitVec.getLsbD_extractLsb', BitVec.getLsbD_and]
  interval_cases k <;> simp 
theorem lossWord_lossOf (d : Word) : (0 : BitVec 30) ++ (lossOf (d.extractLsb' 0 2)).code = d &&& 0x00000003 := by
  rw [code_lossOf]
  refine BitVec.eq_of_getLsbD_eq fun k hk => ?_
  simp only [BitVec.getLsbD_append, BitVec.getLsbD_extractLsb', BitVec.getLsbD_and]
  interval_cases k <;> simp 

theorem metaWord_categoryOf (d : Word) :
    (0 : BitVec 29) ++ (categoryOf (d.extractLsb' 1 2)).code ++ bit (d.getLsbD 0) = d &&& 0x00000007 := by
  rw [code_categoryOf]
  refine BitVec.eq_of_getLsbD_eq fun k hk => ?_
  simp only [bit, BitVec.getLsbD_append, BitVec.getLsbD_extractLsb', BitVec.getLsbD_and, BitVec.getLsbD_ofBool]
  interval_cases k <;> simp 
theorem cfgOf_eb_toNat (d : Word) : (cfgOf d).eb.toNat = d.toNat % 2 ^ 5 := by
  simp only [cfgOf, BitVec.extractLsb'_toNat, Nat.shiftRight_zero]

theorem cfgOf_rm_toNat (d : Word) : (cfgOf d).rm.toNat = d.toNat / 2 ^ 8 % 2 ^ 3 := by
  simp only [cfgOf, BitVec.extractLsb'_toNat, Nat.shiftRight_eq_div_pow]

theorem cfgOf_mb_toNat (d : Word) : (cfgOf d).mb.toNat = d.toNat / 2 ^ 16 := by
  have hd := d.isLt
  simp only [cfgOf, BitVec.extractLsb'_toNat, Nat.shiftRight_eq_div_pow]
  omega

theorem lossNumber_lossOf (k : BitVec 2) : lossNumber (lossOf k) = k.toNat := by
  rw [← LossFraction.code_toNat, code_lossOf]

theorem categoryNumber_categoryOf (k : BitVec 2) : categoryNumber (categoryOf k) = k.toNat := by
  rw [← Category.code_toNat, code_categoryOf]

/-- Settles O48: one case a register; its read answers the word of what its write stored. -/
theorem fieldWritesReadBack : Obligations.FieldWritesReadBack := by
  intro s a d ts i hl ht ha
  have hi := i.isLt
  obtain ha | ha | ha | ha := ha
  · obtain ⟨t, rfl, hstep, hread⟩ := step_of_idle_write_read hl ht (portReg_cfg ha) nofun nofun
    refine ⟨_, _, hstep, hread, rfl, fun _ => ⟨word_cfgOf d, ?_, ?_, ?_, rfl⟩, by omega, by omega, by omega⟩
    · exact cfgOf_eb_toNat d
    · exact cfgOf_rm_toNat d
    · exact cfgOf_mb_toNat d
  · obtain ⟨t, rfl, hstep, hread⟩ := step_of_idle_write_read hl ht (portReg_loss ha) nofun nofun
    refine ⟨_, _, hstep, hread, rfl, by omega, fun _ => ⟨lossWord_lossOf d, ?_, rfl⟩, by omega, by omega⟩
    simp [State.portWrite, lossNumber_lossOf]
  · obtain ⟨t, rfl, hstep, hread⟩ := step_of_idle_write_read hl ht (portReg_e ha) nofun nofun
    have he : (s.e.set i (BitVec.ofInt 32 d.toInt)).get i = d := by rw [Bank.get_set_self, BitVec.ofInt_toInt]
    refine ⟨_, _, hstep, hread, rfl, by omega, by omega, fun _ => ⟨he, congrArg BitVec.toInt he, ?_⟩, by omega⟩
    simp [State.portWrite, State.writeE, State.withTurns]
  · obtain ⟨t, rfl, hstep, hread⟩ := step_of_idle_write_read hl ht (portReg_metaReg ha) nofun nofun
    refine ⟨_, _, hstep, hread, rfl, by omega, by omega, by omega, fun _ => ⟨?_, ?_, ?_, ?_⟩⟩
    · exact (State.metaWord_writeMeta _ i _ _).trans (metaWord_categoryOf d)
    · rw [State.portWrite, State.writeMeta_sgn, Bank.get_set_self]
      exact (Nat.toNat_testBit d.toNat 0).trans (by simp)
    · simp [State.portWrite, categoryNumber_categoryOf, Nat.shiftRight_eq_div_pow]
    · simp [State.portWrite, State.writeMeta, State.withTurns]

end Sys2Proof.Machine
end

section
/-! PROOFS. NORM: its configuration errors (O25), and that its results are canonical (O31). -/

namespace Sys2Proof.Machine

/-! ### The configuration check (R73, R300, R303) -/

section Configuration

variable {s : State} {rm : RmSel}

theorem normMode_of_not_legal (h : ¬ s.cfg.Legal s.params.w) : s.normMode rm = .error .cfg := if_neg h

theorem normMode_of_no_mode (h : s.cfg.mode rm = none) : s.normMode rm = .error .cfg := by
  simp only [State.normMode, h, ite_self]

theorem modeOfCode_of_three_lt : ∀ {n : Nat}, 3 < n → modeOfCode n = none
  | _ + 4, _ => rfl

theorem exec_norm_of_normMode_error {rd ra : Idx} {l : Bool} {k : ErrCode} (h : s.normMode rm = .error k) :
    exec (.norm rd ra rm l) s = s.finish (.error k) := by
  simp only [exec, execNorm, h, Except.bind]

theorem exec_norm_of_ok {rd ra : Idx} {l : Bool} {mode : RoundingMode} {r : NormResult}
    (hl : s.cfg.Legal s.params.w) (hm : s.cfg.mode rm = some mode)
    (hr : normalizeFloat s.cfg mode (s.incomingLoss l) (s.readF ra) = .ok r) :
    exec (.norm rd ra rm l) s = .next (s.writeNorm rd r).retire := by
  simp only [exec, execNorm, normMode_eq_ok_iff.mpr ⟨hl, hm⟩, Except.bind, hr, Except.map, State.finish_ok]

end Configuration

/-- Settles O25: in both cases the mode is an error, before any operand is read. -/
theorem normChecksConfiguration : Obligations.NormChecksConfiguration := fun _ _ _ _ _ =>
  ⟨fun h => raisesError_of (exec_norm_of_normMode_error (normMode_of_not_legal h)),
    fun h => raisesError_of (exec_norm_of_normMode_error (normMode_of_no_mode (modeOfCode_of_three_lt h)))⟩

/-! ### Shifts and the leading bit -/

section Msb

variable {m n k : Nat}

theorem shiftRight_lt_two_pow (h : msb m < n + k) : m >>> k < 2 ^ n := by
  rw [Nat.shiftRight_eq_div_pow, Nat.div_lt_iff_lt_mul (Nat.two_pow_pos k), ← Nat.pow_add]
  exact (lt_two_pow_msb_succ m).trans_le (Nat.pow_le_pow_right (by decide) h)

theorem two_pow_le_shiftRight (hm : m ≠ 0) (h : n + k ≤ msb m) : 2 ^ n ≤ m >>> k := by
  rw [Nat.shiftRight_eq_div_pow, Nat.le_div_iff_mul_le (Nat.two_pow_pos k), ← Nat.pow_add]
  exact (Nat.pow_le_pow_right (by decide) h).trans (two_pow_msb_le hm)

theorem shiftLeft_lt_two_pow (h : msb m + k < n) : m <<< k < 2 ^ n := by
  rw [Nat.shiftLeft_eq]
  calc m * 2 ^ k < 2 ^ (msb m + 1) * 2 ^ k := Nat.mul_lt_mul_of_pos_right (lt_two_pow_msb_succ m) (Nat.two_pow_pos k)
    _ = 2 ^ (msb m + 1 + k) := (Nat.pow_add ..).symm
    _ ≤ 2 ^ n := Nat.pow_le_pow_right (by decide) (by omega)

theorem two_pow_le_shiftLeft (hm : m ≠ 0) (h : n ≤ msb m + k) : 2 ^ n ≤ m <<< k := by
  rw [Nat.shiftLeft_eq]
  calc 2 ^ n ≤ 2 ^ (msb m + k) := Nat.pow_le_pow_right (by decide) h
    _ = 2 ^ msb m * 2 ^ k := Nat.pow_add ..
    _ ≤ m * 2 ^ k := Nat.mul_le_mul_right _ (two_pow_msb_le hm)

end Msb

/-! ### The format and the shift of NORM -/

theorem Cfg.alignedExp_eq (c : Cfg) (f : FloatReg) : c.alignedExp f = f.exp + alignShift c f.man := by
  simp only [Cfg.alignedExp, alignShift, Cfg.prec]
  omega

/-- The shift of R309: the one that brings the leading bit to bit MB, but never below e_min. -/
theorem finalShift_eq_max (c : Cfg) (e : Int) (m : Nat) : finalShift c e m = max (alignShift c m) (c.eMin - e) := by
  unfold finalShift
  split <;> omega

theorem Cfg.Legal.bias_bounds {c : Cfg} {w : Nat} (h : c.Legal w) : 1 ≤ c.bias ∧ c.bias ≤ 2 ^ 30 - 1 := by
  obtain ⟨hlo, hhi, -, -⟩ := h
  have h1 : (2 : Int) ^ 1 ≤ 2 ^ (c.ebN - 1) := pow_le_pow_right₀ (by decide) (by omega)
  have h2 : (2 : Int) ^ (c.ebN - 1) ≤ 2 ^ 30 := pow_le_pow_right₀ (by decide) (by omega)
  simp only [Cfg.bias]
  omega

/-- The exponent of a canonical float fits its register (R53, R60, R61). -/
theorem Cfg.Canonical.expFits {c : Cfg} {w : Nat} {f : FloatReg} (hl : c.Legal w) (h : c.Canonical f) : ExpFits f.exp := by
  have hb := Cfg.Legal.bias_bounds hl
  suffices hrange : c.eMin ≤ f.exp ∧ f.exp ≤ c.eMax + 1 by
    simp only [Cfg.eMin, Cfg.eMax] at hrange
    simp only [ExpFits]
    omega
  have hle : c.eMin ≤ c.eMax := by simp only [Cfg.eMin, Cfg.eMax]; omega
  unfold Cfg.Canonical at h
  split at h
  · rw [h]; exact ⟨le_refl c.eMin, show c.eMin ≤ c.eMax + 1 by omega⟩
  · exact ⟨h.1, by have := h.2.1; omega⟩
  · rw [h]; exact ⟨show c.eMin ≤ c.eMax + 1 by omega, le_refl (c.eMax + 1)⟩
  · rw [h]; exact ⟨show c.eMin ≤ c.eMax + 1 by omega, le_refl (c.eMax + 1)⟩

/-! ### Canonical results -/

/-- A result is canonical, has the sign of its operand, is no NaN, and has OVF set exactly when it is Infinity (R312, R314). -/
structure NormResult.IsCanonical (c : Cfg) (sign : Bool) (r : NormResult) : Prop where
  canonical : c.Canonical r.val
  sign_eq : r.val.sign = sign
  ovf_iff : r.ovf = true ↔ r.val.cat = .infinity
  not_nan : r.val.cat ≠ .nan

theorem isCanonical_infinity (c : Cfg) (sign : Bool) (lf : LossFraction) :
    NormResult.IsCanonical c sign { val := c.infinityFloat sign, loss := lf, ovf := true } :=
  ⟨rfl, rfl, ⟨fun _ => rfl, fun _ => rfl⟩, nofun⟩

theorem isCanonical_zero (c : Cfg) (sign : Bool) (lf : LossFraction) :
    NormResult.IsCanonical c sign { val := c.zeroFloat sign, loss := lf, ovf := false } :=
  ⟨rfl, rfl, ⟨nofun, nofun⟩, nofun⟩

theorem isCanonical_normal {c : Cfg} {sign : Bool} {lf : LossFraction} {e : Int} {m : Nat} (h : c.CanonicalNormal e m) :
    NormResult.IsCanonical c sign { val := { sign := sign, cat := .normal, exp := e, man := m }, loss := lf, ovf := false } :=
  ⟨h, rfl, ⟨nofun, nofun⟩, nofun⟩

section Rounding

variable {c : Cfg} {mode : RoundingMode} {sign : Bool} {ef : Int} {mk : Nat} {lf : LossFraction}

/-- No unit is added (R255): the kept mantissa is the result, and 0 is Zero (R311). -/
theorem roundKept_of_not_up (h : roundUp mode sign lf (mk % 2 == 1) = false) :
    roundKept c mode sign ef mk lf =
      if mk = 0 then { val := c.zeroFloat sign, loss := lf, ovf := false }
      else { val := { sign := sign, cat := .normal, exp := ef, man := mk }, loss := lf, ovf := false } := by
  simp [roundKept, h]

/-- A unit is added and the mantissa becomes 2^P: it folds to 2^MB one exponent up, which may be Infinity (R310). -/
theorem roundKept_of_carry (h : roundUp mode sign lf (mk % 2 == 1) = true) (hcarry : mk + 1 = 2 ^ c.prec) :
    roundKept c mode sign ef mk lf =
      if c.eMax < ef + 1 then { val := c.infinityFloat sign, loss := lf, ovf := true }
      else { val := { sign := sign, cat := .normal, exp := ef + 1, man := 2 ^ c.mbN }, loss := lf, ovf := false } := by
  simp [roundKept, h, hcarry]

/-- A unit is added with no carry out of P bits (R310). -/
theorem roundKept_of_no_carry (h : roundUp mode sign lf (mk % 2 == 1) = true) (hcarry : mk + 1 ≠ 2 ^ c.prec)
    (hmax : ef ≤ c.eMax) :
    roundKept c mode sign ef mk lf =
      { val := { sign := sign, cat := .normal, exp := ef, man := mk + 1 }, loss := lf, ovf := false } := by
  simp [roundKept, h, hcarry, hmax]

/-- Rounding a kept mantissa of at most P bits, with its leading bit at bit MB above e_min, gives a canonical result (R310, R311). -/
theorem roundKept_isCanonical (hmin : c.eMin ≤ ef) (hmax : ef ≤ c.eMax) (hlt : mk < 2 ^ c.prec)
    (hlead : c.eMin < ef → 2 ^ c.mbN ≤ mk) : (roundKept c mode sign ef mk lf).IsCanonical c sign := by
  cases hup : roundUp mode sign lf (mk % 2 == 1) with
  | false =>
    rw [roundKept_of_not_up hup]
    split
    · exact isCanonical_zero c sign lf
    · rename_i hne
      exact isCanonical_normal ⟨hmin, hmax, Nat.pos_of_ne_zero hne, hlt, hlead⟩
  | true =>
    by_cases hcarry : mk + 1 = 2 ^ c.prec
    · rw [roundKept_of_carry hup hcarry]
      split
      · exact isCanonical_infinity c sign lf
      · rename_i hfits
        have hfold : 2 ^ c.mbN < 2 ^ c.prec := Nat.pow_lt_pow_right (by decide) (Nat.lt_succ_self _)
        exact isCanonical_normal ⟨by omega, not_lt.mp hfits, Nat.two_pow_pos _, hfold, fun _ => le_refl _⟩
    · rw [roundKept_of_no_carry hup hcarry hmax]
      exact isCanonical_normal
        ⟨hmin, hmax, Nat.succ_pos mk, lt_of_le_of_ne hlt hcarry, fun h => (hlead h).trans (Nat.le_succ mk)⟩

end Rounding

/-! ### The normalizer -/

/-- R307: a left shift stops with the leading bit at bit MB, or at e_min. -/
theorem canonicalNormal_of_left_shift {c : Cfg} {e : Int} {m : Nat} (hm : m ≠ 0) (hmax : e + alignShift c m ≤ c.eMax)
    (hrange : c.eMin ≤ c.eMax) (hneg : finalShift c e m < 0) :
    c.CanonicalNormal (e + finalShift c e m) (m <<< (-finalShift c e m).toNat) := by
  rw [finalShift_eq_max] at *
  have hle := le_max_left (alignShift c m) (c.eMin - e)
  simp only [alignShift, Cfg.prec] at *
  refine ⟨by omega, by omega, ?_, shiftLeft_lt_two_pow ?_, fun h => two_pow_le_shiftLeft hm ?_⟩
  · exact (Nat.two_pow_pos (msb m)).trans_le (two_pow_le_shiftLeft hm (by omega))
  · simp only [Cfg.prec]; omega
  · omega

/-- A loss that is usable meets no left shift (R318). -/
theorem finalShift_nonneg_of_lossUsable {c : Cfg} {lin : LossFraction} {f : FloatReg} (h : c.LossUsable lin f)
    (hlin : lin ≠ .exactlyZero) (hmax : f.exp + alignShift c f.man ≤ c.eMax) : 0 ≤ finalShift c f.exp f.man := by
  rw [finalShift_eq_max]
  obtain h | ⟨hne, hover | hlead | hmin⟩ := h
  · exact absurd h hlin
  · rw [Cfg.alignedExp_eq] at hover
    omega
  · have hmsb : c.mbN ≤ msb f.man := (Nat.le_log2 hne).mpr hlead
    refine le_max_of_le_left ?_
    simp only [alignShift, Cfg.prec]
    omega
  · exact le_max_of_le_right (by omega)

/-- R314 on the normalizer: with a usable loss it completes, and its result is canonical. -/
theorem normalizeFinite_isCanonical {c : Cfg} {w : Nat} (hl : c.Legal w) (mode : RoundingMode) {lin : LossFraction}
    {f : FloatReg} (h : c.LossUsable lin f) :
    ∃ r, normalizeFinite c mode lin f = .ok r ∧ r.IsCanonical c f.sign := by
  have hrange : c.eMin ≤ c.eMax := by
    have hb := Cfg.Legal.bias_bounds hl
    simp only [Cfg.eMin, Cfg.eMax]
    omega
  by_cases hne : f.man = 0
  · have hlin : lin = .exactlyZero := h.resolve_right fun h' => h'.1 hne
    exact ⟨_, by rw [normalizeFinite, if_pos hne, if_pos hlin], isCanonical_zero _ _ _⟩
  rw [normalizeFinite, if_neg hne, normalizeNonzero]
  by_cases hover : c.eMax < f.exp + alignShift c f.man
  · exact ⟨_, if_pos hover, isCanonical_infinity _ _ _⟩
  rw [if_neg hover]
  have hmax := not_lt.mp hover
  by_cases hneg : finalShift c f.exp f.man < 0
  · have hlin : lin = .exactlyZero := by
      by_contra hlin
      have := finalShift_nonneg_of_lossUsable h hlin hmax
      omega
    exact ⟨_, by rw [if_pos hneg, if_pos hlin], isCanonical_normal (canonicalNormal_of_left_shift hne hmax hrange hneg)⟩
  · refine ⟨_, if_neg hneg, roundKept_isCanonical ?_ ?_ (shiftRight_lt_two_pow ?_) fun h => two_pow_le_shiftRight hne ?_⟩ <;>
      rw [finalShift_eq_max] at *
    · omega
    · omega
    · simp only [alignShift, Cfg.prec] at *; omega
    · simp only [alignShift, Cfg.prec] at *; omega

theorem Category.special_of_finite {k : Category} (h : k = .zero ∨ k = .normal) : k.special = false := by
  obtain rfl | rfl := h <;> rfl

/-- F[rd] after NORM, when the exponent of the result fits its register. -/
theorem State.readF_writeNorm_self (s : State) (rd : Idx) {r : NormResult} (h : ExpFits r.val.exp) :
    (s.writeNorm rd r).readF rd = r.val := by
  rw [State.writeNorm, State.readF_writeOvf, State.readF_writeLoss, State.readF_writeF_self s rd h]

/-- Settles O31: the normalizer completes with a canonical result, and the register holds that result. -/
theorem normResultsAreCanonical : Obligations.NormResultsAreCanonical := by
  intro rd ra rm l s mode hl hm hcat hloss
  obtain ⟨r, hr, hcanonical, hsign, hovf, hnan⟩ := normalizeFinite_isCanonical hl mode hloss
  have hrun : normalizeFloat s.cfg mode (s.incomingLoss l) (s.readF ra) = .ok r := by
    exact (if_neg (ne_true_of_eq_false (Category.special_of_finite hcat))).trans hr
  have hval : (s.writeNorm rd r).retire.readF rd = r.val := s.readF_writeNorm_self rd (hcanonical.expFits hl)
  refine ⟨_, exec_norm_of_ok hl hm hrun, hval.symm ▸ hcanonical, ?_, ?_, ?_⟩
  · exact (congrArg FloatReg.sign hval).trans hsign
  · exact hovf.trans (by rw [← hval]; rfl)
  · exact fun h => hnan (hval ▸ h)

end Sys2Proof.Machine
end

section
/-! PROOFS. Precise errors of commands (O9), and what the host port drops, answers or accepts besides the plain accesses to an
idle unit: reserved and read-only addresses (O49), reads in every state and while busy (O50, O51), submission (O52) and writes
while busy (O53). -/

namespace Sys2Proof.Machine

/-! ### The end of a command (R114, R452) -/

theorem State.raiseByCommand_of_latch {s : State} {w : Word} (h : s.latch = some w) (k : ErrCode) :
    s.raiseByCommand k = s.afterError k w := by
  rw [State.raiseByCommand_eq, State.commandWord, h, Option.getD_some]

/-- Settles O9: a commit keeps the error state, and an error entry is `State.afterError`. -/
theorem commandErrorsArePrecise : Obligations.CommandErrorsArePrecise := by
  intro i s t w hl hstep
  obtain ⟨r, hend, hkeeps⟩ := exec_endsKeepingFlags i s
  obtain ⟨u, hr, rfl⟩ | ⟨k, -, rfl⟩ := State.finish_cases (hend.symm.trans hstep)
  · exact .inl (hkeeps u hr).error
  · exact .inr ⟨k, State.raiseByCommand_of_latch hl k⟩

/-! ### Reserved addresses and read-only registers (R104) -/

/-- A write to an idle unit of a register that stores nothing changes nothing. -/
theorem step_of_ignored_write {s : State} {a : Addr} {d : Word} {ts : List Turn} {r : PortReg} (h : s.latch = none)
    (ht : s.turns = .hostWrite a d :: ts) (hr : s.portRegAt a = r) (hctrl : r ≠ .ctrl)
    (hsame : ∀ u : State, u.portWrite d r = u) : step s = .next (s.withTurns ts) := by
  rw [step_of_idle_write h ht hr hctrl, hsame]

/-- Settles O49: the addresses name `PortReg.reserved` or a read-only register. -/
theorem reservedAndReadOnlyAddresses : Obligations.ReservedAndReadOnlyAddresses := by
  intro s a d ts hl
  refine ⟨fun ha => ⟨fun ht => ?_, fun ht => ?_⟩, fun ha ht => ?_⟩
  · rw [step_of_idle_read hl ht, State.portRegAt, portReg_reserved ha]
    rfl
  · exact step_of_ignored_write hl ht (portReg_reserved ha) nofun fun _ => rfl
  · obtain ha | ha | ha | ha := ha
    · exact step_of_ignored_write hl ht (portReg_id ha) nofun fun _ => rfl
    · exact step_of_ignored_write hl ht (portReg_param ha) nofun fun _ => rfl
    · exact step_of_ignored_write hl ht (portReg_status ha) nofun fun _ => rfl
    · exact step_of_ignored_write hl ht (portReg_errinfo ha) nofun fun _ => rfl

/-! ### Reads in every state (R107, R110) -/

theorem step_of_read {s : State} {a : Addr} {ts : List Turn} (h : s.turns = .hostRead a :: ts) :
    step s = .next (hostRead a (s.withTurns ts)) :=
  step_of_turn h

theorem hostRead_frame (a : Addr) (s : State) : ∃ v n, hostRead a s = { s with rdata := v, draws := n } := by
  unfold hostRead
  split
  · exact ⟨_, _, rfl⟩
  · exact ⟨_, s.draws, rfl⟩

/-- Settles O50: both kinds of read write the port's answer and the model's count only. -/
theorem readsHaveNoSideEffects : Obligations.ReadsHaveNoSideEffects := by
  intro s a ts ht
  obtain ⟨v, n, hread⟩ := hostRead_frame a (s.withTurns ts)
  exact ⟨v, n, by rw [step_of_read ht, hread]; rfl⟩

/-- A register whose read while busy is no free value answers its word, busy or not (R110). -/
theorem hostRead_rdata_of_not_free {s : State} {a : Addr} {r : PortReg} (hr : s.portRegAt a = r)
    (hf : r.freeWhileBusy = false) : (hostRead a s).rdata = s.portValue r := by
  simp only [hostRead, hr, hf, Bool.and_false, Bool.false_eq_true, if_false]

/-- Settles O51: the addresses name registers with no free value, whose words are read as numbers. -/
theorem busyReadsThatAreSpecified : Obligations.BusyReadsThatAreSpecified := by
  intro s a ts hs hb ht
  have hanswer {r : PortReg} (hr : s.portRegAt a = r) (hf : r.freeWhileBusy = false) :
      (hostRead a (s.withTurns ts)).rdata = s.portValue r :=
    (hostRead_rdata_of_not_free (s := s.withTurns ts) hr hf).trans (s.portValue_withTurns ts r)
  refine ⟨_, step_of_read ht, fun ha => ?_, fun ha => ?_, fun ha => ?_, fun ha => ?_⟩
  · rw [hanswer (portReg_status ha) rfl, State.portValue, State.statusWord_toNat, hb, Bool.toNat_true]
  · rw [hanswer (portReg_id ha) rfl]; rfl
  · rw [hanswer (portReg_param ha) rfl]; exact paramWord_toNat hs.params_legal
  · obtain ha | ha | ha := ha
    · exact hanswer (portReg_cmd ha) rfl
    · exact hanswer (portReg_ctrl ha) rfl
    · exact hanswer (portReg_reserved ha) rfl

/-! ### Writes while busy, and submission (R108, R109, R453) -/

theorem step_of_busy_write {s : State} {a : Addr} {d : Word} {ts : List Turn} (hb : s.busy = true)
    (ht : s.turns = .hostWrite a d :: ts) (ha : a.toNat ≠ 6) : step s = .next ((s.withTurns ts).busyWrite a) := by
  have hctrl : (s.withTurns ts).portRegAt a ≠ .ctrl := fun h => ha (portReg_ctrl_iff.mp h)
  rw [step_of_turn ht, takeTurn, hostWrite, if_neg hctrl]
  exact congrArg Host.Outcome.next (if_pos hb)

theorem State.busyWrite_of_err {s : State} (h : s.error.err = true) (a : Addr) : s.busyWrite a = s := if_pos h

theorem State.busyWrite_of_no_err {s : State} (h : s.error.err = false) (a : Addr) :
    s.busyWrite a = { s with error := { err := true, code := some .busyWrite, info := a.setWidth 32 } } := by
  rw [State.busyWrite, if_neg (ne_true_of_eq_false h), State.raiseByPort, ErrorState.raise_of_no_err h]

/-- Settles O53: the write is `State.busyWrite`, which looks at ERR only. -/
theorem writesWhileBusyAreDropped : Obligations.WritesWhileBusyAreDropped := by
  intro s a d ts hb ha ht
  rw [step_of_busy_write hb ht ha]
  constructor
  · intro herr
    rw [State.busyWrite_of_err (s := s.withTurns ts) herr]
    rfl
  · intro herr
    refine ⟨a.setWidth 32, BitVec.toNat_setWidth_of_le (by decide), ?_⟩
    rw [State.busyWrite_of_no_err (s := s.withTurns ts) herr]
    rfl

theorem State.submit_of_err {s : State} (h : s.error.err = true) (d : Word) : s.submit d = s := if_pos h

theorem State.submit_of_no_err {s : State} (h : s.error.err = false) (d : Word) :
    s.submit d = { s with latch := some d } :=
  if_neg (ne_true_of_eq_false h)

theorem State.latch_eq_none_of_not_busy {s : State} (h : s.busy = false) : s.latch = none :=
  Option.isNone_iff_eq_none.mp (Option.isSome_eq_false_iff.mp h)

theorem step_of_idle_submit {s : State} {w : Word} {ts : List Turn} (hb : s.busy = false)
    (ht : s.turns = .hostWrite 0x0005 w :: ts) : step s = .next ((s.withTurns ts).submit w) :=
  step_of_idle_write (State.latch_eq_none_of_not_busy hb) ht (portReg_cmd rfl) nofun

/-- Settles O52: a busy unit takes the write as any other, and an idle one submits the word. -/
theorem commandSubmission : Obligations.CommandSubmission := by
  intro s w ts ht
  refine ⟨fun herr => ?_, fun herr hb => ?_, fun herr hb => ?_⟩
  · cases hb : s.busy with
    | true => exact (writesWhileBusyAreDropped s 0x0005 w ts hb (by decide) ht).1 herr
    | false =>
      rw [step_of_idle_submit hb ht, State.submit_of_err (s := s.withTurns ts) herr]
      rfl
  · rw [step_of_busy_write hb ht (by decide), State.busyWrite_of_no_err (s := s.withTurns ts) herr]
    rfl
  · rw [step_of_idle_submit hb ht, State.submit_of_no_err (s := s.withTurns ts) herr]
    rfl

end Sys2Proof.Machine
end

section
/-! PROOFS. The decoder and the encoder (O1, O2, O3, O4, O5, O60). One lemma, `decode_cases`, says everything that the decoder
can answer, by the row of R156 that has the word's opcode; the statements about decoded words follow from it. -/

namespace Sys2Proof

/-! ### Decoding an encoded word (R152, R153) -/

/-- A well-formed command is decoded from its word: by format, the word's fields are the operands and the rest is 0. -/
theorem decode_encode {i : Instr} (h : i.wellFormed = true) : decode (encode i) = .ok i := by
  cases i with
  | wadd rd ra rb | wsub rd ra rb | wshl rd ra rb | wshr rd ra rb | eadd rd ra rb | esub rd ra rb | align rd ra rb =>
    simp [encode, Instr.opcode, decode, requireZero, encodeR_opcode, encodeR_zeroAboveRb, encodeR_rd, encodeR_ra, encodeR_rb]
  | wmul rd ra rb =>
    have heven : evenPair rd = true := h
    simp [encode, Instr.opcode, decode, decodeWmul, heven, encodeR_opcode, encodeR_zeroAboveRb, encodeR_rd, encodeR_ra,
      encodeR_rb]
  | wcmp ra rb | ecmp ra rb =>
    simp [encode, Instr.opcode, decode, requireZero, encodeR_opcode, encodeR_zeroRd, encodeR_ra, encodeR_rb]
  | wclz rd ra | wmov rd ra | unpack rd ra | pack rd ra | fmov rd ra =>
    simp [encode, Instr.opcode, decode, requireZero, encodeR_opcode, encodeR_zeroFromRb, encodeR_rd, encodeR_ra]
  | wshli rd ra imm | wshri rd ra imm | eaddi rd ra imm =>
    simp [encode, Instr.opcode, decode, requireZero, encodeI_opcode, encodeI_zeroIReserved, encodeI_rd, encodeI_ra, encodeI_imm]
  | wldi rd imm | eldi rd imm =>
    simp [encode, Instr.opcode, decode, requireZero, encodeI_opcode, encodeI_zeroRa, encodeI_rd, encodeI_imm]
  | norm rd ra rm l =>
    have hl : (l.toNat == 1) = l := by cases l <;> rfl
    simp [encode, Instr.opcode, decode, decodeNorm, hl, encodeNorm_opcode, encodeNorm_rb_zero, encodeNorm_reserved_zero,
      encodeNorm_rm, encodeNorm_rd, encodeNorm_ra, encodeNorm_l]

/-- Settles O2: each field of the encoded word is the operand put there. -/
theorem decodeEncodeRoundTrip : Obligations.DecodeEncodeRoundTrip := fun _ => decode_encode

/-- Settles O1: each word is the encoding of its command. -/
theorem workedEncodingsDecode : Obligations.WorkedEncodingsDecode :=
  ⟨decode_encode (i := .norm 1 0 (.fixed .nearestTiesToEven) false) rfl, decode_encode (i := .norm 3 3 .dyn true) rfl,
    decode_encode (i := .wadd 1 2 3) rfl, decode_encode (i := .wldi 0 65520) rfl, decode_encode (i := .eldi 0 10) rfl,
    decode_encode (i := .eaddi 2 2 (-23)) rfl⟩

/-! ### A word is put together from its fields (R152, R153) -/

section Fields

variable {w : Word} {op : Nat} (hop : field w 0 8 = op)

include hop

theorem opcode_field_lt : op < 256 := hop ▸ Nat.mod_lt _ (by decide)

theorem encodeR_fields (h : zeroAboveRb w = true) : encodeR op (rdField w) (raField w) (rbField w) = w := by
  apply BitVec.eq_of_toNat_eq
  rw [encodeR_toNat (opcode_field_lt hop)]
  simp only [zeroAboveRb, rdField, raField, rbField, regField, field, beq_iff_eq] at *
  omega

theorem encodeR_fields_of_zeroFromRb (h : zeroFromRb w = true) : encodeR op (rdField w) (raField w) 0 = w := by
  apply BitVec.eq_of_toNat_eq
  rw [encodeR_toNat (opcode_field_lt hop), Fin.val_zero]
  simp only [zeroFromRb, rdField, raField, regField, field, beq_iff_eq] at *
  omega

theorem encodeR_fields_of_zeroRd (h : zeroRdAndAboveRb w = true) : encodeR op 0 (raField w) (rbField w) = w := by
  apply BitVec.eq_of_toNat_eq
  rw [encodeR_toNat (opcode_field_lt hop), Fin.val_zero]
  simp only [zeroRdAndAboveRb, zeroAboveRb, raField, rbField, regField, field, Bool.and_eq_true, beq_iff_eq] at *
  omega

theorem encodeI_fields (h : zeroIReserved w = true) : encodeI op (rdField w) (raField w) (immField w) = w := by
  apply BitVec.eq_of_toNat_eq
  rw [encodeI_toNat (opcode_field_lt hop)]
  simp only [zeroIReserved, rdField, raField, immField, regField, field, beq_iff_eq, BitVec.toNat_ofNat] at *
  omega

theorem encodeI_fields_of_zeroRa (h : zeroIReservedAndRa w = true) : encodeI op (rdField w) 0 (immField w) = w := by
  apply BitVec.eq_of_toNat_eq
  rw [encodeI_toNat (opcode_field_lt hop), Fin.val_zero]
  simp only [zeroIReservedAndRa, rdField, immField, regField, field, beq_iff_eq, BitVec.toNat_ofNat] at *
  omega

theorem encodeNorm_fields {rm : RmSel} (hrb : field w 14 3 = 0) (hres : field w 21 11 = 0) (hrm : field w 17 3 = rm.code) :
    encodeNorm op (rdField w) (raField w) rm (field w 20 1 == 1) = w := by
  have hl : (field w 20 1 == 1).toNat = field w 20 1 := by
    have : field w 20 1 < 2 := Nat.mod_lt _ (by decide)
    interval_cases field w 20 1 <;> rfl
  apply BitVec.eq_of_toNat_eq
  rw [encodeNorm_toNat (opcode_field_lt hop), hl, ← hrm]
  simp only [rdField, raField, regField, field] at *
  omega

end Fields

/-! ### Masks as fields (R156) -/

theorem field_eq_toNat_extractLsb' (w : Word) (lo len : Nat) : field w lo len = (w.extractLsb' lo len).toNat := by
  rw [BitVec.extractLsb'_toNat, Nat.shiftRight_eq_div_pow, field]

/-- The word with ones in the `len` bits from bit `lo` up. -/
def fieldMask (lo len : Nat) : Word := (BitVec.allOnes len).setWidth 32 <<< lo

theorem getLsbD_fieldMask (lo len i : Nat) :
    (fieldMask lo len).getLsbD i = (decide (i < 32) && decide (lo ≤ i) && decide (i < lo + len)) := by
  rw [Bool.eq_iff_iff]
  simp only [fieldMask, BitVec.getLsbD_shiftLeft, BitVec.getLsbD_setWidth, BitVec.getLsbD_allOnes, Bool.and_eq_true,
    Bool.not_eq_true', decide_eq_true_iff, decide_eq_false_iff_not]
  omega

theorem and_fieldMask_eq_zero_iff (w : Word) (lo len : Nat) : w &&& fieldMask lo len = 0 ↔ field w lo len = 0 := by
  rw [field_eq_toNat_extractLsb', ← BitVec.toNat_zero (w := len), BitVec.toNat_inj]
  simp only [BitVec.eq_of_getLsbD_eq_iff, BitVec.getLsbD_and, getLsbD_fieldMask, BitVec.getLsbD_extractLsb',
    BitVec.ofNat_eq_ofNat, BitVec.getLsbD_zero]
  constructor
  · intro h i hi
    by_cases h32 : lo + i < 32
    · simpa [hi, h32] using h (lo + i) h32
    · simp [BitVec.getLsbD_of_ge w (lo + i) (by omega)]
  · intro h i hi
    by_cases hlo : lo ≤ i
    · obtain ⟨j, rfl⟩ := Nat.exists_eq_add_of_le hlo
      by_cases hj : j < len
      · simpa [hj, hi] using h j hj
      · simp [hj]
    · simp [hlo]

/-- A mask in two parts, where the value compared with has no bit in the second. -/
theorem and_or_eq_iff {w a b c : Word} (h : c &&& b = 0) : w &&& (a ||| b) = c ↔ w &&& a = c ∧ w &&& b = 0 := by
  simp only [BitVec.eq_of_getLsbD_eq_iff, BitVec.getLsbD_and, BitVec.getLsbD_or, BitVec.ofNat_eq_ofNat, BitVec.getLsbD_zero] at *
  rw [← forall₂_and]
  refine forall₂_congr fun i hi => ?_
  have hdisj := h i hi
  revert hdisj
  cases w.getLsbD i <;> cases a.getLsbD i <;> cases b.getLsbD i <;> cases c.getLsbD i <;> decide

theorem and_opcodeMask_eq_iff {w : Word} {op : Nat} (h : op < 256) :
    w &&& 0x000000FF = BitVec.ofNat 32 op ↔ field w 0 8 = op := by
  rw [← BitVec.toNat_inj, BitVec.toNat_and, BitVec.toNat_ofNat, Nat.mod_eq_of_lt (by omega)]
  rw [show (0xFF : Word).toNat = 2 ^ 8 - 1 from rfl, Nat.and_two_pow_sub_one_eq_mod, field, pow_zero, Nat.div_one]

/-! The must-be-zero tests of the decoder, as masks. -/

theorem zeroAboveRb_iff (w : Word) : zeroAboveRb w = true ↔ w &&& 0xFFFE0000 = 0 := by
  rw [zeroAboveRb, beq_iff_eq, ← and_fieldMask_eq_zero_iff]; rfl

theorem zeroFromRb_iff (w : Word) : zeroFromRb w = true ↔ w &&& 0xFFFFC000 = 0 := by
  rw [zeroFromRb, beq_iff_eq, ← and_fieldMask_eq_zero_iff]; rfl

theorem zeroRdAndAboveRb_iff (w : Word) : zeroRdAndAboveRb w = true ↔ w &&& 0xFFFE0700 = 0 := by
  rw [zeroRdAndAboveRb, Bool.and_eq_true, zeroAboveRb_iff, beq_iff_eq, ← and_fieldMask_eq_zero_iff]
  exact (and_or_eq_iff (by decide)).symm

theorem zeroIReserved_iff (w : Word) : zeroIReserved w = true ↔ w &&& 0x0000C000 = 0 := by
  rw [zeroIReserved, beq_iff_eq, ← and_fieldMask_eq_zero_iff]; rfl

theorem zeroIReservedAndRa_iff (w : Word) : zeroIReservedAndRa w = true ↔ w &&& 0x0000F800 = 0 := by
  rw [zeroIReservedAndRa, beq_iff_eq, ← and_fieldMask_eq_zero_iff]; rfl

theorem evenPair_rdField_iff (w : Word) : evenPair (rdField w) = true ↔ field w 8 1 = 0 := by
  simp only [evenPair, rdField, regField, field, beq_iff_eq]
  omega

theorem zeroWmul_iff (w : Word) : (zeroAboveRb w && evenPair (rdField w)) = true ↔ w &&& 0xFFFE0100 = 0 := by
  rw [Bool.and_eq_true, zeroAboveRb_iff, evenPair_rdField_iff, ← and_fieldMask_eq_zero_iff]
  exact (and_or_eq_iff (by decide)).symm

theorem zeroNorm_iff (w : Word) : (field w 14 3 == 0 && field w 21 11 == 0) = true ↔ w &&& 0xFFE1C000 = 0 := by
  rw [Bool.and_eq_true, beq_iff_eq, beq_iff_eq, ← and_fieldMask_eq_zero_iff, ← and_fieldMask_eq_zero_iff]
  exact (and_or_eq_iff (by decide)).symm

/-! ### Rows of the table -/

/-- The row of R156 for the opcode `op` whose mask covers, beside the opcode byte, the bits of `zero`. -/
def rowOf (op : Nat) (zero : Word) : OpcodeRow := ⟨op, BitVec.ofNat 32 op, 0x000000FF ||| zero⟩

theorem eq_rowOf_of_mem : ∀ r ∈ opcodeTable,
    r = rowOf r.op (r.mask &&& 0xFFFFFF00) ∧ r.op < 256 ∧ BitVec.ofNat 32 r.op &&& (r.mask &&& 0xFFFFFF00) = 0 := by decide

theorem row_eq_of_op_eq : ∀ r ∈ opcodeTable, ∀ r' ∈ opcodeTable, r.op = r'.op → r = r' := by decide

/-- A word meets a row when it has the row's opcode and 0 in the rest of the row's mask. -/
theorem hit_rowOf_iff {op : Nat} {zero : Word} (hop : op < 256) (hzero : BitVec.ofNat 32 op &&& zero = 0) (w : Word) :
    (rowOf op zero).hit w = true ↔ field w 0 8 = op ∧ w &&& zero = 0 := by
  rw [OpcodeRow.hit, rowOf, beq_iff_eq, and_or_eq_iff hzero, and_opcodeMask_eq_iff hop]

theorem field_eq_op_of_hit {r : OpcodeRow} (hr : r ∈ opcodeTable) {w : Word} (h : r.hit w = true) : field w 0 8 = r.op := by
  obtain ⟨hrow, hop, hzero⟩ := eq_rowOf_of_mem r hr
  rw [hrow] at h
  exact ((hit_rowOf_iff hop hzero w).mp h).1

/-! ### Everything the decoder can answer (R156, R157) -/

/-- The rm field holds a code that R158 reserves. -/
abbrev ReservedRm (w : Word) : Prop := field w 17 3 = 4 ∨ field w 17 3 = 5 ∨ field w 17 3 = 6

/-- What decoding a word with the opcode of row `r` can answer. -/
inductive RowAnswer (r : OpcodeRow) (w : Word) : Except DecodeError Instr → Prop where
  | command {i : Instr} (hit : r.hit w = true) (rm : r.op = 0x20 → ¬ ReservedRm w) (opcode : i.opcode = r.op)
      (wellFormed : i.wellFormed = true) (word : encode i = w) : RowAnswer r w (.ok i)
  | reservedField (miss : r.hit w = false) (wmul : r.op = 0x03 → field w 17 15 ≠ 0) :
      RowAnswer r w (.error .reservedField)
  | oddPair (miss : r.hit w = false) (op : r.op = 0x03) (odd : field w 8 1 = 1) : RowAnswer r w (.error .oddPair)
  | reservedRounding (op : r.op = 0x20) (rm : ReservedRm w) : RowAnswer r w (.error .reservedRounding)

/-- The answer is that of the row of the table with the word's opcode. -/
def AnsweredByRow (w : Word) (e : Except DecodeError Instr) : Prop :=
  ∃ r ∈ opcodeTable, r.op = field w 0 8 ∧ RowAnswer r w e

theorem answeredByRow_requireZero {w : Word} {op : Nat} {mask : Word} {zero : Bool} {i : Instr}
    (hrow : rowOf op mask ∈ opcodeTable ∧ op < 256 ∧ BitVec.ofNat 32 op &&& mask = 0 ∧ op ≠ 0x03 ∧ op ≠ 0x20)
    (hop : field w 0 8 = op) (hzero : zero = true ↔ w &&& mask = 0) (hi : i.opcode = op ∧ i.wellFormed = true)
    (hword : zero = true → encode i = w) : AnsweredByRow w (requireZero zero i) := by
  obtain ⟨hmem, hlt, hdisj, hwmul, hnorm⟩ := hrow
  have hhit : (rowOf op mask).hit w = true ↔ zero = true := by
    rw [hit_rowOf_iff hlt hdisj, and_iff_right hop, hzero]
  refine ⟨_, hmem, hop.symm, ?_⟩
  cases zero with
  | true => exact .command (hhit.mpr rfl) (absurd · hnorm) hi.1 hi.2 (hword rfl)
  | false => exact .reservedField (Bool.eq_false_iff.mpr (nofun ∘ hhit.mp)) (absurd · hwmul)

theorem answeredByRow_decodeWmul {w : Word} (hop : field w 0 8 = 0x03) : AnsweredByRow w (decodeWmul w) := by
  have hhit : (rowOf 0x03 0xFFFE0100).hit w = true ↔ zeroAboveRb w = true ∧ evenPair (rdField w) = true := by
    rw [hit_rowOf_iff (by decide) (by decide), and_iff_right hop, ← zeroWmul_iff, Bool.and_eq_true]
  refine ⟨rowOf 0x03 0xFFFE0100, by decide, hop.symm, ?_⟩
  unfold decodeWmul
  split
  next hzero =>
    split
    next heven => exact .command (hhit.mpr ⟨hzero, heven⟩) nofun rfl heven (encodeR_fields hop hzero)
    next hodd =>
      refine .oddPair (Bool.eq_false_iff.mpr fun h => hodd (hhit.mp h).2) rfl ?_
      rw [evenPair_rdField_iff] at hodd
      have : field w 8 1 < 2 := Nat.mod_lt _ (by decide)
      omega
  next hnonzero =>
    refine .reservedField (Bool.eq_false_iff.mpr fun h => hnonzero (hhit.mp h).1) fun _ h => hnonzero ?_
    rw [zeroAboveRb, h, beq_self_eq_true]

theorem rmSel_eq_none_iff : ∀ k < 8, rmSel k = none ↔ k = 4 ∨ k = 5 ∨ k = 6 := by decide

theorem answeredByRow_decodeNorm {w : Word} (hop : field w 0 8 = 0x20) : AnsweredByRow w (decodeNorm w) := by
  have hhit : (rowOf 0x20 0xFFE1C000).hit w = true ↔ (field w 14 3 == 0 && field w 21 11 == 0) = true := by
    rw [hit_rowOf_iff (by decide) (by decide), and_iff_right hop, ← zeroNorm_iff]
  have hnone : rmSel (field w 17 3) = none ↔ ReservedRm w := rmSel_eq_none_iff _ (Nat.mod_lt _ (by decide))
  refine ⟨rowOf 0x20 0xFFE1C000, by decide, hop.symm, ?_⟩
  unfold decodeNorm
  split
  next hzero =>
    split
    next rm hrm =>
      have hfields : field w 14 3 = 0 ∧ field w 21 11 = 0 := by simpa using hzero
      refine .command (hhit.mpr hzero) (fun _ h => ?_) rfl rfl
        (encodeNorm_fields hop hfields.1 hfields.2 (rmSel_eq_some hrm))
      rw [hnone.mpr h] at hrm
      cases hrm
    next hrm => exact .reservedRounding rfl (hnone.mp hrm)
  next hnonzero => exact .reservedField (Bool.eq_false_iff.mpr (hnonzero ∘ hhit.mp)) nofun

/-- Everything the decoder can answer: what the row with the word's opcode gives, or, where there is none, a reserved opcode. -/
theorem decode_cases (w : Word) : AnsweredByRow w (decode w) ∨
    (decode w = .error .reservedOpcode ∧ ∀ r ∈ opcodeTable, r.op ≠ field w 0 8) := by
  unfold decode
  split
  -- `h_n` is the n-th arm of `decode`, so the n-th row of R156; the arms of one format have one mask
  case h_1 hop | h_2 hop | h_4 hop | h_5 hop | h_12 hop | h_13 hop | h_18 hop =>
    exact .inl (answeredByRow_requireZero (by decide) hop (zeroAboveRb_iff w) ⟨rfl, rfl⟩ (encodeR_fields hop))
  case h_9 hop | h_11 hop | h_19 hop | h_20 hop | h_21 hop =>
    exact .inl (answeredByRow_requireZero (by decide) hop (zeroFromRb_iff w) ⟨rfl, rfl⟩ (encodeR_fields_of_zeroFromRb hop))
  case h_8 hop | h_15 hop =>
    exact .inl (answeredByRow_requireZero (by decide) hop (zeroRdAndAboveRb_iff w) ⟨rfl, rfl⟩ (encodeR_fields_of_zeroRd hop))
  case h_6 hop | h_7 hop | h_14 hop =>
    exact .inl (answeredByRow_requireZero (by decide) hop (zeroIReserved_iff w) ⟨rfl, rfl⟩ (encodeI_fields hop))
  case h_10 hop | h_16 hop =>
    exact .inl (answeredByRow_requireZero (by decide) hop (zeroIReservedAndRa_iff w) ⟨rfl, rfl⟩ (encodeI_fields_of_zeroRa hop))
  case h_3 hop => exact .inl (answeredByRow_decodeWmul hop)
  case h_17 hop => exact .inl (answeredByRow_decodeNorm hop)
  case h_22 =>
    refine .inr ⟨rfl, ?_⟩
    simp only [opcodeTable, List.cons_append, List.nil_append, List.forall_mem_cons, List.not_mem_nil, false_imp_iff,
      implies_true, and_true]
    and_intros <;> exact Ne.symm ‹_›

/-- The row that answers is the row that holds, for any answer but a reserved opcode. -/
theorem answeredByRow_of_decode {w : Word} {e : Except DecodeError Instr} (h : decode w = e)
    (he : e ≠ .error .reservedOpcode) : AnsweredByRow w e := by
  obtain hrow | ⟨hnone, -⟩ := decode_cases w
  · exact h ▸ hrow
  · exact absurd (h.symm.trans hnone) he

theorem rowAnswer_of_hit {r : OpcodeRow} (hr : r ∈ opcodeTable) {w : Word} (h : r.hit w = true) :
    RowAnswer r w (decode w) := by
  have hop := field_eq_op_of_hit hr h
  obtain ⟨r', hr', hop', hanswer⟩ | ⟨-, hnone⟩ := decode_cases w
  · rwa [row_eq_of_op_eq r hr r' hr' (hop.symm.trans hop'.symm)]
  · exact absurd hop.symm (hnone r hr)

/-! ### The statements about decoded words -/

theorem encode_of_decode {w : Word} {i : Instr} (h : decode w = .ok i) : i.wellFormed = true ∧ encode i = w := by
  obtain ⟨r, -, -, hanswer⟩ := answeredByRow_of_decode h nofun
  cases hanswer with
  | command _ _ _ hwf hword => exact ⟨hwf, hword⟩

/-- Settles O3: the command's fields are the word's, and another command with this encoding would be decoded from it too. -/
theorem everyWordHasOneMeaning : Obligations.EveryWordHasOneMeaning := by
  intro w i h
  obtain ⟨hwf, hword⟩ := encode_of_decode h
  refine ⟨hwf, hword, fun j hj hjw => ?_⟩
  rw [← hjw, decode_encode hj] at h
  exact Except.ok.inj h

/-- Settles O4: a command is decoded where the row with the word's opcode is met and rm is not reserved, and only there. -/
theorem decoderFollowsOpcodeTable : Obligations.DecoderFollowsOpcodeTable := by
  refine ⟨fun w i h => ?_, fun w => ⟨fun ⟨i, h⟩ => ?_, fun ⟨r, hr, hhit, hrm⟩ => ?_⟩⟩
  · obtain ⟨r, hr, -, hanswer⟩ := answeredByRow_of_decode h nofun
    cases hanswer with
    | command hhit _ hop => exact ⟨r, hr, hhit, hop.symm⟩
  · obtain ⟨r, hr, -, hanswer⟩ := answeredByRow_of_decode h nofun
    cases hanswer with
    | command hhit hrm => exact ⟨r, hr, hhit, fun h => by simpa only [not_or] using hrm h⟩
  · have hanswer := rowAnswer_of_hit hr hhit
    generalize decode w = e at hanswer ⊢
    cases hanswer with
    | command => exact ⟨_, rfl⟩
    | reservedField hmiss | oddPair hmiss => exact absurd (hhit.symm.trans hmiss) nofun
    | reservedRounding hop h => exact absurd h (by simpa only [not_or] using hrm hop)

/-- Settles O5: each reason is an answer of the row with the word's opcode, or says that there is no such row. -/
theorem rejectionsAreTheFourCases : Obligations.RejectionsAreTheFourCases := by
  refine ⟨fun w => ⟨fun h => ?_, fun h => ?_⟩, fun w h => ?_, fun w h => ?_, fun w h => ?_⟩
  · obtain ⟨r, -, -, hanswer⟩ | ⟨-, hnone⟩ := decode_cases w
    · rw [h] at hanswer
      cases hanswer
    · exact hnone
  · obtain ⟨r, hr, hop, -⟩ | ⟨hdecode, -⟩ := decode_cases w
    · exact absurd hop (h r hr)
    · exact hdecode
  · obtain ⟨r, -, hop, hanswer⟩ := answeredByRow_of_decode h nofun
    cases hanswer with
    | oddPair _ hwmul hodd => exact ⟨hop.symm.trans hwmul, hodd⟩
  · obtain ⟨r, -, hop, hanswer⟩ := answeredByRow_of_decode h nofun
    cases hanswer with
    | reservedRounding hnorm hrm => exact ⟨hop.symm.trans hnorm, hrm⟩
  · obtain ⟨r, hr, hop, hanswer⟩ := answeredByRow_of_decode h nofun
    cases hanswer with
    | reservedField hmiss hwmul => exact ⟨r, hr, hop, hmiss, hwmul⟩

/-! ### The codes of the rounding modes (R158, R300) -/

theorem RmSel.code_inj {a b : RmSel} (h : a.code = b.code) : a = b := by
  rw [← Option.some_inj, ← rmSel_code a, h, rmSel_code]

theorem RmSel.eq_iff_code_eq (a b : RmSel) : a = b ↔ a.code = b.code := ⟨congrArg _, RmSel.code_inj⟩

theorem modeOfCode_eq_some_iff {n : Nat} {m : RoundingMode} : Machine.modeOfCode n = some m ↔ n = m.code := by
  constructor
  · unfold Machine.modeOfCode
    split <;> rintro ⟨⟩ <;> rfl
  · rintro rfl
    cases m <;> rfl

theorem modeOfCode_eq_none_iff {n : Nat} : Machine.modeOfCode n = none ↔ 3 < n := by
  refine ⟨fun h => ?_, Machine.modeOfCode_of_three_lt⟩
  by_contra hn
  interval_cases n <;> cases h

theorem fields_of_decode_norm {w : Word} {rd ra : Idx} {rm : RmSel} {l : Bool} (h : decode w = .ok (.norm rd ra rm l)) :
    field w 17 3 = rm.code ∧ field w 20 1 = l.toNat ∧ field w 0 8 = 0x20 := by
  obtain ⟨-, rfl⟩ := encode_of_decode h
  have hlt := Instr.opcode_lt (.norm rd ra rm l)
  exact ⟨encodeNorm_rm hlt rd ra rm l, encodeNorm_l hlt rd ra rm l, encodeNorm_opcode hlt rd ra rm l⟩

/-- Settles O60: a decoded NORM is encoded by its word, and CFG.RM is read by `modeOfCode`. -/
theorem roundingModeCodes : Obligations.RoundingModeCodes := by
  refine ⟨fun w rd ra rm l h => ?_, fun _ _ => rfl, fun c => ?_⟩
  · obtain ⟨hrm, hl, hop⟩ := fields_of_decode_norm h
    simp only [hrm, hl, hop, RmSel.eq_iff_code_eq]
    exact ⟨Iff.rfl, Iff.rfl, Iff.rfl, Iff.rfl, Iff.rfl, Bool.toNat_eq_one.symm, trivial⟩
  · exact ⟨modeOfCode_eq_some_iff, modeOfCode_eq_some_iff, modeOfCode_eq_some_iff, modeOfCode_eq_some_iff,
      modeOfCode_eq_none_iff⟩

end Sys2Proof
end

section
/-! PROOFS. What a command leaves to the host (O8), what a unit's turn does with an illegal word (O7), and that the unit becomes
idle (O10). -/

namespace Sys2Proof.Machine

/-! ### What no command changes (R150) -/

/-- From `s` to `t`, what is not a command's to change is as before: CFG, the parameters, and what belongs to the host. -/
structure KeepsHostSide (s t : State) : Prop where
  turns : t.turns = s.turns
  cfg : t.cfg = s.cfg
  params : t.params = s.params
  rdata : t.rdata = s.rdata
  draws : t.draws = s.draws

/-- Every write and every end of a command keeps the host's side of a state `s`. -/
theorem keptByWrites_keepsHostSide (s : State) : KeptByWrites fun u v => u = v ∧ KeepsHostSide s u where
  params h := h.1 ▸ rfl
  loss h := h.1 ▸ rfl
  writeX h _ _ := ⟨h.1 ▸ rfl, { h.2 with }⟩
  writeE h _ _ := ⟨h.1 ▸ rfl, { h.2 with }⟩
  writeMeta h _ _ _ := ⟨h.1 ▸ rfl, { h.2 with }⟩
  writeLoss h _ := ⟨h.1 ▸ rfl, { h.2 with }⟩
  writeC h _ := ⟨h.1 ▸ rfl, { h.2 with }⟩
  writeCmp h _ := ⟨h.1 ▸ rfl, { h.2 with }⟩
  writeOvf h _ := ⟨h.1 ▸ rfl, { h.2 with }⟩
  writeSwap h _ := ⟨h.1 ▸ rfl, { h.2 with }⟩
  retire h := ⟨h.1 ▸ rfl, { h.2 with }⟩
  raiseByCommand h _ := ⟨h.1 ▸ rfl, { h.2 with }⟩

/-- A command related to itself: it has a next state, which keeps the host's side. -/
theorem exec_keepsHostSide (i : Instr) (s : State) : ∃ t, exec i s = .next t ∧ KeepsHostSide s t := by
  obtain ⟨t, _, hexec, -, -, hkeeps⟩ := exec_related (keptByWrites_keepsHostSide s) (s := s) (t := s)
    ⟨rfl, rfl, rfl, rfl, rfl, rfl⟩ i (fun o _ => sameOperand_of_eq rfl rfl rfl rfl o) fun _ => rfl
  exact ⟨t, hexec, hkeeps⟩

/-- Both ends of a command, the commit and the error entry, empty the latch. -/
theorem busy_eq_false_of_exec {i : Instr} {s t : State} (h : exec i s = .next t) : t.busy = false := by
  obtain ⟨r, hend, -⟩ := exec_endsKeepingFlags i s
  obtain ⟨u, -, rfl⟩ | ⟨k, -, rfl⟩ := State.finish_cases (hend.symm.trans h) <;> rfl

/-- Settles O8: every command has a next state with the host's side kept, and each of its ends clears BUSY. -/
theorem everyCommandCompletesInOneStep : Obligations.EveryCommandCompletesInOneStep := by
  intro i s
  obtain ⟨t, hexec, hturns, hcfg, hparams, hrdata, hdraws⟩ := exec_keepsHostSide i s
  exact ⟨t, hexec, busy_eq_false_of_exec hexec, hturns, hcfg, hparams, hrdata, hdraws⟩

/-! ### The unit's turn (R150, R157, R476) -/

theorem unitStep_of_illegal {s : State} {w : Word} {r : DecodeError} (hl : s.latch = some w) (hd : decode w = .error r) :
    unitStep s = .next (s.afterError .illegal w) := by
  simp only [unitStep, hl, hd, State.raiseByCommand_of_latch hl]

theorem unitStep_of_idle {s : State} (hl : s.latch = none) : unitStep s = .next s := by
  simp only [unitStep, hl]

/-- Settles O7: the step is the unit's turn, which only raises ILLEGAL for an illegal word and does nothing when idle. -/
theorem illegalWordsAndIdleTurns : Obligations.IllegalWordsAndIdleTurns :=
  ⟨fun s _ _ hl hd => ⟨fun ts h => (step_of_turn h).trans (unitStep_of_illegal (s := s.withTurns ts) hl hd),
      fun h => (step_of_no_turn h).trans (unitStep_of_illegal hl hd)⟩,
    fun s hl => ⟨fun h => (step_of_no_turn h).trans (unitStep_of_idle hl),
      fun ts h => (step_of_turn h).trans (unitStep_of_idle (s := s.withTurns ts) hl)⟩⟩

/-- The unit's turn leaves it idle, and the host's turns as they are. -/
theorem unitStep_next (s : State) : ∃ t, unitStep s = .next t ∧ t.busy = false ∧ t.turns = s.turns := by
  cases hl : s.latch with
  | none => exact ⟨s, unitStep_of_idle hl, by rw [State.busy, hl]; rfl, rfl⟩
  | some w =>
    cases hd : decode w with
    | error r => exact ⟨_, unitStep_of_illegal hl hd, rfl, rfl⟩
    | ok i =>
      obtain ⟨t, hexec, hidle, hturns, -⟩ := everyCommandCompletesInOneStep i s
      exact ⟨t, (unitStep_of_decode hl hd).trans hexec, hidle, hturns⟩

/-! ### A busy unit becomes idle (R511) -/

theorem hostRead_turns (a : Addr) (s : State) : (hostRead a s).turns = s.turns := by
  obtain ⟨v, n, h⟩ := hostRead_frame a s
  rw [h]

theorem hostWrite_turns (a : Addr) (d : Word) (s : State) : (hostWrite a d s).turns = s.turns := by
  unfold hostWrite State.ctrlWrite State.busyWrite
  split_ifs
  · rfl
  · rfl
  · rfl
  · rfl
  · exact s.portWrite_turns d _

theorem takeTurn_next (u : Turn) (s : State) : ∃ t, takeTurn u s = .next t ∧ t.turns = s.turns := by
  cases u with
  | hostRead a => exact ⟨_, rfl, hostRead_turns a s⟩
  | hostWrite a d => exact ⟨_, rfl, hostWrite_turns a d s⟩
  | hardReset => exact ⟨_, rfl, rfl⟩
  | unitTurn =>
    obtain ⟨t, hstep, -, hturns⟩ := unitStep_next s
    exact ⟨t, hstep, hturns⟩

theorem run_succ {s t : State} (h : step s = .next t) (k : Nat) : core.run (k + 1) s = core.run k t := by
  have hcore : core.step s = .next t := h
  simp only [Host.Core.run, hcore]

/-- Each turn of the list is one step, and the unit moves once the list is empty. -/
theorem run_idle_within_turns (ts : List Turn) :
    ∀ s : State, s.turns = ts → ∃ k, k ≤ ts.length + 1 ∧ ∃ t, core.run k s = .next t ∧ State.busy t = false := by
  induction ts with
  | nil =>
    intro s hs
    obtain ⟨t, hstep, hidle, -⟩ := unitStep_next s
    exact ⟨1, le_rfl, t, run_succ ((step_of_no_turn hs).trans hstep) 0, hidle⟩
  | cons u ts ih =>
    intro s hs
    obtain ⟨s', hstep, hturns⟩ := takeTurn_next u (s.withTurns ts)
    obtain ⟨k, hk, t, hrun, hidle⟩ := ih s' hturns
    exact ⟨k + 1, Nat.succ_le_succ hk, t, (run_succ ((step_of_turn hs).trans hstep) k).trans hrun, hidle⟩

/-- Settles O10: by induction on the turns that the host has left. -/
theorem busyEndsWithinTheTurns : Obligations.BusyEndsWithinTheTurns := fun s _ => run_idle_within_turns s.turns s rfl

end Sys2Proof.Machine
end

section
/-! PROOFS. The wide-integer commands, and the compare and the load of exponents (O11 to O19): each completes with the value
of its rule, and the frames of its writes say what it leaves. -/

namespace Sys2Proof.Machine

/-! ### Sums, differences and products (R201 to R203) -/

theorem State.readX_writeX_self (s : State) (i : Idx) (v : Nat) : (s.writeX i v).readX i = v := by simp

/-- Settles O11: the commit is one X register and C. -/
theorem waddSumCarryFrame : Obligations.WaddSumCarryFrame := fun rd _ _ s =>
  ⟨rfl, _, rfl, s.readX_writeX_self rd _, decide_eq_true_iff, (frame_writeX s rd _).writeC _, rfl, rfl, rfl, rfl⟩

/-- Settles O12: the commit is one X register and C, and `subWrap_cast` says what the difference is. -/
theorem wsubDifferenceBorrowFrame : Obligations.WsubDifferenceBorrowFrame := fun rd _ _ s =>
  ⟨rfl, _, rfl, (congrArg Nat.cast (s.readX_writeX_self rd _)).trans (subWrap_cast _ _ _), decide_eq_true_iff,
    (frame_writeX s rd _).writeC _, rfl, rfl, rfl, rfl⟩

/-- A write of one more X register adds it to the frame. -/
theorem Frame.writeX {s t : State} {xs es ms : List Idx} (h : Frame s t.retire xs es ms) (i : Idx) (v : Nat) :
    Frame s (t.writeX i v).retire (xs ++ [i]) es ms where
  x j hj := by
    obtain ⟨hxs, hi⟩ : j ∉ xs ∧ j ≠ i := by simpa using hj
    obtain ⟨hval, hmarks⟩ := h.x j hxs
    exact ⟨by simpa [hi] using hval, (Bank.get_set_ne _ _ hi).trans hmarks⟩
  e := h.e
  metaReg := h.metaReg
  x_written j hj := by
    by_cases hi : j = i
    · subst hi
      exact Bank.get_set_self _ _ _
    · exact (Bank.get_set_ne _ _ hi).trans (h.x_written j (by simpa [hi] using hj))
  e_written := h.e_written
  metaReg_written := h.metaReg_written
  params := h.params
  cfg := h.cfg
  error := h.error
  rdata := h.rdata
  turns := h.turns
  draws := h.draws
  idle := rfl

theorem evenPair_iff (rd : Idx) : evenPair rd = true ↔ rd.val % 2 = 0 := beq_iff_eq

/-- Settles O13: for even rd the low half is written to X[rd] and the high half to the other register X[rd+1] of the pair. -/
theorem wmulProductPairFrame : Obligations.WmulProductPairFrame := by
  intro rd ra rb s
  refine ⟨rfl, fun heven => ?_, fun hodd => raisesError_of ?_⟩
  · have hpair : rd ≠ rd + 1 := by simp
    refine ⟨_, if_pos ((evenPair_iff rd).mpr heven), ?_, ?_, (frame_writeX s rd _).writeX (rd + 1) _, rfl, rfl⟩
    · simp [hpair, Nat.mod_lt]
    · simp [hpair, Nat.shiftRight_eq_div_pow, Nat.mod_add_div]
  · exact if_neg (by rw [evenPair_iff, hodd]; decide)

/-! ### Shifts (R204 to R207) -/

section Shifts

variable {s : State} {rb : Idx}

theorem shiftAmount_of_nonneg {n : Nat} (h : s.readE rb = (n : Int)) : s.shiftAmount rb = .ok n := by
  simp [State.shiftAmount, h]

theorem shiftAmount_of_neg (h : s.readE rb < 0) : s.shiftAmount rb = .error .shiftNeg := if_pos h

end Shifts

/-- What a left shift commits, with no cut of the amount (R204, R206). -/
theorem shiftLeftInto_spec (s : State) (rd ra : Idx) (n : Nat) :
    (s.shiftLeftInto rd ra n).retire.readX rd = s.readX ra <<< n % 2 ^ s.params.w ∧
    ((s.shiftLeftInto rd ra n).retire.flags.c = true ↔ (s.readX ra <<< n) >>> s.params.w ≠ 0) ∧
    Frame s (s.shiftLeftInto rd ra n).retire [rd] [] [] ∧ OnlyC s (s.shiftLeftInto rd ra n).retire :=
  ⟨by simp [State.shiftLeftInto, shlValue_eq], shlCarry_eq _ _ _, (frame_writeX s rd _).writeC _, rfl, rfl, rfl, rfl⟩

/-- What a right shift commits, with R251's own classifier (R205, R207). -/
theorem shiftRightInto_spec (s : State) (rd ra : Idx) (n : Nat) :
    (s.shiftRightInto rd ra n).retire.readX rd = s.readX ra >>> n ∧
    (s.shiftRightInto rd ra n).retire.loss = classifyExact (s.readX ra) n ∧
    Frame s (s.shiftRightInto rd ra n).retire [rd] [] [] ∧ (s.shiftRightInto rd ra n).retire.flags = s.flags :=
  ⟨by simp [State.shiftRightInto], classify_eq_exact _ _, (frame_writeX s rd _).writeLoss _, rfl⟩

/-- Settles O14: the amount is the register's, or the error SHIFT_NEG. -/
theorem wshlShiftCarryFrame : Obligations.WshlShiftCarryFrame := by
  refine fun rd ra rb s => ⟨rfl, fun n hn => ⟨_, ?_, shiftLeftInto_spec s rd ra n⟩, fun hneg => raisesError_of ?_⟩
  · simp only [exec, execWshl, shiftAmount_of_nonneg hn, Except.map, State.finish_ok]
  · simp only [exec, execWshl, shiftAmount_of_neg hneg, Except.map]

/-- Settles O15: the amount is the register's, or the error SHIFT_NEG. -/
theorem wshrShiftLossFrame : Obligations.WshrShiftLossFrame := by
  refine fun rd ra rb s => ⟨rfl, fun n hn => ⟨_, ?_, shiftRightInto_spec s rd ra n⟩, fun hneg => raisesError_of ?_⟩
  · simp only [exec, execWshr, shiftAmount_of_nonneg hn, Except.map, State.finish_ok]
  · simp only [exec, execWshr, shiftAmount_of_neg hneg, Except.map]

/-- Settles O16: the same commits as for a register amount, with no check of the amount. -/
theorem immediateShiftsFrame : Obligations.ImmediateShiftsFrame := fun rd ra imm s =>
  ⟨rfl, rfl, ⟨_, rfl, shiftLeftInto_spec s rd ra imm.toNat⟩, ⟨_, rfl, shiftRightInto_spec s rd ra imm.toNat⟩⟩

/-! ### Compares (R208, R274) -/

theorem compareInt_iff (a b : Int) :
    (compareInt a b = .equal ↔ a = b) ∧ (compareInt a b = .less ↔ a < b) ∧ (compareInt a b = .greater ↔ b < a) := by
  obtain h | rfl | h := lt_trichotomy a b
  · simp [compareInt, h, h.ne, h.not_gt]
  · simp [compareInt]
  · simp [compareInt, h, h.ne', h.not_gt]

/-- The unsigned compare is the signed one of the same values. -/
theorem compareNat_eq_compareInt (a b : Nat) : compareNat a b = compareInt a b := by
  simp only [compareNat, compareInt, Nat.cast_inj, Nat.cast_lt]

theorem compareNat_iff (a b : Nat) :
    (compareNat a b = .equal ↔ a = b) ∧ (compareNat a b = .less ↔ a < b) ∧ (compareNat a b = .greater ↔ b < a) := by
  simpa only [compareNat_eq_compareInt, Nat.cast_inj, Nat.cast_lt] using compareInt_iff a b

/-- Settles O17: the commit is CMP alone. -/
theorem comparesWriteOnlyCmp : Obligations.ComparesWriteOnlyCmp := by
  intro ra rb s
  obtain ⟨hxEq, hxLess, hxGreater⟩ := compareNat_iff (s.readX ra) (s.readX rb)
  obtain ⟨heEq, heLess, heGreater⟩ := compareInt_iff (s.readE ra) (s.readE rb)
  exact ⟨rfl, rfl, ⟨_, rfl, hxEq, hxLess, hxGreater, (frame_none s).writeCmp _, rfl, rfl, rfl, rfl⟩,
    ⟨_, rfl, heEq, heLess, heGreater, (frame_none s).writeCmp _, rfl, rfl, rfl, rfl⟩⟩

/-! ### Leading zeros (R209) -/

section LeadingZeros

variable {w v : Nat}

theorem clz_zero (w : Nat) : clz w 0 = w := if_pos rfl

/-- The leading zeros, the leading bit and the bits below it are the W bits of the value. -/
theorem clz_add_msb (hv : v ≠ 0) (hw : v < 2 ^ w) : clz w v + 1 + msb v = w := by
  have hmsb : msb v < w := (Nat.log2_lt hv).mpr hw
  simp only [clz, if_neg hv]
  omega

theorem clz_le (hw : v < 2 ^ w) : clz w v ≤ w := by
  by_cases hv : v = 0
  · rw [hv, clz_zero]
  · have := clz_add_msb hv hw
    omega

theorem lt_two_pow_sub_clz (hw : v < 2 ^ w) : v < 2 ^ (w - clz w v) := by
  by_cases hv : v = 0
  · rw [hv]
    exact Nat.two_pow_pos _
  · have hsum := clz_add_msb hv hw
    rw [show w - clz w v = msb v + 1 by omega]
    exact lt_two_pow_msb_succ v

theorem two_pow_sub_clz_le (hv : v ≠ 0) (hw : v < 2 ^ w) : 2 ^ (w - 1 - clz w v) ≤ v := by
  have hsum := clz_add_msb hv hw
  rw [show w - 1 - clz w v = msb v by omega]
  exact two_pow_msb_le hv

end LeadingZeros

/-- Settles O18: the count is at most W, so it fits the exponent register (R7). -/
theorem wclzCountsLeadingZeros : Obligations.WclzCountsLeadingZeros := by
  intro rd ra s hinv
  have hx := hinv.x_bound ra
  have hle := clz_le hx
  have hfits : ExpFits (clz s.params.w (s.readX ra)) := by
    obtain ⟨-, -, -, hw⟩ := hinv.params_legal
    simp only [ExpFits]
    omega
  refine ⟨rfl, _, _, rfl, s.readE_writeE_self rd hfits, hle, lt_two_pow_sub_clz hx,
    fun hne => ⟨?_, two_pow_sub_clz_le hne hx⟩, fun hzero => ?_, frame_writeE s rd _, rfl, rfl⟩
  · have := clz_add_msb hne hx
    omega
  · rw [hzero, clz_zero]

/-! ### Loads and the copy (R210, R211, R275) -/

/-- A sign-extended immediate fits an exponent register (R154, R275). -/
theorem sextImm_fits (imm : BitVec 16) : ExpFits (sextImm imm) := by
  have hlo : -2 ^ 15 ≤ imm.toInt := imm.le_toInt
  have hhi : imm.toInt < 2 ^ 15 := imm.toInt_lt
  simp only [ExpFits, sextImm]
  omega

/-- Settles O19: each command commits one register. -/
theorem loadsAndMoveFrame : Obligations.LoadsAndMoveFrame := fun rd _ imm s =>
  ⟨rfl, rfl, rfl, ⟨_, rfl, s.readX_writeX_self rd _, frame_writeX s rd _, rfl, rfl⟩,
    ⟨_, rfl, s.readX_writeX_self rd _, frame_writeX s rd _, rfl, rfl⟩,
    ⟨_, rfl, s.readE_writeE_self rd (sextImm_fits imm), frame_writeE s rd _, rfl, rfl⟩⟩

end Sys2Proof.Machine
end

section
/-! PROOFS. The loss fractions and the rounding decision (O20 to O23): a loss fraction is the class of the discarded fraction of a
unit, and that class is unique, so the law of successive shifts (R254) follows from the soundness of combine (R253). -/

namespace Sys2Proof.Machine

/-! ### The classifier (R251, R252) -/

/-- Settles O20: at W + 1 and above, every discarded bit lies below half a unit. -/
theorem classifierIsR251 : Obligations.ClassifierIsR251 := by
  refine ⟨classify_eq_exact, fun w v n hv hn => ?_⟩
  have hwide : v < 2 ^ (n - 1) := hv.trans_le (Nat.pow_le_pow_right (by decide) (by omega))
  rw [classify_eq_exact, classifyExact_of_wide hwide (by omega), classifyExact_of_wide (n := w + 1) hv (by omega)]
  exact ⟨rfl, rfl⟩

/-! ### Fractions in half units (R250)

A shift by j + 1 bits has the half unit h = 2^j, and its discarded bits are the fraction x / (2 h). -/

section HalfUnits

variable {h x : ℚ}

theorem exactlyZero_classifies_div (hh : 0 < h) : LossFraction.exactlyZero.Classifies (x / (2 * h)) ↔ x = 0 := by
  have hne : 2 * h ≠ 0 := by positivity
  simp only [LossFraction.Classifies, div_eq_zero_iff, hne, or_false]

theorem lessThanHalf_classifies_div (hh : 0 < h) :
    LossFraction.lessThanHalf.Classifies (x / (2 * h)) ↔ 0 < x ∧ x < h := by
  have hpos : 0 < 2 * h := by positivity
  simp only [LossFraction.Classifies, lt_div_iff₀ hpos, div_lt_iff₀ hpos]
  ring_nf

theorem exactlyHalf_classifies_div (hh : 0 < h) : LossFraction.exactlyHalf.Classifies (x / (2 * h)) ↔ x = h := by
  have hne : 2 * h ≠ 0 := by positivity
  simp only [LossFraction.Classifies, div_eq_iff hne]
  ring_nf

theorem moreThanHalf_classifies_div (hh : 0 < h) :
    LossFraction.moreThanHalf.Classifies (x / (2 * h)) ↔ h < x ∧ x < 2 * h := by
  have hpos : 0 < 2 * h := by positivity
  simp only [LossFraction.Classifies, lt_div_iff₀ hpos, div_lt_iff₀ hpos]
  ring_nf

end HalfUnits

/-- A loss fraction other than ExactlyZero classifies a proper fraction of one unit (R250). -/
theorem LossFraction.Classifies.pos_lt_one {lf : LossFraction} {φ : ℚ} (hc : lf.Classifies φ) (hne : lf ≠ .exactlyZero) :
    0 < φ ∧ φ < 1 := by
  cases lf with
  | exactlyZero => exact absurd rfl hne
  | lessThanHalf => exact ⟨hc.1, hc.2.trans (by norm_num)⟩
  | exactlyHalf => rw [show φ = 1 / 2 from hc]; norm_num
  | moreThanHalf => exact ⟨lt_trans (by norm_num) hc.1, hc.2⟩

/-- The loss fraction that classifies φ, for 0 <= φ < 1 (R250). -/
def lossOfFraction (φ : ℚ) : LossFraction :=
  if φ = 0 then .exactlyZero
  else if φ < 1 / 2 then .lessThanHalf
  else if φ = 1 / 2 then .exactlyHalf
  else .moreThanHalf

/-- At most one loss fraction classifies a given fraction (R250). -/
theorem LossFraction.Classifies.eq_lossOfFraction {lf : LossFraction} {φ : ℚ} (hc : lf.Classifies φ) :
    lf = lossOfFraction φ := by
  cases lf with
  | exactlyZero => rw [show φ = 0 from hc]; rfl
  | lessThanHalf =>
    obtain ⟨hpos, hlt⟩ := hc
    rw [lossOfFraction, if_neg hpos.ne', if_pos hlt]
  | exactlyHalf => rw [show φ = 1 / 2 from hc]; norm_num [lossOfFraction]
  | moreThanHalf =>
    obtain ⟨hgt, -⟩ := hc
    have hpos : (0 : ℚ) < φ := lt_trans (by norm_num) hgt
    rw [lossOfFraction, if_neg hpos.ne', if_neg hgt.not_gt, if_neg hgt.ne']

/-! ### The discarded bits and their combination (R251, R253) -/

/-- The classifier classifies the discarded bits as a fraction of the unit that stays (R250, R251). -/
theorem classify_classifies (v k : Nat) : (classify v k).Classifies (((v % 2 ^ k : Nat) : ℚ) / 2 ^ k) := by
  rw [classify_eq_exact]
  cases k with
  | zero => simp [classifyExact, LossFraction.Classifies, Nat.mod_one]
  | succ j =>
    have hh : (0 : ℚ) < 2 ^ j := by positivity
    have hr : v % 2 ^ (j + 1) < 2 * 2 ^ j := (Nat.mod_lt v (Nat.two_pow_pos _)).trans_eq (pow_succ' 2 j)
    rw [pow_succ' (2 : ℚ) j]
    simp only [classifyExact, Nat.succ_ne_zero, if_false, Nat.add_sub_cancel]
    generalize v % 2 ^ (j + 1) = r at hr ⊢
    split_ifs with hzero hlt heq
    · exact (exactlyZero_classifies_div hh).mpr (by exact_mod_cast hzero)
    · exact (lessThanHalf_classifies_div hh).mpr ⟨by exact_mod_cast Nat.pos_of_ne_zero hzero, by exact_mod_cast hlt⟩
    · exact (exactlyHalf_classifies_div hh).mpr (by exact_mod_cast heq)
    · have hgt : 2 ^ j < r := by omega
      exact (moreThanHalf_classifies_div hh).mpr ⟨by exact_mod_cast hgt, by exact_mod_cast hr⟩

/-- The soundness of combine (R253): the discarded bits r and the half unit h are whole numbers, so a fraction φ below 1 moves
r + φ neither up to h nor up to 2 h. -/
theorem combine_classifies {more less : LossFraction} {r h : Nat} {φ : ℚ} (hh : 0 < h)
    (hmore : more.Classifies ((r : ℚ) / (2 * h))) (hless : less.Classifies φ) :
    (combine more less).Classifies (((r : ℚ) + φ) / (2 * h)) := by
  by_cases hz : less = .exactlyZero
  · subst hz
    rw [show φ = 0 from hless, add_zero]
    simpa only [combine, if_true] using hmore
  obtain ⟨hpos, hlt⟩ := hless.pos_lt_one hz
  have hq : (0 : ℚ) < h := by exact_mod_cast hh
  have hone : (1 : ℚ) ≤ h := by exact_mod_cast hh
  simp only [combine, if_neg hz]
  cases more with
  | exactlyZero =>
    rw [exactlyZero_classifies_div hq] at hmore
    exact (lessThanHalf_classifies_div hq).mpr ⟨by linarith, by linarith⟩
  | lessThanHalf =>
    obtain ⟨hr, hrh⟩ := (lessThanHalf_classifies_div hq).mp hmore
    have hroom : (r : ℚ) + 1 ≤ h := by exact_mod_cast (Nat.cast_lt.mp hrh : r < h)
    exact (lessThanHalf_classifies_div hq).mpr ⟨by linarith, by linarith⟩
  | exactlyHalf =>
    rw [exactlyHalf_classifies_div hq] at hmore
    exact (moreThanHalf_classifies_div hq).mpr ⟨by linarith, by linarith⟩
  | moreThanHalf =>
    obtain ⟨hr, hrh⟩ := (moreThanHalf_classifies_div hq).mp hmore
    have hroom : (r : ℚ) + 1 ≤ 2 * h := by
      have hlt' : r < 2 * h := by exact_mod_cast hrh
      exact_mod_cast hlt'
    exact (moreThanHalf_classifies_div hq).mpr ⟨by linarith, by linarith⟩

/-- The soundness of combine for a second shift of k >= 1 bits (R253). -/
theorem combine_classify_classifies (v : Nat) {k : Nat} {less : LossFraction} {φ : ℚ} (hk : 1 ≤ k)
    (hless : less.Classifies φ) :
    (combine (classify v k) less).Classifies ((((v % 2 ^ k : Nat) : ℚ) + φ) / 2 ^ k) := by
  obtain ⟨j, rfl⟩ := Nat.exists_eq_add_of_le' hk
  have hunit : (2 : ℚ) ^ (j + 1) = 2 * (2 ^ j : Nat) := by rw [pow_succ']; norm_cast
  have hmore := classify_classifies v (j + 1)
  rw [hunit] at hmore ⊢
  exact combine_classifies (Nat.two_pow_pos j) hmore hless

/-- Settles O22. -/
theorem combineClassifiesTheTotal : Obligations.CombineClassifiesTheTotal := fun v k _ _ hk hless =>
  ⟨classify_classifies v k, combine_classify_classifies v hk hless⟩

/-! ### Successive shifts (R254) -/

/-- The fraction that two successive shifts discard is the one that the shift by the total amount discards (R254). -/
theorem discarded_add (v a b : Nat) :
    ((((v >>> a) % 2 ^ b : Nat) : ℚ) + ((v % 2 ^ a : Nat) : ℚ) / 2 ^ a) / 2 ^ b =
      ((v % 2 ^ (a + b) : Nat) : ℚ) / 2 ^ (a + b) := by
  have hsplit : v % 2 ^ (a + b) = v % 2 ^ a + 2 ^ a * ((v >>> a) % 2 ^ b) := by
    rw [Nat.shiftRight_eq_div_pow, pow_add, Nat.mod_mul]
  rw [hsplit, pow_add]
  push_cast
  field_simp
  ring

/-- Settles O21: both sides classify the fraction that the two shifts discard together. -/
theorem successiveShiftsCompose : Obligations.SuccessiveShiftsCompose := by
  intro v a b hb
  have htotal := combine_classify_classifies (v >>> a) hb (classify_classifies v a)
  rw [discarded_add] at htotal
  exact (classify_classifies v (a + b)).eq_lossOfFraction.trans htotal.eq_lossOfFraction.symm

/-! ### The rounding decision (R255) -/

/-- Settles O23: an exact result is never rounded up, and of an inexact one each mode decides by its own clause. -/
theorem roundUpDecision : Obligations.RoundUpDecision := by
  intro mode sign lf lsb
  by_cases hz : lf = .exactlyZero
  · simp [roundUp, hz]
  · cases mode <;> simp [roundUp, hz]

end Sys2Proof.Machine
end

section
/-! PROOFS. The exact exponent commands (O24): all three end in the one checked write of their exact result. -/

namespace Sys2Proof.Machine

/-! ### The checked write (R270) -/

section CheckedWrite

variable {s : State} {rd : Idx} {v : Int}

theorem writeExact_of_fits (h : ExpFits v) : s.writeExact rd v = .ok (s.writeE rd v) := by
  simp only [State.writeExact, checkExp, if_pos h, Except.map]

theorem writeExact_of_not_fits (h : ¬ ExpFits v) : s.writeExact rd v = .error .expOvf := by
  simp only [State.writeExact, checkExp, if_neg h, Except.map]

theorem not_expFits_iff : ¬ ExpFits v ↔ v < -2 ^ 31 ∨ 2 ^ 31 - 1 < v := by
  simp only [ExpFits, not_and_or, not_le]

/-- A command that ends in the checked write of `v` writes E[rd] alone when `v` fits. -/
theorem exec_writeExact_of_fits {i : Instr} (hexec : exec i s = s.finish (s.writeExact rd v)) (h : ExpFits v) :
    ∃ t, exec i s = .next t ∧ t.readE rd = v ∧ Frame s t [] [rd] [] ∧ NoFlag s t :=
  ⟨(s.writeE rd v).retire, by rw [hexec, writeExact_of_fits h, State.finish_ok], s.readE_writeE_self rd h,
    frame_writeE s rd v, rfl, rfl⟩

/-- A command that ends in the checked write of `v` raises EXP_OVF when `v` does not fit. -/
theorem raisesError_expOvf_of_not_fits {i : Instr} (hexec : exec i s = s.finish (s.writeExact rd v))
    (h : ¬ ExpFits v) : RaisesError i s .expOvf :=
  raisesError_of (by rw [hexec, writeExact_of_not_fits h])

end CheckedWrite

/-! ### EADD, ESUB and EADDI (R271 to R273) -/

/-- Settles O24: each command ends in the checked write of its exact result. -/
theorem exponentArithmeticIsExact : Obligations.ExponentArithmeticIsExact := by
  intro rd ra rb imm s i v hi
  have hexec : exec i s = s.finish (s.writeExact rd v) := by
    obtain ⟨rfl, rfl⟩ | ⟨rfl, rfl⟩ | ⟨rfl, rfl⟩ := hi
    · rfl -- EADD
    · rfl -- ESUB
    · rfl -- EADDI
  exact ⟨rfl, rfl, rfl, exec_writeExact_of_fits hexec,
    fun h => raisesError_expOvf_of_not_fits hexec (not_expFits_iff.mpr h)⟩

end Sys2Proof.Machine
end

section
/-! PROOFS. NORM and FMOV (O26 to O30, O34): the normalizer has one equation a path, and its rounding step one a case of the
rounded mantissa; NORM commits what they say, and nothing else. -/

namespace Sys2Proof.Machine

/-! ### What NORM commits -/

section Commit

variable {s : State} {rd ra : Idx} {rm : RmSel} {l : Bool} {mode : RoundingMode}

/-- NORM writes the normalizer's three outputs, and nothing else (R305, R312). -/
theorem exec_norm_commits {r : NormResult} (hl : s.cfg.Legal s.params.w) (hm : s.cfg.mode rm = some mode)
    (hr : normalizeFloat s.cfg mode (s.incomingLoss l) (s.readF ra) = .ok r) (hfits : ExpFits r.val.exp) :
    ∃ t, exec (.norm rd ra rm l) s = .next t ∧ t.readF rd = r.val ∧ NormFlags s t r.loss r.ovf ∧ FloatFrame s t rd :=
  ⟨_, exec_norm_of_ok hl hm hr, s.readF_writeNorm_self rd hfits, ⟨rfl, rfl, rfl, rfl, rfl⟩,
    ((frame_writeF s rd r.val).writeLoss _).writeOvf _⟩

theorem raisesError_of_normalizeFloat_error {k : ErrCode} (hl : s.cfg.Legal s.params.w) (hm : s.cfg.mode rm = some mode)
    (hr : normalizeFloat s.cfg mode (s.incomingLoss l) (s.readF ra) = .error k) :
    RaisesError (.norm rd ra rm l) s k :=
  raisesError_of (by simp only [exec, execNorm, normMode_eq_ok_iff.mpr ⟨hl, hm⟩, Except.bind, hr, Except.map])

theorem incomingLoss_eq_exactlyZero_iff : s.incomingLoss l = .exactlyZero ↔ l = false ∨ s.loss = .exactlyZero := by
  cases l <;> simp [State.incomingLoss]

theorem incomingLoss_ne_exactlyZero_iff : s.incomingLoss l ≠ .exactlyZero ↔ l = true ∧ s.loss ≠ .exactlyZero := by
  rw [ne_eq, incomingLoss_eq_exactlyZero_iff, not_or, Bool.not_eq_false]

end Commit

/-! ### The paths of the normalizer (R306 to R313, R318) -/

section Paths

variable {c : Cfg} {mode : RoundingMode} {lin : LossFraction} {f : FloatReg}

theorem normalizeFloat_of_special (h : f.cat.special = true) :
    normalizeFloat c mode lin f = .ok { val := f, loss := .exactlyZero, ovf := false } := if_pos h

theorem normalizeFloat_of_finite (h : f.cat = .zero ∨ f.cat = .normal) :
    normalizeFloat c mode lin f = normalizeFinite c mode lin f :=
  if_neg (ne_true_of_eq_false (Category.special_of_finite h))

theorem normalizeFinite_zero (hm : f.man = 0) (hlin : lin = .exactlyZero) :
    normalizeFinite c mode lin f = .ok { val := c.zeroFloat f.sign, loss := .exactlyZero, ovf := false } := by
  rw [normalizeFinite, if_pos hm, if_pos hlin]

theorem normalizeFinite_zero_of_loss (hm : f.man = 0) (hlin : lin ≠ .exactlyZero) :
    normalizeFinite c mode lin f = .error .lossLeft := by
  rw [normalizeFinite, if_pos hm, if_neg hlin]

theorem normalizeFinite_overflow (hm : f.man ≠ 0) (hover : c.eMax < c.alignedExp f) :
    normalizeFinite c mode lin f = .ok { val := c.infinityFloat f.sign, loss := .exactlyZero, ovf := true } := by
  rw [Cfg.alignedExp_eq] at hover
  rw [normalizeFinite, if_neg hm, normalizeNonzero, if_pos hover]

theorem normalizeFinite_left (hm : f.man ≠ 0) (hmax : c.alignedExp f ≤ c.eMax) (hneg : finalShift c f.exp f.man < 0)
    (hlin : lin = .exactlyZero) :
    normalizeFinite c mode lin f =
      .ok { val := { sign := f.sign, cat := .normal, exp := f.exp + finalShift c f.exp f.man,
                     man := f.man <<< (-finalShift c f.exp f.man).toNat },
            loss := .exactlyZero, ovf := false } := by
  rw [Cfg.alignedExp_eq] at hmax
  simp only [normalizeFinite, normalizeNonzero, if_neg hm, if_neg hmax.not_gt, if_pos hneg, if_pos hlin]

theorem normalizeFinite_left_of_loss (hm : f.man ≠ 0) (hmax : c.alignedExp f ≤ c.eMax)
    (hneg : finalShift c f.exp f.man < 0) (hlin : lin ≠ .exactlyZero) :
    normalizeFinite c mode lin f = .error .lossLeft := by
  rw [Cfg.alignedExp_eq] at hmax
  simp only [normalizeFinite, normalizeNonzero, if_neg hm, if_neg hmax.not_gt, if_pos hneg, if_neg hlin]

/-- A shift to the right by n bits, which may be 0. -/
theorem normalizeFinite_right {n : Nat} (hm : f.man ≠ 0) (hmax : c.alignedExp f ≤ c.eMax)
    (hn : finalShift c f.exp f.man = n) :
    normalizeFinite c mode lin f = .ok (roundKept c mode f.sign (f.exp + n) (f.man >>> n) (keptLoss f.man n lin)) := by
  rw [Cfg.alignedExp_eq] at hmax
  simp only [normalizeFinite, normalizeNonzero, if_neg hm, if_neg hmax.not_gt, hn, if_neg (Int.natCast_nonneg n).not_gt,
    Int.toNat_natCast]

/-- The shift goes to the left exactly when the leading bit is below bit MB and the exponent above e_min (R307, R309). -/
theorem finalShift_neg_iff {e : Int} {m : Nat} (hm : m ≠ 0) : finalShift c e m < 0 ↔ m < 2 ^ c.mbN ∧ c.eMin < e := by
  have hmsb : msb m < c.mbN ↔ m < 2 ^ c.mbN := Nat.log2_lt hm
  rw [finalShift_eq_max, ← hmsb]
  simp only [alignShift, Cfg.prec]
  omega

/-- The exponent of the result is the aligned one, or e_min where that is larger (R309). -/
theorem exp_add_finalShift (c : Cfg) (f : FloatReg) : f.exp + finalShift c f.exp f.man = max (c.alignedExp f) c.eMin := by
  rw [finalShift_eq_max, Cfg.alignedExp_eq]
  omega

end Paths

/-! ### The exponents NORM writes fit their register (R303) -/

section Fits

variable {c : Cfg} {w : Nat}

theorem Cfg.Legal.eMin_le_eMax (hl : c.Legal w) : c.eMin ≤ c.eMax := by
  have hb := Cfg.Legal.bias_bounds hl
  simp only [Cfg.eMin, Cfg.eMax]
  omega

theorem Cfg.Legal.expFits_zeroFloat (hl : c.Legal w) (sign : Bool) : ExpFits (c.zeroFloat sign).exp :=
  Cfg.Canonical.expFits hl (isCanonical_zero c sign .exactlyZero).canonical

theorem Cfg.Legal.expFits_infinityFloat (hl : c.Legal w) (sign : Bool) : ExpFits (c.infinityFloat sign).exp :=
  Cfg.Canonical.expFits hl (isCanonical_infinity c sign .exactlyZero).canonical

end Fits

/-! ### Copies, zeros and overflows (R306, R308, R313, R320) -/

/-- Settles O34: the commit is one float register. -/
theorem fmovCopiesTheTuple : Obligations.FmovCopiesTheTuple := fun rd ra s =>
  ⟨rfl, _, rfl, s.readF_writeF_self rd (readE_fits s ra), frame_writeF s rd _, rfl, rfl⟩

/-- Settles O26: the normalizer returns a special operand itself. -/
theorem normPassesSpecialsThrough : Obligations.NormPassesSpecialsThrough := by
  intro rd ra rm l s mode hl hm hcat
  have hspecial : (s.readF ra).cat.special = true := by
    obtain h | h := hcat <;> exact congrArg Category.special h
  exact exec_norm_commits hl hm (normalizeFloat_of_special hspecial) (readE_fits s ra)

/-- Settles O27: the incoming loss decides between the two paths of a zero mantissa. -/
theorem normOfZeroMantissa : Obligations.NormOfZeroMantissa := by
  intro rd ra rm l s mode hl hm hcat hzero
  refine ⟨fun hloss => ?_, fun hloss => ?_⟩
  · have hlin := incomingLoss_eq_exactlyZero_iff.mpr hloss
    exact exec_norm_commits hl hm ((normalizeFloat_of_finite hcat).trans (normalizeFinite_zero hzero hlin))
      (Cfg.Legal.expFits_zeroFloat hl _)
  · have hlin := incomingLoss_ne_exactlyZero_iff.mpr hloss
    exact raisesError_of_normalizeFloat_error hl hm
      ((normalizeFloat_of_finite hcat).trans (normalizeFinite_zero_of_loss hzero hlin))

/-- Settles O28: the overflow path is taken before the mode or the incoming loss is looked at. -/
theorem normOverflowsInEveryMode : Obligations.NormOverflowsInEveryMode := fun _ _ _ _ _ _ hl hm hcat hne hover =>
  exec_norm_commits hl hm ((normalizeFloat_of_finite hcat).trans (normalizeFinite_overflow hne hover))
    (Cfg.Legal.expFits_infinityFloat hl _)

/-! ### The left shift (R307, R309, R318) -/

/-- Settles O29: the shift is negative, and stops at the larger of the aligned exponent and e_min. -/
theorem normShiftsLeftExactly : Obligations.NormShiftsLeftExactly := by
  intro rd ra rm l s mode hl hm hcat hne hmax hlow hexp
  have hneg : finalShift s.cfg (s.readF ra).exp (s.readF ra).man < 0 := (finalShift_neg_iff hne).mpr ⟨hlow, hexp⟩
  refine ⟨fun hloss => ?_, fun hloss => ?_⟩
  · have hlin := incomingLoss_eq_exactlyZero_iff.mpr hloss
    have hcanonical := canonicalNormal_of_left_shift hne ((Cfg.alignedExp_eq _ _).symm.trans_le hmax)
      (Cfg.Legal.eMin_le_eMax hl) hneg
    obtain ⟨t, hexec, hval, hflags, hframe⟩ := exec_norm_commits (rd := rd) hl hm
      ((normalizeFloat_of_finite hcat).trans (normalizeFinite_left hne hmax hneg hlin))
      (Cfg.Canonical.expFits hl (isCanonical_normal hcanonical).canonical)
    obtain ⟨hsign, hnormal, hE, hX⟩ := FloatReg.mk.inj hval
    refine ⟨t, hexec, hsign, hnormal, hE.trans (exp_add_finalShift _ _), ?_, hflags, hframe⟩
    rw [hX, hE, Nat.shiftLeft_eq]
    congr 3
    exact (sub_add_cancel_left _ _).symm
  · have hlin := incomingLoss_ne_exactlyZero_iff.mpr hloss
    exact raisesError_of_normalizeFloat_error hl hm
      ((normalizeFloat_of_finite hcat).trans (normalizeFinite_left_of_loss hne hmax hneg hlin))

/-! ### The right shift and the rounding (R309 to R311) -/

/-- A mantissa that stands at the exponent of its result (R309): at most P bits, and its leading bit at bit MB above e_min. -/
structure Cfg.Kept (c : Cfg) (e : Int) (m : Nat) : Prop where
  min_le : c.eMin ≤ e
  le_max : e ≤ c.eMax
  lt_prec : m < 2 ^ c.prec
  lead : c.eMin < e → 2 ^ c.mbN ≤ m

theorem Cfg.CanonicalNormal.kept {c : Cfg} {e : Int} {m : Nat} (h : c.CanonicalNormal e m) : c.Kept e m := by
  obtain ⟨hmin, hmax, -, hlt, hlead⟩ := h
  exact ⟨hmin, hmax, hlt, hlead⟩

theorem kept_of_right_shift {c : Cfg} {f : FloatReg} {n : Nat} (hm : f.man ≠ 0) (hrange : c.eMin ≤ c.eMax)
    (hmax : c.alignedExp f ≤ c.eMax) (hn : finalShift c f.exp f.man = n) : c.Kept (f.exp + n) (f.man >>> n) := by
  have hexp : f.exp + n = max (c.alignedExp f) c.eMin := by rw [← hn, exp_add_finalShift]
  have haligned : c.alignedExp f = f.exp + msb f.man - c.mbN := rfl
  refine ⟨by omega, by omega, shiftRight_lt_two_pow ?_, fun h => two_pow_le_shiftRight hm (by omega)⟩
  simp only [Cfg.prec]
  omega

section Rounded

variable {c : Cfg} {mode : RoundingMode} {sign : Bool} {ef : Int} {mk : Nat} {lf : LossFraction}

/-- The kept mantissa after the round-up decision, before a carry is folded (R310). -/
def roundedMan (mode : RoundingMode) (sign : Bool) (mk : Nat) (lf : LossFraction) : Nat :=
  mk + (roundUp mode sign lf (mk % 2 == 1)).toNat

theorem roundedMan_of_up (h : roundUp mode sign lf (mk % 2 == 1) = true) : roundedMan mode sign mk lf = mk + 1 := by
  simp [roundedMan, h]

theorem roundedMan_of_not_up (h : roundUp mode sign lf (mk % 2 == 1) = false) : roundedMan mode sign mk lf = mk := by
  simp [roundedMan, h]

theorem roundedMan_le (hk : c.Kept ef mk) : roundedMan mode sign mk lf ≤ 2 ^ c.prec :=
  (Nat.add_le_add_left (Bool.toNat_le _) mk).trans hk.lt_prec

/-- The rounding step by its rounded mantissa: 2^P folds or overflows, 0 is Zero, any other stands (R310, R311). -/
theorem roundKept_eq (hk : c.Kept ef mk) :
    roundKept c mode sign ef mk lf =
      if roundedMan mode sign mk lf = 2 ^ c.prec then
        if ef = c.eMax then { val := c.infinityFloat sign, loss := lf, ovf := true }
        else { val := { sign := sign, cat := .normal, exp := ef + 1, man := 2 ^ c.mbN }, loss := lf, ovf := false }
      else if roundedMan mode sign mk lf = 0 then { val := c.zeroFloat sign, loss := lf, ovf := false }
      else
        { val := { sign := sign, cat := .normal, exp := ef, man := roundedMan mode sign mk lf }, loss := lf, ovf := false } := by
  have hover : c.eMax < ef + 1 ↔ ef = c.eMax := by have := hk.le_max; omega
  cases hup : roundUp mode sign lf (mk % 2 == 1) with
  | false => rw [roundKept_of_not_up hup, roundedMan_of_not_up hup, if_neg hk.lt_prec.ne]
  | true =>
    rw [roundedMan_of_up hup]
    by_cases hcarry : mk + 1 = 2 ^ c.prec
    · simp only [roundKept_of_carry hup hcarry, if_pos hcarry, hover]
    · rw [roundKept_of_no_carry hup hcarry hk.le_max, if_neg hcarry, if_neg (Nat.succ_ne_zero mk)]

/-! The four cases of the rounded mantissa. -/

theorem roundKept_of_fold (hk : c.Kept ef mk) (hfold : roundedMan mode sign mk lf = 2 ^ c.prec) (hlt : ef < c.eMax) :
    roundKept c mode sign ef mk lf =
      { val := { sign := sign, cat := .normal, exp := ef + 1, man := 2 ^ c.mbN }, loss := lf, ovf := false } := by
  rw [roundKept_eq hk, if_pos hfold, if_neg hlt.ne]

theorem roundKept_of_overflow (hk : c.Kept ef mk) (hfold : roundedMan mode sign mk lf = 2 ^ c.prec) (heq : ef = c.eMax) :
    roundKept c mode sign ef mk lf = { val := c.infinityFloat sign, loss := lf, ovf := true } := by
  rw [roundKept_eq hk, if_pos hfold, if_pos heq]

theorem roundKept_of_zero (hk : c.Kept ef mk) (hzero : roundedMan mode sign mk lf = 0) :
    roundKept c mode sign ef mk lf = { val := c.zeroFloat sign, loss := lf, ovf := false } := by
  rw [roundKept_eq hk, if_neg (hzero.trans_ne (Nat.two_pow_pos _).ne), if_pos hzero]

theorem roundKept_of_normal (hk : c.Kept ef mk) (hne : roundedMan mode sign mk lf ≠ 0)
    (hfold : roundedMan mode sign mk lf ≠ 2 ^ c.prec) :
    roundKept c mode sign ef mk lf =
      { val := { sign := sign, cat := .normal, exp := ef, man := roundedMan mode sign mk lf }, loss := lf, ovf := false } := by
  rw [roundKept_eq hk, if_neg hfold, if_neg hne]

theorem roundKept_loss (hk : c.Kept ef mk) : (roundKept c mode sign ef mk lf).loss = lf := by
  rw [roundKept_eq hk]
  split_ifs <;> rfl

theorem roundKept_expFits {w : Nat} (hl : c.Legal w) (hk : c.Kept ef mk) :
    ExpFits (roundKept c mode sign ef mk lf).val.exp :=
  Cfg.Canonical.expFits hl (roundKept_isCanonical hk.min_le hk.le_max hk.lt_prec hk.lead).canonical

end Rounded

/-- The loss the rounding step sees, by R251's own classifier (R305). -/
theorem keptLoss_eq_exact (m n : Nat) (lin : LossFraction) :
    keptLoss m n lin = if n = 0 then lin else combine (classifyExact m n) lin := by
  rw [keptLoss, classify_eq_exact]

/-- Settles O30: the shift is to the right, and the four clauses are the four cases of the rounded mantissa. -/
theorem normShiftsRightAndRounds : Obligations.NormShiftsRightAndRounds := by
  intro rd ra rm l s mode hl hm hcat hne hmax hright
  have hnn : ¬ finalShift s.cfg (s.readF ra).exp (s.readF ra).man < 0 := by
    rintro hneg
    obtain ⟨hlow, hexp⟩ := (finalShift_neg_iff hne).mp hneg
    exact hright.elim hlow.not_ge hexp.not_ge
  obtain ⟨n, hn⟩ := Int.eq_ofNat_of_zero_le (not_lt.mp hnn)
  have hk := kept_of_right_shift hne (Cfg.Legal.eMin_le_eMax hl) hmax hn
  obtain ⟨t, hexec, hval, hflags, hframe⟩ := exec_norm_commits (rd := rd) hl hm
    ((normalizeFloat_of_finite hcat).trans (normalizeFinite_right hne hmax hn)) (roundKept_expFits hl hk)
  have hout : ∀ {r}, roundKept s.cfg mode (s.readF ra).sign ((s.readF ra).exp + n) ((s.readF ra).man >>> n)
      (keptLoss (s.readF ra).man n (s.incomingLoss l)) = r → t.readF rd = r.val ∧ t.flags.ovf = r.ovf := by
    rintro _ rfl
    exact ⟨hval, hflags.ovf⟩
  refine ⟨t, n, _, _, hexec, ?_, keptLoss_eq_exact _ n _, ?_, fun hfold hlt => hout (roundKept_of_fold hk hfold hlt),
    fun hfold heq => hout (roundKept_of_overflow hk hfold heq), fun hzero => hout (roundKept_of_zero hk hzero),
    fun hzero hfold => hout (roundKept_of_normal hk hzero hfold), roundedMan_le hk, ?_, hframe⟩
  · exact (congrArg _ hn).symm.trans (exp_add_finalShift s.cfg (s.readF ra))
  · rw [roundedMan, Nat.shiftRight_eq_div_pow]; rfl
  · rwa [roundKept_loss hk, ← hflags.ovf] at hflags

end Sys2Proof.Machine
end

section
/-! PROOFS. NORM over the rationals (O32, O33): off the overflow path the result is the rounding step on a mantissa that stands at
the exponent of the result. No canonical magnitude lies strictly between that mantissa's and the next one's, so the round-up
decision alone fixes which of the two is the result. -/

namespace Sys2Proof.Machine

/-! ### The grid of magnitudes (R12, R60, R315) -/

/-- The magnitude of one unit in the last place at exponent e (R12). -/
def Cfg.ulp (c : Cfg) (e : Int) : ℚ := (2 : ℚ) ^ (e - (c.mbN : Int))

theorem Cfg.ulp_pos (c : Cfg) (e : Int) : 0 < c.ulp e := zpow_pos (by norm_num) _

theorem Cfg.ulp_add (c : Cfg) (e : Int) (n : Nat) : c.ulp (e + n) = 2 ^ n * c.ulp e := by
  rw [Cfg.ulp, Cfg.ulp, add_sub_right_comm, zpow_add₀ two_ne_zero, zpow_natCast, mul_comm]

theorem Cfg.magnitude_eq (c : Cfg) (e : Int) (m : Nat) : c.magnitude e m = m * c.ulp e := rfl

theorem Cfg.rawMagnitude_eq (c : Cfg) (f : FloatReg) (φ : ℚ) : c.rawMagnitude f φ = (f.man + φ) * c.ulp f.exp := rfl

/-- A shift to the right by n bits discards the fraction (m mod 2^n + φ) / 2^n of the unit that stays. -/
theorem shiftRight_mul_ulp (c : Cfg) (e : Int) (m n : Nat) (φ : ℚ) :
    (((m >>> n : Nat) : ℚ) + (((m % 2 ^ n : Nat) : ℚ) + φ) / 2 ^ n) * c.ulp (e + n) = (m + φ) * c.ulp e := by
  have hsplit : (m : ℚ) = ((m % 2 ^ n : Nat) : ℚ) + 2 ^ n * ((m >>> n : Nat) : ℚ) := by
    rw [Nat.shiftRight_eq_div_pow]
    exact_mod_cast (Nat.mod_add_div m (2 ^ n)).symm
  rw [hsplit, Cfg.ulp_add]
  field_simp
  ring

theorem shiftLeft_mul_ulp (c : Cfg) (e : Int) (m n : Nat) : ((m <<< n : Nat) : ℚ) * c.ulp e = m * c.ulp (e + n) := by
  rw [Nat.shiftLeft_eq, Cfg.ulp_add]
  push_cast
  ring

theorem keptLoss_classifies (m n : Nat) {lin : LossFraction} {φ : ℚ} (h : lin.Classifies φ) :
    (keptLoss m n lin).Classifies ((((m % 2 ^ n : Nat) : ℚ) + φ) / 2 ^ n) := by
  by_cases hn : n = 0
  · subst hn
    simpa [keptLoss, Nat.mod_one] using h
  · rw [keptLoss, if_neg hn]
    exact combine_classify_classifies m (Nat.one_le_iff_ne_zero.mpr hn) h

/-- No canonical magnitude lies strictly between those of a kept mantissa and the next one. -/
theorem Cfg.Kept.magnitude_gap {c : Cfg} {e e' : Int} {m m' : Nat} (hk : c.Kept e m) (h : c.CanonicalFinite e' m') :
    c.magnitude e' m' ≤ m * c.ulp e ∨ (m + 1) * c.ulp e ≤ c.magnitude e' m' := by
  rw [Cfg.magnitude_eq]
  rcases le_or_gt e e' with hle | hlt
  · -- a coarser magnitude is a multiple of the unit at e
    obtain ⟨n, rfl⟩ := Int.le.dest hle
    have hmul : (m' : ℚ) * c.ulp (e + n) = ((m' * 2 ^ n : Nat) : ℚ) * c.ulp e := by
      rw [Cfg.ulp_add]
      push_cast
      ring
    rw [hmul]
    refine (le_or_gt (m' * 2 ^ n) m).imp (fun h => ?_) (fun h => ?_)
    · exact mul_le_mul_of_nonneg_right (by exact_mod_cast h) (c.ulp_pos e).le
    · exact mul_le_mul_of_nonneg_right (by exact_mod_cast h) (c.ulp_pos e).le
  · -- a finer one has at most P bits, and m its leading bit at bit MB
    obtain ⟨hmin, hm'⟩ : c.eMin ≤ e' ∧ m' < 2 ^ c.prec := by
      obtain ⟨rfl, rfl⟩ | ⟨hmin, -, -, hlt', -⟩ := h
      · exact ⟨le_refl _, Nat.two_pow_pos _⟩
      · exact ⟨hmin, hlt'⟩
    obtain ⟨n, rfl⟩ := Int.le.dest (Int.add_one_le_of_lt hlt)
    have hm : m' ≤ 2 ^ (n + 1) * m :=
      calc m' ≤ 2 ^ 1 * 2 ^ c.mbN := by rw [← pow_add, add_comm]; exact hm'.le
        _ ≤ 2 ^ (n + 1) * m := Nat.mul_le_mul (Nat.pow_le_pow_right (by decide) (by omega)) (hk.lead (by omega))
    left
    have hulp : c.ulp (e' + 1 + n) = 2 ^ (n + 1) * c.ulp e' := by
      rw [← Cfg.ulp_add]
      congr 1
      push_cast
      ring
    rw [hulp, ← mul_assoc, mul_comm (m : ℚ)]
    exact mul_le_mul_of_nonneg_right (by exact_mod_cast hm) (c.ulp_pos e').le

/-! ### Rounding between two neighbours -/

section Neighbours

/-- v lies strictly between lo and hi, and no canonical magnitude does. -/
structure Cfg.Neighbours (c : Cfg) (lo v hi : ℚ) : Prop where
  above : lo < v
  below : v < hi
  gap : ∀ e m, c.CanonicalFinite e m → c.magnitude e m ≤ lo ∨ hi ≤ c.magnitude e m

variable {c : Cfg} {lo v hi : ℚ} {e : Int} {m : Nat}

theorem roundedDown_of_eq_lo (h : c.Neighbours lo v hi) (hmag : c.magnitude e m = lo) : c.RoundedDown v e m := by
  rw [Cfg.RoundedDown, hmag]
  exact ⟨h.above.le, fun e' m' hc hle => (h.gap e' m' hc).resolve_right (hle.trans_lt h.below).not_ge⟩

theorem roundedUp_of_eq_hi (h : c.Neighbours lo v hi) (hmag : c.magnitude e m = hi) : c.RoundedUp v e m := by
  rw [Cfg.RoundedUp, hmag]
  exact ⟨h.below.le, fun e' m' hc hle => (h.gap e' m' hc).resolve_left (h.above.trans_le hle).not_ge⟩

/-- The lower neighbour is the nearest when it is not the farther one, and even when the two are equally far. -/
theorem roundedNearest_of_eq_lo (h : c.Neighbours lo v hi) (hmag : c.magnitude e m = lo) (hnear : v - lo ≤ hi - v)
    (htie : v - lo = hi - v → m % 2 = 0) : c.RoundedNearest v e m := by
  intro e' m' hc
  rw [hmag, abs_of_nonpos (sub_nonpos.mpr h.above.le), neg_sub]
  obtain hle | hge := h.gap e' m' hc
  · rw [abs_of_nonpos (by linarith [h.above]), neg_sub]
    exact ⟨by linarith, fun heq hne => absurd (by linarith) hne⟩
  · rw [abs_of_nonneg (by linarith [h.below])]
    exact ⟨by linarith, fun heq _ => htie (by linarith)⟩

/-- The upper neighbour is the nearest when it is not the farther one, and even when the two are equally far. -/
theorem roundedNearest_of_eq_hi (h : c.Neighbours lo v hi) (hmag : c.magnitude e m = hi) (hnear : hi - v ≤ v - lo)
    (htie : v - lo = hi - v → m % 2 = 0) : c.RoundedNearest v e m := by
  intro e' m' hc
  rw [hmag, abs_of_nonneg (sub_nonneg.mpr h.below.le)]
  obtain hle | hge := h.gap e' m' hc
  · rw [abs_of_nonpos (by linarith [h.above]), neg_sub]
    exact ⟨by linarith, fun heq _ => htie (by linarith)⟩
  · rw [abs_of_nonneg (by linarith [h.below])]
    exact ⟨by linarith, fun heq hne => absurd (by linarith) hne⟩

/-- An exact result is the one that every mode prescribes. -/
theorem roundedBy_of_exact (mode : RoundingMode) (sign : Bool) (hmag : c.magnitude e m = v) :
    c.RoundedBy mode sign v e m := by
  have hdown : c.RoundedDown v e m := ⟨hmag.le, fun _ _ _ hle => hle.trans_eq hmag.symm⟩
  have hup : c.RoundedUp v e m := ⟨hmag.ge, fun _ _ _ hle => hmag.trans_le hle⟩
  have hnear : c.RoundedNearest v e m := by
    intro e' m' _
    rw [hmag, sub_self, abs_zero]
    exact ⟨abs_nonneg _, fun heq hne => absurd (sub_eq_zero.mp (abs_eq_zero.mp heq.symm)) hne⟩
  cases mode with
  | nearestTiesToEven => exact hnear
  | towardZero => exact hdown
  | towardPositive => cases sign; exacts [hup, hdown]
  | towardNegative => cases sign; exacts [hdown, hup]

end Neighbours

theorem LossFraction.Classifies.eq_zero_iff {lf : LossFraction} {φ : ℚ} (h : lf.Classifies φ) : φ = 0 ↔ lf = .exactlyZero := by
  refine ⟨fun hz => ?_, fun hlf => by subst hlf; exact h⟩
  by_contra hne
  exact (h.pos_lt_one hne).1.ne' hz

/-! ### The rounding step over the rationals (R310, R315) -/

section Correct

variable {c : Cfg} {mode : RoundingMode} {sign : Bool} {ef : Int} {mk : Nat} {lf : LossFraction} {ψ : ℚ}

/-- A result that is no overflow has the magnitude of the rounded mantissa: the carry folds exactly (R310). -/
theorem roundKept_magnitude (hk : c.Kept ef mk) (hovf : (roundKept c mode sign ef mk lf).ovf = false) :
    c.magnitude (roundKept c mode sign ef mk lf).val.exp (roundKept c mode sign ef mk lf).val.man =
      roundedMan mode sign mk lf * c.ulp ef := by
  rw [roundKept_eq hk] at hovf ⊢
  split_ifs at hovf ⊢ with hfold hmax hzero
  · rw [hfold]
    have hulp : c.ulp (ef + 1) = 2 ^ 1 * c.ulp ef := c.ulp_add ef 1
    simp only [Cfg.magnitude_eq, hulp, Cfg.prec]
    push_cast
    ring
  · simp [Cfg.magnitude_eq, Cfg.zeroFloat, hzero]
  · rfl

/-- The result is even when the rounded mantissa is (R315). -/
theorem roundKept_man_even (hk : c.Kept ef mk) (hmb : 1 ≤ c.mbN) (heven : roundedMan mode sign mk lf % 2 = 0) :
    (roundKept c mode sign ef mk lf).val.man % 2 = 0 := by
  rw [roundKept_eq hk]
  split_ifs
  · rfl
  · exact Nat.mod_eq_zero_of_dvd (dvd_pow_self 2 (by omega))
  · rfl
  · exact heven

theorem neighbours_of_kept (hk : c.Kept ef mk) (hpos : 0 < ψ) (hlt : ψ < 1) :
    c.Neighbours (mk * c.ulp ef) ((mk + ψ) * c.ulp ef) ((mk + 1) * c.ulp ef) where
  above := by have := mul_pos hpos (c.ulp_pos ef); linarith
  below := mul_lt_mul_of_pos_right (by linarith) (c.ulp_pos ef)
  gap _ _ := hk.magnitude_gap

theorem roundKept_magnitude_of_up (hk : c.Kept ef mk) (hovf : (roundKept c mode sign ef mk lf).ovf = false)
    (hup : roundUp mode sign lf (mk % 2 == 1) = true) :
    c.magnitude (roundKept c mode sign ef mk lf).val.exp (roundKept c mode sign ef mk lf).val.man =
      (mk + 1) * c.ulp ef := by
  rw [roundKept_magnitude hk hovf, roundedMan_of_up hup, Nat.cast_succ]

theorem roundKept_magnitude_of_not_up (hk : c.Kept ef mk) (hovf : (roundKept c mode sign ef mk lf).ovf = false)
    (hup : roundUp mode sign lf (mk % 2 == 1) = false) :
    c.magnitude (roundKept c mode sign ef mk lf).val.exp (roundKept c mode sign ef mk lf).val.man = mk * c.ulp ef := by
  rw [roundKept_magnitude hk hovf, roundedMan_of_not_up hup]

/-- With no fraction below it, the kept mantissa is the exact magnitude (R255, R312). -/
theorem roundKept_magnitude_of_exact (hk : c.Kept ef mk) (hψ : lf.Classifies ψ) (hlf : lf = .exactlyZero)
    (hovf : (roundKept c mode sign ef mk lf).ovf = false) :
    c.magnitude (roundKept c mode sign ef mk lf).val.exp (roundKept c mode sign ef mk lf).val.man =
      (mk + ψ) * c.ulp ef := by
  rw [roundKept_magnitude_of_not_up hk hovf (if_pos hlf), hψ.eq_zero_iff.mpr hlf, add_zero]

/-- NearestTiesToEven on an inexact value (R255, R315): the loss fraction says on which side of the midpoint it lies. -/
theorem roundKept_roundedNearest (hk : c.Kept ef mk) (hmb : 1 ≤ c.mbN) (hψ : lf.Classifies ψ) (hlf : lf ≠ .exactlyZero)
    (hovf : (roundKept c .nearestTiesToEven sign ef mk lf).ovf = false) :
    c.RoundedNearest ((mk + ψ) * c.ulp ef) (roundKept c .nearestTiesToEven sign ef mk lf).val.exp
      (roundKept c .nearestTiesToEven sign ef mk lf).val.man := by
  obtain ⟨hpos, hlt⟩ := hψ.pos_lt_one hlf
  have hn := neighbours_of_kept hk hpos hlt
  have hu := c.ulp_pos ef
  cases lf with
  | exactlyZero => exact absurd rfl hlf
  | lessThanHalf =>
    have hside : ψ * c.ulp ef < 1 / 2 * c.ulp ef := mul_lt_mul_of_pos_right hψ.2 hu
    refine roundedNearest_of_eq_lo hn (roundKept_magnitude_of_not_up hk hovf rfl) (by linarith) fun htie => ?_
    exact absurd htie (by linarith)
  | exactlyHalf =>
    have hside : ψ * c.ulp ef = 1 / 2 * c.ulp ef := congrArg (· * c.ulp ef) hψ
    rcases Nat.mod_two_eq_zero_or_one mk with heven | hodd
    · have hup : roundUp .nearestTiesToEven sign .exactlyHalf (mk % 2 == 1) = false := by simp [roundUp, heven]
      refine roundedNearest_of_eq_lo hn (roundKept_magnitude_of_not_up hk hovf hup) (by linarith) fun _ => ?_
      exact roundKept_man_even hk hmb (by rw [roundedMan_of_not_up hup, heven])
    · have hup : roundUp .nearestTiesToEven sign .exactlyHalf (mk % 2 == 1) = true := by simp [roundUp, hodd]
      refine roundedNearest_of_eq_hi hn (roundKept_magnitude_of_up hk hovf hup) (by linarith) fun _ => ?_
      exact roundKept_man_even hk hmb (by rw [roundedMan_of_up hup]; omega)
  | moreThanHalf =>
    have hside : 1 / 2 * c.ulp ef < ψ * c.ulp ef := mul_lt_mul_of_pos_right hψ.1 hu
    refine roundedNearest_of_eq_hi hn (roundKept_magnitude_of_up hk hovf rfl) (by linarith) fun htie => ?_
    exact absurd htie (by linarith)

/-- R315 on the rounding step: a kept mantissa with a classified fraction ψ below it is rounded as the mode prescribes. -/
theorem roundKept_roundedBy (hk : c.Kept ef mk) (hmb : 1 ≤ c.mbN) (hψ : lf.Classifies ψ)
    (hovf : (roundKept c mode sign ef mk lf).ovf = false) :
    c.RoundedBy mode sign ((mk + ψ) * c.ulp ef) (roundKept c mode sign ef mk lf).val.exp
      (roundKept c mode sign ef mk lf).val.man := by
  by_cases hlf : lf = .exactlyZero
  · exact roundedBy_of_exact mode sign (roundKept_magnitude_of_exact hk hψ hlf hovf)
  obtain ⟨hpos, hlt⟩ := hψ.pos_lt_one hlf
  have hn := neighbours_of_kept hk hpos hlt
  have hdown (h : roundUp mode sign lf (mk % 2 == 1) = false) :=
    roundedDown_of_eq_lo hn (roundKept_magnitude_of_not_up hk hovf h)
  have hup (h : roundUp mode sign lf (mk % 2 == 1) = true) :=
    roundedUp_of_eq_hi hn (roundKept_magnitude_of_up hk hovf h)
  cases mode with
  | nearestTiesToEven => exact roundKept_roundedNearest hk hmb hψ hlf hovf
  | towardZero => exact hdown (if_neg hlf)
  | towardPositive =>
    cases sign with
    | false => exact hup (if_neg hlf)
    | true => exact hdown (if_neg hlf)
  | towardNegative =>
    cases sign with
    | false => exact hdown (if_neg hlf)
    | true => exact hup (if_neg hlf)

/-- R312 on the rounding step: a result that is no overflow is exact when no fraction was lost, and only then. -/
theorem roundKept_exact_iff (hk : c.Kept ef mk) (hψ : lf.Classifies ψ)
    (hovf : (roundKept c mode sign ef mk lf).ovf = false) :
    lf = .exactlyZero ↔
      c.magnitude (roundKept c mode sign ef mk lf).val.exp (roundKept c mode sign ef mk lf).val.man =
        (mk + ψ) * c.ulp ef := by
  refine ⟨fun hlf => roundKept_magnitude_of_exact hk hψ hlf hovf, fun hexact => ?_⟩
  by_contra hlf
  obtain ⟨hpos, hlt⟩ := hψ.pos_lt_one hlf
  have hn := neighbours_of_kept hk hpos hlt
  cases hup : roundUp mode sign lf (mk % 2 == 1) with
  | false => exact hn.above.ne ((roundKept_magnitude_of_not_up hk hovf hup).symm.trans hexact)
  | true => exact hn.below.ne' ((roundKept_magnitude_of_up hk hovf hup).symm.trans hexact)

end Correct

/-! ### Every path but the overflow is a rounding step (R305, R315) -/

section Normalizer

variable {c : Cfg} {w : Nat} {mode : RoundingMode} {lin : LossFraction} {f : FloatReg} {φ : ℚ}

/-- `r` is the rounding step on a kept mantissa, with the fraction ψ below it, of the exact magnitude `v`. -/
def Cfg.RoundsFrom (c : Cfg) (mode : RoundingMode) (sign : Bool) (v : ℚ) (r : NormResult) : Prop :=
  ∃ (ef : Int) (mk : Nat) (lf : LossFraction) (ψ : ℚ),
    c.Kept ef mk ∧ lf.Classifies ψ ∧ v = (mk + ψ) * c.ulp ef ∧ r = roundKept c mode sign ef mk lf

/-- The exact paths round with no loss: a zero mantissa and a left shift. -/
theorem roundsFrom_of_exact {sign : Bool} {ef : Int} {mk : Nat} (hk : c.Kept ef mk) :
    c.RoundsFrom mode sign (mk * c.ulp ef)
      (if mk = 0 then { val := c.zeroFloat sign, loss := .exactlyZero, ovf := false }
       else { val := { sign := sign, cat := .normal, exp := ef, man := mk }, loss := .exactlyZero, ovf := false }) :=
  ⟨ef, mk, .exactlyZero, 0, hk, rfl, by rw [add_zero], (roundKept_of_not_up rfl).symm⟩

/-- With a usable loss the normalizer overflows before the rounding, or rounds the exact magnitude of its operand (R302, R305). -/
theorem normalizeFinite_roundsFrom (hl : c.Legal w) (mode : RoundingMode) (h : c.LossUsable lin f) (hφ : lin.Classifies φ) :
    normalizeFinite c mode lin f = .ok { val := c.infinityFloat f.sign, loss := .exactlyZero, ovf := true } ∨
      ∃ r, normalizeFinite c mode lin f = .ok r ∧ c.RoundsFrom mode f.sign (c.rawMagnitude f φ) r := by
  have hrange := Cfg.Legal.eMin_le_eMax hl
  rw [Cfg.rawMagnitude_eq]
  by_cases hm : f.man = 0
  · have hlin : lin = .exactlyZero := h.resolve_right fun h' => h'.1 hm
    have hk : c.Kept c.eMin 0 := ⟨le_refl _, hrange, Nat.two_pow_pos _, fun h => absurd h (lt_irrefl _)⟩
    have hr := roundsFrom_of_exact (mode := mode) (sign := f.sign) hk
    rw [Nat.cast_zero, zero_mul, if_pos rfl] at hr
    rw [hm, hφ.eq_zero_iff.mpr hlin, Nat.cast_zero, add_zero, zero_mul]
    exact .inr ⟨_, normalizeFinite_zero hm hlin, hr⟩
  by_cases hover : c.eMax < c.alignedExp f
  · exact .inl (normalizeFinite_overflow hm hover)
  right
  have hmax := not_lt.mp hover
  have hmax' := (Cfg.alignedExp_eq c f).symm.trans_le hmax
  by_cases hneg : finalShift c f.exp f.man < 0
  · have hlin : lin = .exactlyZero := by
      by_contra hlin
      exact hneg.not_ge (finalShift_nonneg_of_lossUsable h hlin hmax')
    refine ⟨_, normalizeFinite_left hm hmax hneg hlin, ?_⟩
    have hcanonical := canonicalNormal_of_left_shift hm hmax' hrange hneg
    have hr := roundsFrom_of_exact (mode := mode) (sign := f.sign) (Cfg.CanonicalNormal.kept hcanonical)
    obtain ⟨-, -, hpos, -, -⟩ := hcanonical
    rw [if_neg hpos.ne', shiftLeft_mul_ulp, Int.toNat_of_nonneg (by omega), add_neg_cancel_right] at hr
    rwa [hφ.eq_zero_iff.mpr hlin, add_zero]
  · obtain ⟨n, hn⟩ := Int.eq_ofNat_of_zero_le (not_lt.mp hneg)
    exact ⟨_, normalizeFinite_right hm hmax hn, _, _, _, _, kept_of_right_shift hm hrange hmax hn,
      keptLoss_classifies f.man n hφ, (shiftRight_mul_ulp c f.exp f.man n φ).symm, rfl⟩

end Normalizer

/-- What NORM does with a finite operand and a usable loss (R305): its result overflows, or rounds the exact magnitude. -/
theorem exec_norm_of_lossUsable {rd ra : Idx} {rm : RmSel} {l : Bool} {s : State} {mode : RoundingMode} {φ : ℚ}
    (hl : s.cfg.Legal s.params.w) (hm : s.cfg.mode rm = some mode) (hcat : s.cat.get ra = .zero ∨ s.cat.get ra = .normal)
    (h : s.cfg.LossUsable (s.incomingLoss l) (s.readF ra)) (hφ : (s.incomingLoss l).Classifies φ) :
    ∃ t r, exec (.norm rd ra rm l) s = .next t ∧ t.readF rd = r.val ∧ NormFlags s t r.loss r.ovf ∧
      r.IsCanonical s.cfg (s.sgn.get ra) ∧
      (r.ovf = false → s.cfg.RoundsFrom mode (s.sgn.get ra) (s.cfg.rawMagnitude (s.readF ra) φ) r) := by
  obtain ⟨r, hr, hcanonical⟩ := normalizeFinite_isCanonical hl mode h
  obtain ⟨t, hexec, hval, hflags, -⟩ := exec_norm_commits (rd := rd) hl hm ((normalizeFloat_of_finite hcat).trans hr)
    (Cfg.Canonical.expFits hl hcanonical.canonical)
  refine ⟨t, r, hexec, hval, hflags, hcanonical, fun hovf => ?_⟩
  obtain hinf | ⟨r', hr', hrounds⟩ := normalizeFinite_roundsFrom hl mode h hφ
  · cases hr.symm.trans hinf
    cases hovf
  · cases hr.symm.trans hr'
    exact hrounds

theorem canonicalFinite_of_isCanonical {c : Cfg} {sign : Bool} {r : NormResult} (h : r.IsCanonical c sign)
    (hovf : r.ovf = false) : c.CanonicalFinite r.val.exp r.val.man := by
  obtain ⟨hcanonical, -, hinf, hnan⟩ := h
  unfold Cfg.Canonical at hcanonical
  split at hcanonical
  · rw [hcanonical]; exact .inl ⟨rfl, rfl⟩
  · exact .inr hcanonical
  · rename_i hcat
    exact absurd (hinf.mpr hcat) (ne_true_of_eq_false hovf)
  · rename_i hcat
    exact absurd hcat hnan

/-- Settles O32: a result that is no overflow is the rounding step on the exact magnitude, with its two neighbours. -/
theorem normRoundsCorrectly : Obligations.NormRoundsCorrectly := by
  intro rd ra rm l s mode φ hl hm hcat hloss hφ
  obtain ⟨t, r, hexec, hval, hflags, hcanonical, hrounds⟩ := exec_norm_of_lossUsable (rd := rd) hl hm hcat hloss hφ
  obtain ⟨hS, -, hE, hX⟩ := FloatReg.mk.inj hval
  refine ⟨t, hexec, hS.trans hcanonical.sign_eq, fun hovf => ?_⟩
  rw [hflags.ovf] at hovf
  have hfinite := canonicalFinite_of_isCanonical hcanonical hovf
  obtain ⟨ef, mk, lf, ψ, hk, hψ, hv, rfl⟩ := hrounds hovf
  obtain ⟨-, -, hmb, -⟩ := hl
  rw [hE, hX, hv]
  exact ⟨hfinite, roundKept_roundedBy hk hmb hψ hovf⟩

/-- Settles O33: OVF = 1 is Infinity, and off it the rounding step is exact when it lost no fraction. -/
theorem normExactIffNoLossNoOverflow : Obligations.NormExactIffNoLossNoOverflow := by
  intro rd ra rm l s mode φ hl hm hcat hloss hφ
  obtain ⟨t, r, hexec, hval, hflags, hcanonical, hrounds⟩ := exec_norm_of_lossUsable (rd := rd) hl hm hcat hloss hφ
  obtain ⟨-, hC, hE, hX⟩ := FloatReg.mk.inj hval
  refine ⟨t, hexec, ?_⟩
  rw [hflags.ovf, hflags.loss, hC, hE, hX, ne_eq, ← hcanonical.ovf_iff, Bool.not_eq_true]
  refine and_congr_right fun hovf => ?_
  obtain ⟨ef, mk, lf, ψ, hk, hψ, hv, rfl⟩ := hrounds hovf
  rw [hv, roundKept_loss hk]
  exact roundKept_exact_iff hk hψ hovf

end Sys2Proof.Machine
end

section
/-! PROOFS. UNPACK and PACK (O35 to O39): UNPACK has one equation a case of the pattern's fields, PACK one a category. One
relation, `Cfg.Encodes`, ties a float to its fields: PACK writes them, and UNPACK gives a canonical float back from them. -/

namespace Sys2Proof.Machine

/-! ### The fields of a pattern (R350, R360) -/

section Fields

variable {c : Cfg} {g : Bool} {f q : Nat}

theorem rawFits_iff {r : Nat} : c.rawFits r = true ↔ r < 2 ^ (1 + c.ebN + c.mbN) := by
  rw [Cfg.rawFits, beq_iff_eq, Nat.shiftRight_eq_div_pow, Nat.div_eq_zero_iff_lt (Nat.two_pow_pos _)]

/-- The sign and the field stand above the fraction. -/
theorem rawPattern_eq (c : Cfg) (g : Bool) (f q : Nat) :
    c.rawPattern g f q = (g.toNat * 2 ^ c.ebN + f) * 2 ^ c.mbN + q := by
  rw [Cfg.rawPattern, pow_add]
  ring

theorem rawFrac_rawPattern (hq : q < 2 ^ c.mbN) : c.rawFrac (c.rawPattern g f q) = q := by
  rw [Cfg.rawFrac, rawPattern_eq, Nat.mul_add_mod_of_lt hq]

theorem rawPattern_div_frac (hq : q < 2 ^ c.mbN) : c.rawPattern g f q / 2 ^ c.mbN = g.toNat * 2 ^ c.ebN + f := by
  rw [rawPattern_eq, mul_comm, Nat.mul_add_div (Nat.two_pow_pos _), Nat.div_eq_of_lt hq, add_zero]

theorem rawExp_rawPattern (hf : f < 2 ^ c.ebN) (hq : q < 2 ^ c.mbN) : c.rawExp (c.rawPattern g f q) = f := by
  rw [Cfg.rawExp, rawPattern_div_frac hq, Nat.mul_add_mod_of_lt hf]

theorem rawSign_rawPattern (hf : f < 2 ^ c.ebN) (hq : q < 2 ^ c.mbN) : c.rawSign (c.rawPattern g f q) = g := by
  have hsign : c.rawPattern g f q / 2 ^ (c.ebN + c.mbN) = g.toNat := by
    rw [add_comm, pow_add, ← Nat.div_div_eq_div_mul, rawPattern_div_frac hq, mul_comm,
      Nat.mul_add_div (Nat.two_pow_pos _), Nat.div_eq_of_lt hf, add_zero]
  rw [Cfg.rawSign, hsign]
  cases g <;> rfl

end Fields

/-! ### The exponent field and its bias (R8, R60) -/

section Bias

variable {c : Cfg} {w : Nat}

/-- The all-ones field stands for e_max + 1, and field 0 is left for e_min - 1 (R8, R351). -/
theorem Cfg.Legal.two_mul_bias (hl : c.Legal w) : 2 * c.bias + 1 = (c.allOnes : Int) := by
  obtain ⟨k, hk⟩ : ∃ k, c.ebN = k + 1 := Nat.exists_eq_add_of_le' (one_le_two.trans hl.1)
  have hpos : 1 ≤ 2 ^ (k + 1) := Nat.one_le_two_pow
  rw [Cfg.bias, Cfg.allOnes, hk, Nat.cast_sub hpos, Nat.add_sub_cancel]
  push_cast
  ring

theorem Cfg.allOnes_lt (c : Cfg) : c.allOnes < 2 ^ c.ebN := Nat.sub_lt (Nat.two_pow_pos _) one_pos

theorem Cfg.Legal.allOnes_ne_zero (hl : c.Legal w) : c.allOnes ≠ 0 := by
  have hbias := hl.two_mul_bias
  have hbounds := Cfg.Legal.bias_bounds hl
  omega

theorem Cfg.Legal.topFracBit_lt (hl : c.Legal w) : 2 ^ (c.mbN - 1) < 2 ^ c.mbN := by
  obtain ⟨-, -, hmb, -⟩ := hl
  exact Nat.pow_lt_pow_right (by decide) (by omega)

/-- A subnormal (R60, R352). -/
theorem Cfg.Legal.canonicalNormal_subnormal {m : Nat} (hl : c.Legal w) (hm : m ≠ 0) (hlt : m < 2 ^ c.mbN) :
    c.CanonicalNormal c.eMin m :=
  ⟨le_refl _, Cfg.Legal.eMin_le_eMax hl, Nat.pos_of_ne_zero hm,
    hlt.trans (Nat.pow_lt_pow_right (by decide) (Nat.lt_succ_self _)), fun h => absurd h (lt_irrefl _)⟩

/-- A float with its leading bit at bit MB, and a field that is neither 0 nor all-ones (R60, R352). -/
theorem Cfg.Legal.canonicalNormal_of_field {f q : Nat} (hl : c.Legal w) (hf : f ≠ 0) (hlt : f < c.allOnes)
    (hq : q < 2 ^ c.mbN) : c.CanonicalNormal (f - c.bias) (2 ^ c.mbN + q) := by
  have hbias := hl.two_mul_bias
  have hprec : 2 ^ c.prec = 2 ^ c.mbN + 2 ^ c.mbN := by rw [Cfg.prec, pow_succ, mul_two]
  simp only [Cfg.CanonicalNormal, Cfg.eMin, Cfg.eMax, hprec]
  refine ⟨by omega, by omega, by omega, by omega, fun _ => Nat.le_add_right _ _⟩

end Bias

/-! ### What UNPACK decodes (R351, R352, R354) -/

section Decode

variable {c : Cfg} {w : Nat} {g : Bool} {f q : Nat}

theorem unpackBits_rawPattern (hf : f < 2 ^ c.ebN) (hq : q < 2 ^ c.mbN) :
    unpackBits c (c.rawPattern g f q) =
      if f = c.allOnes then
        if q = 0 then c.infinityFloat g else c.nanFloat g
      else if f = 0 then
        if q = 0 then c.zeroFloat g else { sign := g, cat := .normal, exp := c.eMin, man := q }
      else { sign := g, cat := .normal, exp := f - c.bias, man := 2 ^ c.mbN + q } := by
  simp only [unpackBits, rawSign_rawPattern hf hq, rawExp_rawPattern hf hq, rawFrac_rawPattern hq]

theorem unpackBits_infinity (hf : f = c.allOnes) (hq : q = 0) :
    unpackBits c (c.rawPattern g f q) = c.infinityFloat g := by
  subst hf hq
  rw [unpackBits_rawPattern c.allOnes_lt (Nat.two_pow_pos _), if_pos rfl, if_pos rfl]

theorem unpackBits_nan (hf : f = c.allOnes) (hne : q ≠ 0) (hq : q < 2 ^ c.mbN) :
    unpackBits c (c.rawPattern g f q) = c.nanFloat g := by
  subst hf
  rw [unpackBits_rawPattern c.allOnes_lt hq, if_pos rfl, if_neg hne]

theorem unpackBits_zero (hl : c.Legal w) (hf : f = 0) (hq : q = 0) :
    unpackBits c (c.rawPattern g f q) = c.zeroFloat g := by
  subst hf hq
  rw [unpackBits_rawPattern (Nat.two_pow_pos _) (Nat.two_pow_pos _), if_neg hl.allOnes_ne_zero.symm, if_pos rfl, if_pos rfl]

theorem unpackBits_subnormal (hl : c.Legal w) (hf : f = 0) (hne : q ≠ 0) (hq : q < 2 ^ c.mbN) :
    unpackBits c (c.rawPattern g f q) = { sign := g, cat := .normal, exp := c.eMin, man := q } := by
  subst hf
  rw [unpackBits_rawPattern (Nat.two_pow_pos _) hq, if_neg hl.allOnes_ne_zero.symm, if_pos rfl, if_neg hne]

theorem unpackBits_normal (hne : f ≠ 0) (hones : f ≠ c.allOnes) (hf : f < 2 ^ c.ebN) (hq : q < 2 ^ c.mbN) :
    unpackBits c (c.rawPattern g f q) = { sign := g, cat := .normal, exp := f - c.bias, man := 2 ^ c.mbN + q } := by
  rw [unpackBits_rawPattern hf hq, if_neg hones, if_neg hne]

theorem lt_allOnes_of_ne (hf : f < 2 ^ c.ebN) (hones : f ≠ c.allOnes) : f < c.allOnes :=
  lt_of_le_of_ne (Nat.le_sub_one_of_lt hf) hones

/-- Every pattern decodes to a canonical float (R60, R61). -/
theorem canonical_unpackBits (hl : c.Legal w) (hf : f < 2 ^ c.ebN) (hq : q < 2 ^ c.mbN) :
    c.Canonical (unpackBits c (c.rawPattern g f q)) := by
  rw [unpackBits_rawPattern hf hq]
  split_ifs with hones hzero hsub hzero
  · rfl
  · rfl
  · rfl
  · exact hl.canonicalNormal_subnormal hzero hq
  · exact hl.canonicalNormal_of_field hsub (lt_allOnes_of_ne hf hones) hq

end Decode

/-! ### What PACK encodes (R356 to R358, R361) -/

section Encode

variable {c : Cfg} {w : Nat} {fl : FloatReg} {f q : Nat}

theorem packBits_of_infinity (h : fl.cat = .infinity) : packBits c fl = .ok (c.rawPattern fl.sign c.allOnes 0) := by
  simp only [packBits, h]

theorem packBits_of_nan (h : fl.cat = .nan) :
    packBits c fl = .ok (c.rawPattern fl.sign c.allOnes (2 ^ (c.mbN - 1))) := by
  simp only [packBits, h]

theorem packBits_of_zero (h : fl.cat = .zero) :
    packBits c fl = if fl.man = 0 then .ok (c.rawPattern fl.sign 0 0) else .error .packRange := by
  simp only [packBits, h]

theorem packBits_of_normal (h : fl.cat = .normal) :
    packBits c fl = if c.CanonicalNormal fl.exp fl.man then .ok (packNormal c fl) else .error .packRange := by
  simp only [packBits, h]

/-- The float's exponent field and fraction (R356 to R358). -/
inductive Cfg.Encodes (c : Cfg) : FloatReg → Nat → Nat → Prop where
  | infinity {fl : FloatReg} : fl.cat = .infinity → c.Encodes fl c.allOnes 0
  | nan {fl : FloatReg} : fl.cat = .nan → c.Encodes fl c.allOnes (2 ^ (c.mbN - 1))
  | zero {fl : FloatReg} : fl.cat = .zero → fl.man = 0 → c.Encodes fl 0 0
  | subnormal {fl : FloatReg} : fl.cat = .normal → fl.exp = c.eMin → fl.man ≠ 0 → fl.man < 2 ^ c.mbN →
      c.Encodes fl 0 fl.man
  | normal {fl : FloatReg} {f q : Nat} : fl.cat = .normal → fl.exp = f - c.bias → fl.man = 2 ^ c.mbN + q →
      f ≠ 0 → f < c.allOnes → q < 2 ^ c.mbN → c.Encodes fl f q

theorem Cfg.Encodes.field_lt (h : c.Encodes fl f q) : f < 2 ^ c.ebN := by
  cases h with
  | infinity | nan => exact c.allOnes_lt
  | zero | subnormal => exact Nat.two_pow_pos _
  | normal _ _ _ _ hf _ => exact hf.trans c.allOnes_lt

theorem Cfg.Encodes.frac_lt (hl : c.Legal w) (h : c.Encodes fl f q) : q < 2 ^ c.mbN := by
  cases h with
  | infinity | zero => exact Nat.two_pow_pos _
  | nan => exact hl.topFracBit_lt
  | subnormal _ _ _ hq => exact hq
  | normal _ _ _ _ _ hq => exact hq

/-- PACK writes the fields under the float's sign (R356). -/
theorem Cfg.Encodes.packBits_eq (hl : c.Legal w) (h : c.Encodes fl f q) :
    packBits c fl = .ok (c.rawPattern fl.sign f q) := by
  cases h with
  | infinity hcat => exact packBits_of_infinity hcat
  | nan hcat => exact packBits_of_nan hcat
  | zero hcat hman => rw [packBits_of_zero hcat, if_pos hman]
  | subnormal hcat hexp hne hlt =>
    rw [packBits_of_normal hcat, if_pos (hexp ▸ hl.canonicalNormal_subnormal hne hlt), packNormal, if_pos ⟨hexp, hlt⟩]
  | normal hcat hexp hman hne hf hq =>
    have hcanonical := hl.canonicalNormal_of_field hne hf hq
    rw [packBits_of_normal hcat, hexp, hman, if_pos hcanonical, packNormal, hexp, hman,
      if_neg fun h => h.2.not_ge (Nat.le_add_right _ _), sub_add_cancel, Int.toNat_natCast, Nat.add_sub_cancel_left]

/-- The fields of each category, and of a Normal with and without the leading bit. -/
theorem Cfg.Encodes.fields (h : c.Encodes fl f q) :
    (fl.cat = .infinity → f = c.allOnes ∧ q = 0) ∧
    (fl.cat = .nan → f = c.allOnes ∧ q = 2 ^ (c.mbN - 1)) ∧
    (fl.cat = .zero → f = 0 ∧ q = 0) ∧
    (fl.cat = .normal → fl.man < 2 ^ c.mbN → f = 0 ∧ q = fl.man) ∧
    (fl.cat = .normal → 2 ^ c.mbN ≤ fl.man → (f : Int) = fl.exp + c.bias ∧ q + 2 ^ c.mbN = fl.man) := by
  cases h with
  | infinity hcat => simp [hcat]
  | nan hcat => simp [hcat]
  | zero hcat _ => simp [hcat]
  | subnormal hcat _ _ hlt => simp [hcat, hlt.not_ge]
  | normal hcat hexp hman _ _ _ => simp [hcat, hexp, hman, add_comm]

/-- A canonical Normal is a subnormal, or has a field between 0 and all-ones (R60, R357). -/
theorem Cfg.CanonicalNormal.exists_encodes (hl : c.Legal w) (hcat : fl.cat = .normal) (h : c.CanonicalNormal fl.exp fl.man) :
    ∃ f q, c.Encodes fl f q := by
  have hbias := hl.two_mul_bias
  obtain ⟨hmin, hmax, hpos, hlt, hlead⟩ := h
  rcases Nat.lt_or_ge fl.man (2 ^ c.mbN) with hsub | hnormal
  · have hexp : fl.exp = c.eMin := le_antisymm (not_lt.mp fun h => hsub.not_ge (hlead h)) hmin
    exact ⟨0, fl.man, .subnormal hcat hexp hpos.ne' hsub⟩
  · rw [Cfg.prec, pow_succ] at hlt
    simp only [Cfg.eMin, Cfg.eMax] at hmin hmax
    exact ⟨(fl.exp + c.bias).toNat, fl.man - 2 ^ c.mbN,
      .normal hcat (by omega) (by omega) (by omega) (by omega) (by omega)⟩

/-- What PACK does not refuse has fields (R356, R361). -/
theorem exists_encodes_of_not_refused (hl : c.Legal w) (hzero : fl.cat = .zero → fl.man = 0)
    (hnormal : fl.cat = .normal → c.CanonicalNormal fl.exp fl.man) : ∃ f q, c.Encodes fl f q := by
  cases hcat : fl.cat with
  | zero => exact ⟨_, _, .zero hcat (hzero hcat)⟩
  | normal => exact Cfg.CanonicalNormal.exists_encodes hl hcat (hnormal hcat)
  | infinity => exact ⟨_, _, .infinity hcat⟩
  | nan => exact ⟨_, _, .nan hcat⟩

end Encode

/-! ### There and back (R362) -/

section RoundTrip

variable {c : Cfg} {w : Nat} {g : Bool} {fl : FloatReg} {f q : Nat}

/-- Decoding loses nothing but a NaN's payload. -/
theorem encodes_unpackBits (hf : f < 2 ^ c.ebN) (hq : q < 2 ^ c.mbN) (h : ¬ (f = c.allOnes ∧ q ≠ 0)) :
    c.Encodes (unpackBits c (c.rawPattern g f q)) f q := by
  rw [unpackBits_rawPattern hf hq]
  split_ifs with hones hzero hsub hzero
  · subst hones hzero
    exact .infinity rfl
  · exact absurd ⟨hones, hzero⟩ h
  · subst hsub hzero
    exact .zero rfl rfl
  · subst hsub
    exact .subnormal rfl rfl hzero hq
  · exact .normal rfl rfl rfl hsub (lt_allOnes_of_ne hf hones) hq

theorem unpackBits_sign (hf : f < 2 ^ c.ebN) (hq : q < 2 ^ c.mbN) : (unpackBits c (c.rawPattern g f q)).sign = g := by
  rw [unpackBits_rawPattern hf hq]
  split_ifs <;> rfl

/-- Encoding a canonical float loses nothing. -/
theorem Cfg.Encodes.unpackBits_eq (hl : c.Legal w) (h : c.Encodes fl f q) (hc : c.Canonical fl) :
    unpackBits c (c.rawPattern fl.sign f q) = fl := by
  cases h with
  | infinity hcat =>
    simp only [Cfg.Canonical, hcat] at hc
    exact (unpackBits_infinity rfl rfl).trans hc.symm
  | nan hcat =>
    simp only [Cfg.Canonical, hcat] at hc
    exact (unpackBits_nan rfl (Nat.two_pow_pos _).ne' hl.topFracBit_lt).trans hc.symm
  | zero hcat _ =>
    simp only [Cfg.Canonical, hcat] at hc
    exact (unpackBits_zero hl rfl rfl).trans hc.symm
  | subnormal hcat hexp hne hlt => rw [unpackBits_subnormal hl rfl hne hlt, ← hcat, ← hexp]
  | normal hcat hexp hman hne hf hq =>
    rw [unpackBits_normal hne hf.ne (hf.trans c.allOnes_lt) hq, ← hcat, ← hexp, ← hman]

/-- A canonical float has fields (R60, R61). -/
theorem Cfg.Canonical.exists_encodes (hl : c.Legal w) (hc : c.Canonical fl) : ∃ f q, c.Encodes fl f q := by
  refine exists_encodes_of_not_refused hl (fun hcat => ?_) (fun hcat => ?_) <;> simp only [Cfg.Canonical, hcat] at hc
  · rw [hc]
    rfl
  · exact hc

end RoundTrip

/-! ### The commands (R353, R356, R360, R361) -/

section Commands

variable {c : Cfg} {s : State} {rd ra : Idx} {k : ErrCode}

theorem exec_unpack_of_error (h : s.unpackValue ra = .error k) : exec (.unpack rd ra) s = s.finish (.error k) := by
  simp only [exec, execUnpack, h, Except.map]

theorem exec_pack_of_error (h : s.packValue ra = .error k) : exec (.pack rd ra) s = s.finish (.error k) := by
  simp only [exec, execPack, h, Except.map]

theorem packValue_of_legal (hl : s.cfg.LegalRaw s.params.w) : s.packValue ra = packBits s.cfg (s.readF ra) := if_pos hl

/-- UNPACK of a pattern writes the float it decodes to, and nothing else (R353). -/
theorem exec_unpack_commits {g : Bool} {f q : Nat} (hcfg : s.cfg = c) (hl : c.LegalRaw s.params.w) (hf : f < 2 ^ c.ebN)
    (hq : q < 2 ^ c.mbN) (hx : s.readX ra = c.rawPattern g f q) :
    ∃ t, exec (.unpack rd ra) s = .next t ∧ t.readF rd = unpackBits c (c.rawPattern g f q) ∧
      FloatFrame s t rd ∧ NoFlag s t := by
  subst hcfg
  have hfits : s.cfg.rawFits (s.cfg.rawPattern g f q) = true := rawFits_iff.mpr (rawPattern_lt hf hq)
  have hval : s.unpackValue ra = .ok (unpackBits s.cfg (s.cfg.rawPattern g f q)) := by
    rw [State.unpackValue, if_pos hl, hx, if_pos hfits]
  exact ⟨(s.writeF rd _).retire, by simp only [exec, execUnpack, hval, Except.map, State.finish_ok],
    s.readF_writeF_self rd (Cfg.Canonical.expFits hl.1 (canonical_unpackBits hl.1 hf hq)), frame_writeF s rd _, rfl, rfl⟩

/-- PACK of a float with fields writes the pattern they make with its sign, and nothing else (R356). -/
theorem exec_pack_commits {f q : Nat} (hcfg : s.cfg = c) (hl : c.LegalRaw s.params.w) (h : c.Encodes (s.readF ra) f q) :
    ∃ t, exec (.pack rd ra) s = .next t ∧ t.readX rd = c.rawPattern (s.sgn.get ra) f q ∧
      Frame s t [rd] [] [] ∧ NoFlag s t := by
  subst hcfg
  have hval : s.packValue ra = .ok (s.cfg.rawPattern (s.sgn.get ra) f q) :=
    (packValue_of_legal hl).trans (h.packBits_eq hl.1)
  exact ⟨(s.writeX rd _).retire, by simp only [exec, execPack, hval, Except.map, State.finish_ok], s.readX_writeX_self rd _,
    frame_writeX s rd _, rfl, rfl⟩

end Commands

/-- Settles O35: the clauses are the equations of `unpackBits`. -/
theorem unpackDecodesThePattern : Obligations.UnpackDecodesThePattern := by
  intro rd ra s g f q hl hf hq hx
  obtain ⟨t, hexec, hval, hframe, hflags⟩ := exec_unpack_commits (rd := rd) rfl hl hf hq hx
  obtain ⟨hlegal, -⟩ := hl
  refine ⟨rfl, t, hexec, hframe, hflags, ?_⟩
  rw [hval]
  exact ⟨canonical_unpackBits hlegal hf hq, unpackBits_infinity, fun hones hne => unpackBits_nan hones hne hq,
    unpackBits_zero hlegal, fun hzero hne => unpackBits_subnormal hlegal hzero hne hq,
    fun hne hones => unpackBits_normal hne hones hf hq⟩

/-- Settles O36: what PACK does not refuse has fields, and each clause reads them off in one category. -/
theorem packEncodesTheFloat : Obligations.PackEncodesTheFloat := by
  intro rd ra s hl hzero hnormal
  obtain ⟨f, q, h⟩ := exists_encodes_of_not_refused (fl := s.readF ra) hl.1 hzero hnormal
  obtain ⟨t, hexec, hval, hframe, hflags⟩ := exec_pack_commits (rd := rd) rfl hl h
  refine ⟨rfl, t, f, q, hexec, hframe, hflags, h.field_lt, h.frac_lt hl.1, hval, h.fields⟩

/-- Settles O37: each check fails in its turn, and the later ones are not reached. -/
theorem conversionErrorsInOrder : Obligations.ConversionErrorsInOrder := by
  intro rd ra s
  refine ⟨fun hcfg => ?_, fun hl => ⟨fun hwide => ?_, fun hrange => ?_⟩⟩
  · have hl : ¬ s.cfg.LegalRaw s.params.w := fun ⟨⟨heb, heb', hmb, hmb'⟩, hw⟩ => hcfg ⟨heb, heb', hmb, hmb', hw⟩
    exact ⟨raisesError_of (exec_unpack_of_error (if_neg hl)), raisesError_of (exec_pack_of_error (if_neg hl))⟩
  · have hfits : ¬ s.cfg.rawFits (s.readX ra) = true := fun h => hwide.not_gt (rawFits_iff.mp h)
    exact raisesError_of (exec_unpack_of_error ((if_pos hl).trans (if_neg hfits)))
  · refine raisesError_of (exec_pack_of_error ((packValue_of_legal hl).trans ?_))
    obtain ⟨hcat, hne⟩ | ⟨hcat, hnot⟩ := hrange
    · exact (packBits_of_zero hcat).trans (if_neg hne)
    · exact (packBits_of_normal hcat).trans (if_neg hnot)

/-- Settles O38: but for a NaN's payload, the fields of the pattern are those of the float UNPACK gives. -/
theorem unpackPackRoundTrip : Obligations.UnpackPackRoundTrip := by
  intro rf ra rx s g f q hl hf hq hx
  obtain ⟨t, hexec, hval, hframe, -⟩ := exec_unpack_commits (rd := rf) rfl hl hf hq hx
  have hsign : t.sgn.get rf = g := (congrArg FloatReg.sign hval).trans (unpackBits_sign hf hq)
  have hpack {f' q' : Nat} (h : s.cfg.Encodes (t.readF rf) f' q') :=
    exec_pack_commits (rd := rx) hframe.cfg (hframe.params ▸ hl) h
  rw [hsign] at hpack
  by_cases hnan : f = s.cfg.allOnes ∧ q ≠ 0
  · obtain ⟨rfl, hne⟩ := hnan
    have hcat : (t.readF rf).cat = .nan := congrArg FloatReg.cat (hval.trans (unpackBits_nan rfl hne hq))
    obtain ⟨u, hexec', hval', -⟩ := hpack (.nan hcat)
    exact ⟨t, u, hexec, hexec', fun h => absurd ⟨rfl, hne⟩ h, fun _ _ => hval'⟩
  · obtain ⟨u, hexec', hval', -⟩ := hpack (hval ▸ encodes_unpackBits hf hq hnan)
    exact ⟨t, u, hexec, hexec', fun _ => hval'.trans hx.symm, fun hones hne => absurd ⟨hones, hne⟩ hnan⟩

/-- Settles O39: the pattern that PACK writes has the fields of the float. -/
theorem packUnpackRoundTrip : Obligations.PackUnpackRoundTrip := by
  intro rx ra rf s hl hc
  obtain ⟨f, q, h⟩ := Cfg.Canonical.exists_encodes hl.1 hc
  obtain ⟨t, hexec, hx, hframe, -⟩ := exec_pack_commits (rd := rx) rfl hl h
  obtain ⟨u, hexec', hval, -⟩ :=
    exec_unpack_commits (rd := rf) hframe.cfg (hframe.params ▸ hl) h.field_lt (h.frac_lt hl.1) hx
  exact ⟨t, u, hexec, hexec', hval.trans (h.unpackBits_eq hl.1 hc)⟩

end Sys2Proof.Machine
end

section
/-! PROOFS. NORM after a widening cast's exponent adjustment (O40): the mantissa of the smaller format needs no shift to the
right, so nothing is rounded. -/

namespace Sys2Proof.Machine

/-! ### NORM without a right shift (R307, R309) -/

/-- A finite value with its leading bit at or below bit MB and an exponent not below e_min is normalized with no loss, unless it
overflows. -/
theorem normalizeFinite_lossless {c : Cfg} {f : FloatReg} (mode : RoundingMode)
    (h : f.man ≠ 0 → c.alignedExp f ≤ c.eMax ∧ msb f.man ≤ c.mbN ∧ c.eMin ≤ f.exp) :
    ∃ r, normalizeFinite c mode .exactlyZero f = .ok r ∧ r.loss = .exactlyZero ∧ r.ovf = false := by
  by_cases hm : f.man = 0
  · exact ⟨_, normalizeFinite_zero hm rfl, rfl, rfl⟩
  obtain ⟨hmax, hmsb, hmin⟩ := h hm
  by_cases hneg : finalShift c f.exp f.man < 0
  · exact ⟨_, normalizeFinite_left hm hmax hneg rfl, rfl, rfl⟩
  · have hzero : finalShift c f.exp f.man = (0 : Nat) := by
      rw [finalShift_eq_max] at hneg ⊢
      simp only [alignShift, Cfg.prec] at hneg ⊢
      omega
    refine ⟨_, normalizeFinite_right hm hmax hzero, ?_⟩
    rw [keptLoss, if_pos rfl, roundKept_of_not_up rfl]
    split_ifs <;> exact ⟨rfl, rfl⟩

/-! ### Formats that include one another (R374, R375) -/

theorem Cfg.bias_mono {a c : Cfg} (h : a.ebN ≤ c.ebN) : a.bias ≤ c.bias :=
  sub_le_sub_right (pow_le_pow_right₀ (by decide) (Nat.sub_le_sub_right h 1)) 1

/-- The exponent adjustment of R374 keeps the magnitude, read under the new format. -/
theorem magnitude_adjusted (a c : Cfg) (f : FloatReg) :
    c.rawMagnitude f 0 = a.magnitude (f.exp - ((c.mbN : Int) - a.mbN)) f.man := by
  rw [Cfg.rawMagnitude, Cfg.magnitude, add_zero]
  congr 2
  ring

/-- A canonical float of a format fits each format that includes it, once its exponent is adjusted. -/
theorem fits_of_adjusted {a c : Cfg} {f : FloatReg} (heb : a.ebN ≤ c.ebN) (hmb : a.mbN ≤ c.mbN)
    (h : a.CanonicalFinite (f.exp - ((c.mbN : Int) - a.mbN)) f.man) (hm : f.man ≠ 0) :
    c.alignedExp f ≤ c.eMax ∧ msb f.man ≤ c.mbN ∧ c.eMin ≤ f.exp := by
  obtain ⟨-, hzero⟩ | ⟨hmin, hmax, -, hlt, -⟩ := h
  · exact absurd hzero hm
  have hbias := Cfg.bias_mono heb
  have hmsb : msb f.man < a.mbN + 1 := (Nat.log2_lt hm).mpr hlt
  simp only [Cfg.alignedExp, Cfg.eMin, Cfg.eMax] at *
  omega

/-- Settles O40: the run has no loss and no overflow, so by O33 its result has the magnitude of the operand. -/
theorem wideningCastIsExact : Obligations.WideningCastIsExact := by
  intro rd ra rm s mode a hl hm _ _ heb hmb hcat hfinite
  obtain ⟨r, hr, hloss, hovf⟩ := normalizeFinite_lossless mode (fits_of_adjusted (f := s.readF ra) heb hmb hfinite)
  have hexec : exec (.norm rd ra rm false) s = .next (s.writeNorm rd r).retire :=
    exec_norm_of_ok hl hm ((normalizeFloat_of_finite hcat).trans hr)
  obtain ⟨t, ht, hcanonical, -⟩ := normResultsAreCanonical rd ra rm false s mode hl hm hcat (.inl rfl)
  obtain ⟨u, hu, hexact⟩ := normExactIffNoLossNoOverflow rd ra rm false s mode 0 hl hm hcat (.inl rfl) rfl
  cases hexec.symm.trans ht
  cases hexec.symm.trans hu
  exact ⟨_, hexec, hloss, hovf, hcanonical, (hexact.mp ⟨hovf, hloss⟩).2.trans (magnitude_adjusted a s.cfg (s.readF ra))⟩

end Sys2Proof.Machine
end

section
/-! PROOFS. ALIGN (O41, O42): the aligner has one equation a branch of R401, ALIGN commits what it says and nothing else, and the
cap at W + 1 changes neither output. -/

namespace Sys2Proof.Machine

/-! ### The branches of the aligner (R401, R402, R404) -/

section Branches

variable {w : Nat} {a b : FloatReg}

theorem alignFloats_of_special (h : a.cat.special = true ∨ b.cat.special = true) :
    alignFloats w a b = .error .specialOperand := if_pos (Bool.or_eq_true_iff.mpr h)

theorem neither_special_of_finite (ha : a.cat = .zero ∨ a.cat = .normal) (hb : b.cat = .zero ∨ b.cat = .normal) :
    ¬ (a.cat.special || b.cat.special) = true := by
  rw [Category.special_of_finite ha, Category.special_of_finite hb]
  decide

/-- On a tie the second operand is the one aligned (R402). -/
theorem alignFloats_of_le (ha : a.cat = .zero ∨ a.cat = .normal) (hb : b.cat = .zero ∨ b.cat = .normal)
    (h : b.exp ≤ a.exp) : alignFloats w a b = .ok (alignTo w a.exp b false) :=
  (if_neg (neither_special_of_finite ha hb)).trans (if_pos h)

theorem alignFloats_of_lt (ha : a.cat = .zero ∨ a.cat = .normal) (hb : b.cat = .zero ∨ b.cat = .normal)
    (h : a.exp < b.exp) : alignFloats w a b = .ok (alignTo w b.exp a true) :=
  (if_neg (neither_special_of_finite ha hb)).trans (if_neg h.not_ge)

end Branches

theorem special_of_infinity_or_nan {k : Category} (h : k = .infinity ∨ k = .nan) : k.special = true := by
  obtain rfl | rfl := h <;> rfl

/-- The amount is the exact difference of the exponents, capped at W + 1. -/
theorem alignAmount_cast {w : Nat} {big small : Int} (h : small ≤ big) :
    (alignAmount w big small : Int) = min (big - small) (w + 1) := by
  unfold alignAmount
  omega

/-! ### What ALIGN commits (R401) -/

section Commit

variable {s : State} {rd ra rb : Idx}

/-- ALIGN writes the aligner's three outputs, and nothing else. -/
theorem exec_align_commits {r : AlignResult} (hr : alignFloats s.params.w (s.readF ra) (s.readF rb) = .ok r)
    (hfits : ExpFits r.val.exp) :
    ∃ t, exec (.align rd ra rb) s = .next t ∧ t.readF rd = r.val ∧ t.loss = r.loss ∧
      t.flags = { s.flags with swap := r.swap } ∧ FloatFrame s t rd :=
  ⟨(s.writeAlign rd r).retire, by simp only [exec, execAlign, hr, Except.map, State.finish_ok],
    s.readF_writeF_self rd hfits, rfl, rfl, ((frame_writeF s rd r.val).writeLoss _).writeSwap _⟩

theorem raisesError_of_alignFloats_error {k : ErrCode}
    (hr : alignFloats s.params.w (s.readF ra) (s.readF rb) = .error k) : RaisesError (.align rd ra rb) s k :=
  raisesError_of (by simp only [exec, execAlign, hr, Except.map])

end Commit

/-- Settles O41: the signed compare of the exponents decides between the two branches of a pair of finite operands. -/
theorem alignShiftsTheSmallerExponent : Obligations.AlignShiftsTheSmallerExponent := by
  intro rd ra rb s
  refine ⟨rfl, fun ha hb => ?_, fun hspecial => raisesError_of_alignFloats_error (alignFloats_of_special ?_)⟩
  · obtain hle | hlt := le_or_gt (s.readE rb) (s.readE ra)
    · obtain ⟨t, hexec, hval, hloss, hflags, hframe⟩ :=
        exec_align_commits (rd := rd) (alignFloats_of_le ha hb hle) (readE_fits s ra)
      refine ⟨t, _, hexec, fun _ => ⟨alignAmount_cast hle, hval, hloss.trans (classify_eq_exact _ _), ?_⟩,
        fun hlt => absurd hle hlt.not_ge, ?_⟩
      all_goals simp only [hflags, hframe, alignTo, and_self]
    · obtain ⟨t, hexec, hval, hloss, hflags, hframe⟩ :=
        exec_align_commits (rd := rd) (alignFloats_of_lt ha hb hlt) (readE_fits s rb)
      refine ⟨t, _, hexec, fun hle => absurd hle hlt.not_ge,
        fun _ => ⟨alignAmount_cast hlt.le, hval, hloss.trans (classify_eq_exact _ _), ?_⟩, ?_⟩
      all_goals simp only [hflags, hframe, alignTo, and_self]
  · rw [← or_assoc] at hspecial
    exact hspecial.imp special_of_infinity_or_nan special_of_infinity_or_nan

/-! ### The cap at W + 1 (R403) -/

/-- From W + 1 on, neither the mantissa nor the loss of a shift depends on its amount (R252): the cap is exact. -/
theorem shift_and_loss_of_capped {w v n : Nat} {d : Int} (hv : v < 2 ^ w) (hd : 0 ≤ d) (hn : (n : Int) = min d (w + 1)) :
    v >>> n = v >>> d.toNat ∧ classifyExact v n = classifyExact v d.toNat := by
  obtain hle | hcut : n = d.toNat ∨ n = w + 1 ∧ w + 1 ≤ d.toNat := by omega
  · rw [hle]
    exact ⟨rfl, rfl⟩
  · obtain ⟨rfl, hwide⟩ := hcut
    have hzero {k : Nat} (hk : w + 1 ≤ k) : v >>> k = 0 :=
      Nat.shiftRight_eq_zero v k (hv.trans_le (Nat.pow_le_pow_right (by decide) (by omega)))
    obtain ⟨hclass, -⟩ := classifierIsR251.2 w v d.toNat hv hwide
    exact ⟨(hzero le_rfl).trans (hzero hwide).symm, hclass.symm.trans (classify_eq_exact v d.toNat)⟩

/-- Settles O42: O41's shift has the capped amount, and by the invariant the mantissa is a W-bit value. -/
theorem alignCapIsExact : Obligations.AlignCapIsExact := by
  intro rd ra rb s hs ha hb
  obtain ⟨-, hfinite, -⟩ := alignShiftsTheSmallerExponent rd ra rb s
  obtain ⟨t, n, hexec, hge, hlt, -⟩ := hfinite ha hb
  refine ⟨t, hexec, fun h => ?_, fun h => ?_⟩
  · obtain ⟨hn, hval, hloss, -⟩ := hge h
    obtain ⟨hman, hclass⟩ := shift_and_loss_of_capped (hs.x_bound rb) (sub_nonneg.mpr h) hn
    exact ⟨(congrArg FloatReg.man hval).trans hman, hloss.trans hclass⟩
  · obtain ⟨hn, hval, hloss, -⟩ := hlt h
    obtain ⟨hman, hclass⟩ := shift_and_loss_of_capped (hs.x_bound ra) (sub_nonneg.mpr h.le) hn
    exact ⟨(congrArg FloatReg.man hval).trans hman, hloss.trans hclass⟩

end Sys2Proof.Machine
end

section
/-! PROOFS. What a turn does while ERR = 1: the error stays, and no command is accepted, until a reset (O54). -/

namespace Sys2Proof.Machine

/-- From `s` to `t`, ERR, ERRCODE and ERRINFO are as before, and no command has been accepted by an idle unit (R452, R453). -/
structure StaysInError (s t : State) : Prop where
  error : t.error = s.error
  idle : s.latch = none → t.latch = none

theorem StaysInError.refl (s : State) : StaysInError s s := ⟨rfl, id⟩

/-! ### The unit's turn (R452) -/

theorem State.raiseByCommand_error_of_err {s : State} (h : s.error.err = true) (k : ErrCode) :
    (s.raiseByCommand k).error = s.error :=
  ErrorState.raise_of_err h k s.commandWord

/-- A commit never writes the error state, and an error entry keeps the first error. -/
theorem exec_error_of_err {i : Instr} {s t : State} (h : s.error.err = true) (hexec : exec i s = .next t) :
    t.error = s.error := by
  obtain ⟨r, hend, hkeeps⟩ := exec_endsKeepingFlags i s
  obtain ⟨u, hr, rfl⟩ | ⟨k, -, rfl⟩ := State.finish_cases (hend.symm.trans hexec)
  · exact (hkeeps u hr).error
  · exact State.raiseByCommand_error_of_err h k

theorem unitStep_staysInError {s t : State} (h : s.error.err = true) (hstep : unitStep s = .next t) :
    StaysInError s t where
  error := by
    obtain rfl | ⟨i, hexec⟩ | rfl := unitStep_cases hstep
    · rfl
    · exact exec_error_of_err h hexec
    · exact State.raiseByCommand_error_of_err h .illegal
  idle hl := by
    obtain rfl : s = t := by simpa [unitStep_of_idle hl] using hstep
    exact hl

/-! ### The host's accesses (R107, R109, R453) -/

theorem hostRead_staysInError (a : Addr) (s : State) : StaysInError s (hostRead a s) := by
  obtain ⟨v, n, hread⟩ := hostRead_frame a s
  rw [hread]
  exact ⟨rfl, id⟩

/-- Of all registers only CMD's write could fill the latch, and it is dropped (R453). -/
theorem State.portWrite_staysInError {s : State} (h : s.error.err = true) (d : Word) (r : PortReg) :
    StaysInError s (s.portWrite d r) := by
  cases r with
  | cmd =>
    rw [State.portWrite, State.submit_of_err h]
    exact .refl s
  | _ => exact ⟨rfl, id⟩

/-- A write that is no soft reset: to CTRL it has no effect (R77), while busy it is dropped (R109), else it is a plain write. -/
theorem hostWrite_staysInError {s : State} {a : Addr} {d : Word} (h : s.error.err = true)
    (hreset : a.toNat = 6 → d.getLsbD 0 = false) : StaysInError s (hostWrite a d s) := by
  unfold hostWrite
  split_ifs with hctrl
  · rw [State.ctrlWrite, if_neg (ne_true_of_eq_false (hreset (portReg_ctrl_iff.mp hctrl)))]
    exact .refl s
  · rw [State.busyWrite_of_err h]
    exact .refl s
  · exact State.portWrite_staysInError h d _

/-! ### One step (R462) -/

/-- Settles O54: the turn is the unit's, a read or a write, each of which stays in error, as the two resets are excluded. -/
theorem errorStaysUntilReset : Obligations.ErrorStaysUntilReset := by
  intro s t herr hstep hhard hsoft
  suffices hstays : StaysInError s t from ⟨hstays.error, hstays.idle⟩
  cases hturns : s.turns with
  | nil => exact unitStep_staysInError herr ((step_of_no_turn hturns).symm.trans hstep)
  | cons u ts =>
    have hturn : takeTurn u (s.withTurns ts) = .next t := (step_of_turn hturns).symm.trans hstep
    suffices hstays : StaysInError (s.withTurns ts) t from ⟨hstays.error, hstays.idle⟩
    cases u with
    | hostRead a =>
      cases hturn
      exact hostRead_staysInError a _
    | hostWrite a d =>
      cases hturn
      refine hostWrite_staysInError herr fun ha => hsoft d ts ?_
      obtain rfl : a = 0x0006 := BitVec.eq_of_toNat_eq ha
      exact hturns
    | hardReset => exact absurd hturns (hhard ts)
    | unitTurn => exact unitStep_staysInError herr hturn

end Sys2Proof.Machine
end
